-- ==== Sys2Proof/Word.lean ====
section
/-! DEFINITION. The widths the spec computes with: register and address words (XLEN = 32, R6, R20), halfwords and bytes (R51). -/

namespace Sys2Proof

/-- A register or address value: 32 bits (R6 `XLEN`, R20). -/
abbrev Word := BitVec 32

/-- A 16-bit instruction unit or halfword (R51, R80). -/
abbrev Half := BitVec 16

/-- The smallest addressable unit: 8 bits (R50). -/
abbrev Byte := BitVec 8

end Sys2Proof
end

