-- ==== Sys2Proof/Config.lean ====
section
/-! DEFINITION. The implementation parameters of R6 as plain data, and the free values the spec leaves open as constants without a body. -/

namespace Sys2Proof

/-- Architecture versions in the order of R3. -/
inductive Arch where
  | v4T | v5T | v6 | v6T2 | v7
deriving DecidableEq, Repr

/-- Position of a version on the one scale of R3. -/
def Arch.rank : Arch → Nat
  | .v4T => 0
  | .v5T => 1
  | .v6 => 2
  | .v6T2 => 3
  | .v7 => 4

/-- R3 `Has5T`. -/
def Arch.has5T (a : Arch) : Bool := Arch.v5T.rank ≤ a.rank

/-- R3 `Has6`. -/
def Arch.has6 (a : Arch) : Bool := Arch.v6.rank ≤ a.rank

/-- R3 `HasT2`. -/
def Arch.hasT2 (a : Arch) : Bool := Arch.v6T2.rank ≤ a.rank

/-- R3 `HasV7`. -/
def Arch.hasV7 (a : Arch) : Bool := a == .v7

/-- Data byte order, the bit E of R31: `little` is E = 0, `big` is E = 1. -/
inductive Endian where
  | little | big
deriving DecidableEq, Repr

/-- What a byte of the address space is (R6 `MemMap`, R62, R64). -/
inductive MemKind where
  | unmapped | normal | readOnly | device
deriving DecidableEq, Repr

/-- One entry of the address map: `size` bytes from `base`, all of one kind. -/
structure Region where
  base : Nat
  size : Nat
  kind : MemKind
deriving DecidableEq, Repr

/-- A range of byte addresses (used for the launch code image of R53 and R69). -/
structure ByteRange where
  base : Nat
  size : Nat
deriving DecidableEq, Repr

/-- R6 `UNALIGNED`: the only value the spec admits (R57, D5). -/
inductive Unaligned where
  | fault
deriving DecidableEq, Repr

/-- What `IrqOracle` delivers at one step: a subset of the five events of R316. -/
structure EventSet where
  irq : Bool
  fiq : Bool
  impreciseAbort : Bool
  debugRequest : Bool
  event : Bool
deriving DecidableEq, Repr

/-- The oracle's default answer: nothing pending (R6, R316). -/
def EventSet.empty : EventSet := ⟨false, false, false, false, false⟩

/-- R6 `IrqOracle`: any function of the step index (D12).  It is an argument of `Sys2Proof.Machine.stepUnder`. -/
abbrev IrqOracle := Nat → EventSet

/-- The parameters of R6 that are data.  They are fixed for a run (R39).  `MUL_FLAGS_4T` is `Config.mulFlags4T`; `IrqOracle` and
`EnvResume` are arguments of `Sys2Proof.Machine.stepUnder`. -/
structure Params where
  /-- `ARCH` (R3, D1). -/
  arch : Arch
  /-- `E_INIT` (D3). -/
  eInit : Endian
  /-- `IFETCH_BE` (R56, D4). -/
  ifetchBE : Bool
  /-- `UNALIGNED` (R57, D5). -/
  unaligned : Unaligned
  /-- `MemMap` (D6): a byte has the kind of the first region that holds it, and is `Unmapped` if none does. -/
  memMap : List Region
  /-- `ENTRY[31:1]`: bit 0 of `ENTRY` is clear (D7). -/
  entryIndex : BitVec 31
  /-- `PRIV` (R35, D8). -/
  priv : Bool
  /-- `BKPT_TO_DEBUG` (R315, D9). -/
  bkptToDebug : Bool
  /-- `CODE_RO` (R69, D13). -/
  codeRO : Bool
  /-- The bytes of the launch code image (R53, R69). -/
  codeImage : List ByteRange
  /-- `IrqOracle` of a run by `Sys2Proof.Machine.step`: its answers at the first step indexes; beyond the list it is empty (log 9). -/
  irqSchedule : List EventSet
deriving DecidableEq, Repr

/-- `ENTRY`: 32 bits, bit 0 clear (R6, D7). -/
def Params.entry (p : Params) : Word := p.entryIndex ++ 0#1

/-- The `IrqOracle` that the listed answers make. -/
def Params.irqOracle (p : Params) : IrqOracle := fun k => p.irqSchedule.getD k EventSet.empty

/-- The parameters of `State.reset`: the defaults of R6, and DESIGN CHOICE values where R6 gives none (log 2): `ENTRY` is 0x00008000. -/
def Params.reset : Params where
  arch := .v7
  eInit := .little
  ifetchBE := false
  unaligned := .fault
  memMap := [⟨0, 2 ^ 32, .normal⟩]
  entryIndex := 0x4000#31
  priv := true
  bkptToDebug := false
  codeRO := true
  codeImage := []
  irqSchedule := []

/-- FREE VALUE (R146, D10 `MUL_FLAGS_4T`): C (bit 1) and V (bit 0) after the flag-setting MULS that makes draw number `n` (log 10). -/
opaque Config.mulFlags4T (n : Nat) : BitVec 2

/-- FREE VALUE (R62, I7): the byte that a read of `Device` memory at `addr` returns when it makes draw number `n` (log 11). -/
opaque Config.deviceByte (n : Nat) (addr : Nat) : Byte

end Sys2Proof
end

