-- ==== Sys2Proof/Syntax.lean ====
section
/-! DEFINITION. The instructions: one constructor for each row of spec/opcode_table.json, in the table's order. -/

namespace Sys2Proof

/-- A 3-bit register field: R0 to R7 (R91). -/
abbrev LoReg := Fin 8

/-- A 4-bit register number: R0 to R15, with SP = 13, LR = 14, PC = 15 (R21, R91). -/
abbrev Reg := Fin 16

/-- The instructions of the card and of the opcode table, with the operand fields of R82. -/
inductive Instr where
  /-- `MOVS Rd, Rm` (R121). -/
  | movsReg (rd rm : LoReg)
  /-- `LSLS Rd, Rm, #shift`, shift 1 to 31 (R180). -/
  | lslsImm (rd rm : LoReg) (imm5 : BitVec 5)
  /-- `LSRS Rd, Rm, #shift`, field 0 meaning 32 (R182). -/
  | lsrsImm (rd rm : LoReg) (imm5 : BitVec 5)
  /-- `ASRS Rd, Rm, #shift`, field 0 meaning 32 (R184). -/
  | asrsImm (rd rm : LoReg) (imm5 : BitVec 5)
  /-- `ADDS Rd, Rn, Rm` (R131). -/
  | addsReg (rd rn rm : LoReg)
  /-- `SUBS Rd, Rn, Rm` (R140). -/
  | subsReg (rd rn rm : LoReg)
  /-- `ADDS Rd, Rn, #imm3` (R130). -/
  | addsImm3 (rd rn : LoReg) (imm3 : BitVec 3)
  /-- `SUBS Rd, Rn, #imm3` (R141). -/
  | subsImm3 (rd rn : LoReg) (imm3 : BitVec 3)
  /-- `MOVS Rd, #imm8` (R120). -/
  | movsImm (rd : LoReg) (imm8 : BitVec 8)
  /-- `CMP Rn, #imm8` (R163). -/
  | cmpImm (rn : LoReg) (imm8 : BitVec 8)
  /-- `ADDS Rd, Rd, #imm8` (R134). -/
  | addsImm8 (rdn : LoReg) (imm8 : BitVec 8)
  /-- `SUBS Rd, Rd, #imm8` (R142). -/
  | subsImm8 (rdn : LoReg) (imm8 : BitVec 8)
  /-- `ANDS Rd, Rd, Rm` (R164). -/
  | ands (rdn rm : LoReg)
  /-- `EORS Rd, Rd, Rm` (R165). -/
  | eors (rdn rm : LoReg)
  /-- `LSLS Rd, Rd, Rs` (R181). -/
  | lslsReg (rdn rs : LoReg)
  /-- `LSRS Rd, Rd, Rs` (R183). -/
  | lsrsReg (rdn rs : LoReg)
  /-- `ASRS Rd, Rd, Rs` (R185). -/
  | asrsReg (rdn rs : LoReg)
  /-- `ADCS Rd, Rd, Rm` (R135). -/
  | adcs (rdn rm : LoReg)
  /-- `SBCS Rd, Rd, Rm` (R143). -/
  | sbcs (rdn rm : LoReg)
  /-- `RORS Rd, Rd, Rs` (R186). -/
  | rorsReg (rdn rs : LoReg)
  /-- `TST Rn, Rm` (R169). -/
  | tst (rn rm : LoReg)
  /-- `RSBS Rd, Rn, #0` (R145). -/
  | rsbs (rd rn : LoReg)
  /-- `CMP Rn, Rm`, both Lo (R160). -/
  | cmpLo (rn rm : LoReg)
  /-- `CMN Rn, Rm` (R162). -/
  | cmn (rn rm : LoReg)
  /-- `ORRS Rd, Rd, Rm` (R166). -/
  | orrs (rdn rm : LoReg)
  /-- `MULS Rd, Rm, Rd` (R146). -/
  | muls (rdn rm : LoReg)
  /-- `BICS Rd, Rd, Rm` (R167). -/
  | bics (rdn rm : LoReg)
  /-- `MVNS Rd, Rm` (R168). -/
  | mvns (rd rm : LoReg)
  /-- `ADD Rd, Rd, Rm`, any registers (R132, R133). -/
  | addHi (rdn rm : Reg)
  /-- `CMP Rn, Rm`, at least one Hi (R161). -/
  | cmpHi (rn rm : Reg)
  /-- `MOV Rd, Rm`, any registers (R122, R123). -/
  | movHi (rd rm : Reg)
  /-- `BX Rm` (R260). -/
  | bx (rm : Reg)
  /-- `BLX Rm` (R262). -/
  | blxReg (rm : Reg)
  /-- `LDR Rd, <label>` (R208). -/
  | ldrLit (rt : LoReg) (imm8 : BitVec 8)
  /-- `STR Rd, [Rn, Rm]` (R223). -/
  | strReg (rt rn rm : LoReg)
  /-- `STRH Rd, [Rn, Rm]` (R224). -/
  | strhReg (rt rn rm : LoReg)
  /-- `STRB Rd, [Rn, Rm]` (R225). -/
  | strbReg (rt rn rm : LoReg)
  /-- `LDRSB Rd, [Rn, Rm]` (R207). -/
  | ldrsbReg (rt rn rm : LoReg)
  /-- `LDR Rd, [Rn, Rm]` (R203). -/
  | ldrReg (rt rn rm : LoReg)
  /-- `LDRH Rd, [Rn, Rm]` (R204). -/
  | ldrhReg (rt rn rm : LoReg)
  /-- `LDRB Rd, [Rn, Rm]` (R206). -/
  | ldrbReg (rt rn rm : LoReg)
  /-- `LDRSH Rd, [Rn, Rm]` (R205). -/
  | ldrshReg (rt rn rm : LoReg)
  /-- `STR Rd, [Rn, #imm]`, offset imm5 * 4 (R220). -/
  | strImm (rt rn : LoReg) (imm5 : BitVec 5)
  /-- `LDR Rd, [Rn, #imm]`, offset imm5 * 4 (R200). -/
  | ldrImm (rt rn : LoReg) (imm5 : BitVec 5)
  /-- `STRB Rd, [Rn, #imm]`, offset imm5 (R222). -/
  | strbImm (rt rn : LoReg) (imm5 : BitVec 5)
  /-- `LDRB Rd, [Rn, #imm]`, offset imm5 (R202). -/
  | ldrbImm (rt rn : LoReg) (imm5 : BitVec 5)
  /-- `STRH Rd, [Rn, #imm]`, offset imm5 * 2 (R221). -/
  | strhImm (rt rn : LoReg) (imm5 : BitVec 5)
  /-- `LDRH Rd, [Rn, #imm]`, offset imm5 * 2 (R201). -/
  | ldrhImm (rt rn : LoReg) (imm5 : BitVec 5)
  /-- `STR Rd, [SP, #imm]`, offset imm8 * 4 (R226). -/
  | strSp (rt : LoReg) (imm8 : BitVec 8)
  /-- `LDR Rd, [SP, #imm]`, offset imm8 * 4 (R209). -/
  | ldrSp (rt : LoReg) (imm8 : BitVec 8)
  /-- `ADR Rd, <label>`, offset imm8 * 4 (R138). -/
  | adr (rd : LoReg) (imm8 : BitVec 8)
  /-- `ADD Rd, SP, #imm`, offset imm8 * 4 (R137). -/
  | addRdSp (rd : LoReg) (imm8 : BitVec 8)
  /-- `ADD SP, SP, #imm`, offset imm7 * 4 (R136). -/
  | addSp (imm7 : BitVec 7)
  /-- `SUB SP, SP, #imm`, offset imm7 * 4 (R144). -/
  | subSp (imm7 : BitVec 7)
  /-- `CBZ Rn, <label>`, imm6 is i:imm5 (R256). -/
  | cbz (rn : LoReg) (imm6 : BitVec 6)
  /-- `SXTH Rd, Rm` (R280). -/
  | sxth (rd rm : LoReg)
  /-- `SXTB Rd, Rm` (R281). -/
  | sxtb (rd rm : LoReg)
  /-- `UXTH Rd, Rm` (R282). -/
  | uxth (rd rm : LoReg)
  /-- `UXTB Rd, Rm` (R283). -/
  | uxtb (rd rm : LoReg)
  /-- `PUSH <loreglist>` and, with `m`, `PUSH <loreglist+LR>` (R240). -/
  | push (m : Bool) (list : BitVec 8)
  /-- `SETEND <endianness>` (R293). -/
  | setend (e : Endian)
  /-- `CPSIE <iflags>` (R292). -/
  | cpsie (a i f : Bool)
  /-- `CPSID <iflags>` (R291). -/
  | cpsid (a i f : Bool)
  /-- `CBNZ Rn, <label>`, imm6 is i:imm5 (R257). -/
  | cbnz (rn : LoReg) (imm6 : BitVec 6)
  /-- `REV Rd, Rm` (R284). -/
  | rev (rd rm : LoReg)
  /-- `REV16 Rd, Rm` (R285). -/
  | rev16 (rd rm : LoReg)
  /-- `REVSH Rd, Rm` (R286). -/
  | revsh (rd rm : LoReg)
  /-- `POP <loreglist>` (R241) and, with `p`, `POP <loreglist+PC>` (R242, R243). -/
  | pop (p : Bool) (list : BitVec 8)
  /-- `BKPT <immed_8>` (R294). -/
  | bkpt (imm8 : BitVec 8)
  /-- `NOP` (R295). -/
  | nop
  /-- `YIELD` (R299). -/
  | yield
  /-- `WFE` (R297). -/
  | wfe
  /-- `WFI` (R298). -/
  | wfi
  /-- `SEV` (R296). -/
  | sev
  /-- The unallocated hints, numbers 5 to 15 (R300). -/
  | hint (number : BitVec 4)
  /-- `IT{pattern} {cond}`, mask not 0 (R250). -/
  | it (firstcond mask : BitVec 4)
  /-- `STM Rn!, <loreglist>` (R227). -/
  | stm (rn : LoReg) (list : BitVec 8)
  /-- `LDM Rn!, <loreglist>` (R210) and `LDM Rn, <loreglist>` (R211). -/
  | ldm (rn : LoReg) (list : BitVec 8)
  /-- The permanently undefined `0xDExx` (R101). -/
  | udf (imm8 : BitVec 8)
  /-- `SVC <immed_8>` (R290). -/
  | svc (imm8 : BitVec 8)
  /-- `B{cond} <label>`, cond 0000 to 1101 (R255). -/
  | bCond (cond : BitVec 4) (imm8 : BitVec 8)
  /-- `B <label>` (R258). -/
  | b (imm11 : BitVec 11)
  /-- `BL <label>`; `offset` is S:I1:I2:imm10:imm11, the offset in halfwords (R90, R259). -/
  | bl (offset : BitVec 24)
  /-- `BLX <label>`; `offset` is S:I1:I2:imm10H:imm10L, the offset in words (R90, R261). -/
  | blxLabel (offset : BitVec 23)
deriving DecidableEq, Repr

end Sys2Proof
end

