-- ==== Sys2Proof/WellFormed.lean ====
section
/-! DEFINITION. Which terms of `Instr` stand for an encoding. -/

namespace Sys2Proof

/-- The term has an encoding of its own: LSLS with shift 0 is `MOVS Rd, Rm` (R85), hint numbers 0 to 4 are allocated (R102), an IT
mask is not 0 (R93), `B{cond}` takes conditions 0000 to 1101 (R255).  Every other field value is encodable. -/
def Instr.wf : Instr → Bool
  | .movsReg _ _ => true
  | .lslsImm _ _ imm5 => imm5 != 0
  | .lsrsImm _ _ _ => true
  | .asrsImm _ _ _ => true
  | .addsReg _ _ _ => true
  | .subsReg _ _ _ => true
  | .addsImm3 _ _ _ => true
  | .subsImm3 _ _ _ => true
  | .movsImm _ _ => true
  | .cmpImm _ _ => true
  | .addsImm8 _ _ => true
  | .subsImm8 _ _ => true
  | .ands _ _ => true
  | .eors _ _ => true
  | .lslsReg _ _ => true
  | .lsrsReg _ _ => true
  | .asrsReg _ _ => true
  | .adcs _ _ => true
  | .sbcs _ _ => true
  | .rorsReg _ _ => true
  | .tst _ _ => true
  | .rsbs _ _ => true
  | .cmpLo _ _ => true
  | .cmn _ _ => true
  | .orrs _ _ => true
  | .muls _ _ => true
  | .bics _ _ => true
  | .mvns _ _ => true
  | .addHi _ _ => true
  | .cmpHi _ _ => true
  | .movHi _ _ => true
  | .bx _ => true
  | .blxReg _ => true
  | .ldrLit _ _ => true
  | .strReg _ _ _ => true
  | .strhReg _ _ _ => true
  | .strbReg _ _ _ => true
  | .ldrsbReg _ _ _ => true
  | .ldrReg _ _ _ => true
  | .ldrhReg _ _ _ => true
  | .ldrbReg _ _ _ => true
  | .ldrshReg _ _ _ => true
  | .strImm _ _ _ => true
  | .ldrImm _ _ _ => true
  | .strbImm _ _ _ => true
  | .ldrbImm _ _ _ => true
  | .strhImm _ _ _ => true
  | .ldrhImm _ _ _ => true
  | .strSp _ _ => true
  | .ldrSp _ _ => true
  | .adr _ _ => true
  | .addRdSp _ _ => true
  | .addSp _ => true
  | .subSp _ => true
  | .cbz _ _ => true
  | .sxth _ _ => true
  | .sxtb _ _ => true
  | .uxth _ _ => true
  | .uxtb _ _ => true
  | .push _ _ => true
  | .setend _ => true
  | .cpsie _ _ _ => true
  | .cpsid _ _ _ => true
  | .cbnz _ _ => true
  | .rev _ _ => true
  | .rev16 _ _ => true
  | .revsh _ _ => true
  | .pop _ _ => true
  | .bkpt _ => true
  | .nop => true
  | .yield => true
  | .wfe => true
  | .wfi => true
  | .sev => true
  | .hint number => 5 ≤ number.toNat
  | .it _ mask => mask != 0
  | .stm _ _ => true
  | .ldm _ _ => true
  | .udf _ => true
  | .svc _ => true
  | .bCond cond _ => cond.toNat < 14
  | .b _ => true
  | .bl _ => true
  | .blxLabel _ => true

end Sys2Proof
end

