-- ==== Sys2Proof/Decode.lean ====
section
/-! DEFINITION. The version at which each instruction exists (R97), the decoder of R80 to R103, total on any two halfwords, and after it the encoder, both written from the formats of R82. -/

namespace Sys2Proof

/-! ## Availability and length (R80, R97) -/

/-- Before Thumb-2 a BL or BLX offset has J1 = J2 = 1, that is I1 = I2 = S (R90). -/
def nearBl (offset : BitVec 24) : Bool :=
  (offset.getLsbD 22 == offset.getLsbD 23) && (offset.getLsbD 21 == offset.getLsbD 23)

/-- As `nearBl`, for the word offset of `BLX <label>`. -/
def nearBlx (offset : BitVec 23) : Bool :=
  (offset.getLsbD 21 == offset.getLsbD 22) && (offset.getLsbD 20 == offset.getLsbD 22)

/-- The lowest version at which a row exists, as its `arch` tag says (R97). -/
def Instr.since : Instr → Arch
  | .blxReg _ | .bkpt _ | .blxLabel _ => .v5T
  | .sxth _ _ | .sxtb _ _ | .uxth _ _ | .uxtb _ _ | .rev _ _ | .rev16 _ _ | .revsh _ _
  | .setend _ | .cpsie _ _ _ | .cpsid _ _ _ => .v6
  | .cbz _ _ | .cbnz _ _ | .it _ _ | .nop | .yield | .wfe | .wfi | .sev | .hint _ => .v6T2
  | .movsReg _ _ | .lslsImm _ _ _ | .lsrsImm _ _ _ | .asrsImm _ _ _ | .addsReg _ _ _ | .subsReg _ _ _
  | .addsImm3 _ _ _ | .subsImm3 _ _ _ | .movsImm _ _ | .cmpImm _ _ | .addsImm8 _ _ | .subsImm8 _ _
  | .ands _ _ | .eors _ _ | .lslsReg _ _ | .lsrsReg _ _ | .asrsReg _ _ | .adcs _ _ | .sbcs _ _ | .rorsReg _ _
  | .tst _ _ | .rsbs _ _ | .cmpLo _ _ | .cmn _ _ | .orrs _ _ | .muls _ _ | .bics _ _ | .mvns _ _
  | .addHi _ _ | .cmpHi _ _ | .movHi _ _ | .bx _ | .ldrLit _ _
  | .strReg _ _ _ | .strhReg _ _ _ | .strbReg _ _ _ | .ldrsbReg _ _ _ | .ldrReg _ _ _ | .ldrhReg _ _ _
  | .ldrbReg _ _ _ | .ldrshReg _ _ _ | .strImm _ _ _ | .ldrImm _ _ _ | .strbImm _ _ _ | .ldrbImm _ _ _
  | .strhImm _ _ _ | .ldrhImm _ _ _ | .strSp _ _ | .ldrSp _ _ | .adr _ _ | .addRdSp _ _ | .addSp _ | .subSp _
  | .push _ _ | .pop _ _ | .stm _ _ | .ldm _ _ | .udf _ | .svc _ | .bCond _ _ | .b _ | .bl _ => .v4T

/-- The instruction exists at the version: its tag is reached (R97), and before Thumb-2 a BL or BLX offset is near (R90, R99). -/
def Instr.availableAt (arch : Arch) (i : Instr) : Bool :=
  (i.since.rank ≤ arch.rank) &&
    match i with
    | .bl offset => arch.hasT2 || nearBl offset
    | .blxLabel offset => arch.hasT2 || nearBlx offset
    | _ => true

/-- Bytes the instruction occupies (R80). -/
def Instr.len : Instr → Nat
  | .bl _ | .blxLabel _ => 4
  | _ => 2

/-! ## Bit fields of a halfword (R7, R82, R91) -/

/-- The `len`-bit field whose lowest bit is bit `lo`, as a number. -/
def bits (hw : Half) (lo len : Nat) : Nat := hw.toNat / 2 ^ lo % 2 ^ len

/-- One bit. -/
def flag (hw : Half) (i : Nat) : Bool := bits hw i 1 == 1

/-- The same field as a bit vector. -/
def imm (n : Nat) (hw : Half) (lo : Nat) : BitVec n := BitVec.ofNat n (bits hw lo n)

/-- A 3-bit register field (R91). -/
def lo3 (hw : Half) (lo : Nat) : LoReg := ⟨bits hw lo 3, Nat.mod_lt _ (by decide)⟩

/-- A 4-bit register field, `hw[6:3]` of formats HI and BX (R91). -/
def reg4 (hw : Half) : Reg := ⟨bits hw 3 4, Nat.mod_lt _ (by decide)⟩

/-- The split 4-bit register number `hw[7] : hw[2:0]` of format HI (R91). -/
def regD (hw : Half) : Reg :=
  ⟨bits hw 7 1 * 8 + bits hw 0 3, by
    have h1 : bits hw 7 1 < 2 := Nat.mod_lt _ (by decide)
    have h2 : bits hw 0 3 < 8 := Nat.mod_lt _ (by decide)
    omega⟩

/-! ## The decode tree of R96 -/

/-- What decoding two halfwords gives: an instruction, or one of the rejections of R98 to R100, by name. -/
inductive Decoded where
  /-- A row of the table, available at the version. -/
  | instr (i : Instr)
  /-- R100: the halfword matches no row available at the version. -/
  | undefined (hw : Half)
  /-- R261: BLX `<label>` with `hw2[0] = 1`. -/
  | undefinedPair (hw1 hw2 : Half)
  /-- R98: "BX should-be-zero bits". -/
  | bxShouldBeZero
  /-- R99: "unpaired BL/BLX half". -/
  | unpairedHalf
  /-- R99: another 32-bit Thumb-2 instruction. -/
  | notOnCard (hw1 hw2 : Half)
deriving DecidableEq, Repr

/-- Format AS3 (R82). -/
def decodeAS3 (hw : Half) : Instr :=
  match bits hw 9 2 with
  | 0 => .addsReg (lo3 hw 0) (lo3 hw 3) (lo3 hw 6)
  | 1 => .subsReg (lo3 hw 0) (lo3 hw 3) (lo3 hw 6)
  | 2 => .addsImm3 (lo3 hw 0) (lo3 hw 3) (imm 3 hw 6)
  | _ => .subsImm3 (lo3 hw 0) (lo3 hw 3) (imm 3 hw 6)

/-- Format DP (R82). -/
def decodeDP (hw : Half) : Instr :=
  match bits hw 6 4 with
  | 0 => .ands (lo3 hw 0) (lo3 hw 3)
  | 1 => .eors (lo3 hw 0) (lo3 hw 3)
  | 2 => .lslsReg (lo3 hw 0) (lo3 hw 3)
  | 3 => .lsrsReg (lo3 hw 0) (lo3 hw 3)
  | 4 => .asrsReg (lo3 hw 0) (lo3 hw 3)
  | 5 => .adcs (lo3 hw 0) (lo3 hw 3)
  | 6 => .sbcs (lo3 hw 0) (lo3 hw 3)
  | 7 => .rorsReg (lo3 hw 0) (lo3 hw 3)
  | 8 => .tst (lo3 hw 0) (lo3 hw 3)
  | 9 => .rsbs (lo3 hw 0) (lo3 hw 3)
  | 10 => .cmpLo (lo3 hw 0) (lo3 hw 3)
  | 11 => .cmn (lo3 hw 0) (lo3 hw 3)
  | 12 => .orrs (lo3 hw 0) (lo3 hw 3)
  | 13 => .muls (lo3 hw 0) (lo3 hw 3)
  | 14 => .bics (lo3 hw 0) (lo3 hw 3)
  | _ => .mvns (lo3 hw 0) (lo3 hw 3)

/-- Formats HI and BX (R82); a BX or BLX halfword with nonzero should-be-zero bits is no row (R98). -/
def decodeHI (hw : Half) : Option Instr :=
  match bits hw 8 2 with
  | 0 => some (.addHi (regD hw) (reg4 hw))
  | 1 => some (.cmpHi (regD hw) (reg4 hw))
  | 2 => some (.movHi (regD hw) (reg4 hw))
  | _ =>
    if bits hw 0 3 = 0 then
      some (if flag hw 7 then .blxReg (reg4 hw) else .bx (reg4 hw))
    else none

/-- Format LSR (R82). -/
def decodeLSR (hw : Half) : Instr :=
  match bits hw 9 3 with
  | 0 => .strReg (lo3 hw 0) (lo3 hw 3) (lo3 hw 6)
  | 1 => .strhReg (lo3 hw 0) (lo3 hw 3) (lo3 hw 6)
  | 2 => .strbReg (lo3 hw 0) (lo3 hw 3) (lo3 hw 6)
  | 3 => .ldrsbReg (lo3 hw 0) (lo3 hw 3) (lo3 hw 6)
  | 4 => .ldrReg (lo3 hw 0) (lo3 hw 3) (lo3 hw 6)
  | 5 => .ldrhReg (lo3 hw 0) (lo3 hw 3) (lo3 hw 6)
  | 6 => .ldrbReg (lo3 hw 0) (lo3 hw 3) (lo3 hw 6)
  | _ => .ldrshReg (lo3 hw 0) (lo3 hw 3) (lo3 hw 6)

/-- Format EXT (R82). -/
def decodeEXT (hw : Half) : Instr :=
  match bits hw 6 2 with
  | 0 => .sxth (lo3 hw 0) (lo3 hw 3)
  | 1 => .sxtb (lo3 hw 0) (lo3 hw 3)
  | 2 => .uxth (lo3 hw 0) (lo3 hw 3)
  | _ => .uxtb (lo3 hw 0) (lo3 hw 3)

/-- Format REV (R82); `op = 10` is unallocated. -/
def decodeREV (hw : Half) : Option Instr :=
  match bits hw 6 2 with
  | 0 => some (.rev (lo3 hw 0) (lo3 hw 3))
  | 1 => some (.rev16 (lo3 hw 0) (lo3 hw 3))
  | 3 => some (.revsh (lo3 hw 0) (lo3 hw 3))
  | _ => none

/-- Halfwords `0xB6xx`: formats SETEND and CPS (R82, R103). -/
def decodeB6 (hw : Half) : Option Instr :=
  match bits hw 3 5 with
  | 10 => if bits hw 0 3 = 0 then some (.setend .little) else none
  | 11 => if bits hw 0 3 = 0 then some (.setend .big) else none
  | 12 => some (.cpsie (flag hw 2) (flag hw 1) (flag hw 0))
  | 14 => some (.cpsid (flag hw 2) (flag hw 1) (flag hw 0))
  | _ => none

/-- Halfwords `0xBFxx`: the hints, then IT (R96, R102). -/
def decodeBF (hw : Half) : Instr :=
  if bits hw 0 4 = 0 then
    match bits hw 4 4 with
    | 0 => .nop
    | 1 => .yield
    | 2 => .wfe
    | 3 => .wfi
    | 4 => .sev
    | _ => .hint (imm 4 hw 4)
  else .it (imm 4 hw 4) (imm 4 hw 0)

/-- The offset `i : imm5` of format CB, `hw[9] : hw[7:3]` (R89). -/
def cbOffset (hw : Half) : BitVec 6 := BitVec.ofNat 6 (bits hw 9 1 * 32 + bits hw 3 5)

/-- Halfwords `0xBxxx`, by `hw[11:8]` (R96). -/
def decodeMisc (hw : Half) : Option Instr :=
  match bits hw 8 4 with
  | 0 => some (if flag hw 7 then .subSp (imm 7 hw 0) else .addSp (imm 7 hw 0))
  | 1 => some (.cbz (lo3 hw 0) (cbOffset hw))
  | 2 => some (decodeEXT hw)
  | 3 => some (.cbz (lo3 hw 0) (cbOffset hw))
  | 4 => some (.push false (imm 8 hw 0))
  | 5 => some (.push true (imm 8 hw 0))
  | 6 => decodeB6 hw
  | 9 => some (.cbnz (lo3 hw 0) (cbOffset hw))
  | 10 => decodeREV hw
  | 11 => some (.cbnz (lo3 hw 0) (cbOffset hw))
  | 12 => some (.pop false (imm 8 hw 0))
  | 13 => some (.pop true (imm 8 hw 0))
  | 14 => some (.bkpt (imm 8 hw 0))
  | 15 => some (decodeBF hw)
  | _ => none

/-- Halfwords `0xDxxx`: `B{cond}`, with UDF (R101) and SVC tried first. -/
def decodeBC (hw : Half) : Instr :=
  match bits hw 8 4 with
  | 14 => .udf (imm 8 hw 0)
  | 15 => .svc (imm 8 hw 0)
  | _ => .bCond (imm 4 hw 8) (imm 8 hw 0)

/-- The row a 16-bit halfword matches with every row available, `none` for the halfwords of R98 and for the first halves of R81. -/
def decode16 (hw : Half) : Option Instr :=
  match bits hw 11 5 with
  | 0 => some (if bits hw 6 5 = 0 then .movsReg (lo3 hw 0) (lo3 hw 3) else .lslsImm (lo3 hw 0) (lo3 hw 3) (imm 5 hw 6))
  | 1 => some (.lsrsImm (lo3 hw 0) (lo3 hw 3) (imm 5 hw 6))
  | 2 => some (.asrsImm (lo3 hw 0) (lo3 hw 3) (imm 5 hw 6))
  | 3 => some (decodeAS3 hw)
  | 4 => some (.movsImm (lo3 hw 8) (imm 8 hw 0))
  | 5 => some (.cmpImm (lo3 hw 8) (imm 8 hw 0))
  | 6 => some (.addsImm8 (lo3 hw 8) (imm 8 hw 0))
  | 7 => some (.subsImm8 (lo3 hw 8) (imm 8 hw 0))
  | 8 => if flag hw 10 then decodeHI hw else some (decodeDP hw)
  | 9 => some (.ldrLit (lo3 hw 8) (imm 8 hw 0))
  | 10 => some (decodeLSR hw)
  | 11 => some (decodeLSR hw)
  | 12 => some (.strImm (lo3 hw 0) (lo3 hw 3) (imm 5 hw 6))
  | 13 => some (.ldrImm (lo3 hw 0) (lo3 hw 3) (imm 5 hw 6))
  | 14 => some (.strbImm (lo3 hw 0) (lo3 hw 3) (imm 5 hw 6))
  | 15 => some (.ldrbImm (lo3 hw 0) (lo3 hw 3) (imm 5 hw 6))
  | 16 => some (.strhImm (lo3 hw 0) (lo3 hw 3) (imm 5 hw 6))
  | 17 => some (.ldrhImm (lo3 hw 0) (lo3 hw 3) (imm 5 hw 6))
  | 18 => some (.strSp (lo3 hw 8) (imm 8 hw 0))
  | 19 => some (.ldrSp (lo3 hw 8) (imm 8 hw 0))
  | 20 => some (.adr (lo3 hw 8) (imm 8 hw 0))
  | 21 => some (.addRdSp (lo3 hw 8) (imm 8 hw 0))
  | 22 => decodeMisc hw
  | 23 => decodeMisc hw
  | 24 => some (.stm (lo3 hw 8) (imm 8 hw 0))
  | 25 => some (.ldm (lo3 hw 8) (imm 8 hw 0))
  | 26 => some (decodeBC hw)
  | 27 => some (decodeBC hw)
  | 28 => some (.b (imm 11 hw 0))
  | _ => none

/-- R81: the halfword is the first half of a 32-bit instruction. -/
def isWide (hw : Half) : Bool := 29 ≤ bits hw 11 5

/-- A 16-bit halfword at a version (R97, R98, R100).  The halfwords `0x4700` to `0x47FF` with nonzero low bits are
Unpredictable where their row exists (R98, R260, R262; log 14). -/
def decodeNarrow (arch : Arch) (hw : Half) : Decoded :=
  match decode16 hw with
  | some i => if i.availableAt arch then .instr i else .undefined hw
  | none =>
    if bits hw 8 8 = 0x47 && (!flag hw 7 || arch.has5T) then .bxShouldBeZero else .undefined hw

/-- `S : I1 : I2` of R90 as a number: `I1 = NOT (J1 EOR S)`, `I2 = NOT (J2 EOR S)`. -/
def signBits (hw1 hw2 : Half) : Nat :=
  let s := flag hw1 10
  s.toNat * 4 + (!(flag hw2 13 ^^ s)).toNat * 2 + (!(flag hw2 11 ^^ s)).toNat

/-- The halfword offset `S:I1:I2:imm10:imm11` of BL (R90). -/
def blOffset (hw1 hw2 : Half) : BitVec 24 :=
  BitVec.ofNat 24 (signBits hw1 hw2 * 2 ^ 21 + bits hw1 0 10 * 2 ^ 11 + bits hw2 0 11)

/-- The word offset `S:I1:I2:imm10H:imm10L` of BLX `<label>` (R90). -/
def blxOffset (hw1 hw2 : Half) : BitVec 23 :=
  BitVec.ofNat 23 (signBits hw1 hw2 * 2 ^ 20 + bits hw1 0 10 * 2 ^ 10 + bits hw2 1 10)

/-- R99: a pair that is not BL or BLX `<label>` of the version. -/
def notBl (arch : Arch) (hw1 hw2 : Half) : Decoded :=
  if arch.hasT2 then .notOnCard hw1 hw2 else .unpairedHalf

/-- A pair of halfwords whose first announces a 32-bit instruction (R81, R90, R99, R259, R261). -/
def decodeWide (arch : Arch) (hw1 hw2 : Half) : Decoded :=
  if bits hw1 11 5 = 30 && bits hw2 14 2 == 3 then
    if flag hw2 12 then
      if Instr.availableAt arch (.bl (blOffset hw1 hw2)) then .instr (.bl (blOffset hw1 hw2)) else .unpairedHalf
    else if !arch.has5T then .unpairedHalf
    else if flag hw2 0 then .undefinedPair hw1 hw2
    else if Instr.availableAt arch (.blxLabel (blxOffset hw1 hw2)) then .instr (.blxLabel (blxOffset hw1 hw2))
    else .unpairedHalf
  else notBl arch hw1 hw2

/-- `Decode(hw1, hw2, ARCH)` of R13 step 4; `hw2` matters only when `isWide hw1`. -/
def decode (arch : Arch) (hw1 hw2 : Half) : Decoded :=
  if isWide hw1 then decodeWide arch hw1 hw2 else decodeNarrow arch hw1

/-! ## The encoder -/

/-- A halfword from a number below 2^16. -/
def half (n : Nat) : Half := BitVec.ofNat 16 n

/-- The bits of R82 that a register number of format HI puts at bit 7 and bits 2:0. -/
def hiD (r : Reg) : Nat := r.val / 8 * 128 + r.val % 8

/-- The bits of format CB that a 6-bit offset puts at bit 9 and bits 7:3. -/
def cbImm (imm6 : BitVec 6) : Nat := imm6.toNat / 32 * 512 + imm6.toNat % 32 * 8

/-- `J = NOT I EOR S` as bit `pos` of `hw2` (R90). -/
def jBit (sign i : Bool) (pos : Nat) : Nat := (!i ^^ sign).toNat * 2 ^ pos

/-- The halfwords of a well-formed instruction, first halfword first (R82). -/
def encode : Instr → List Half
  | .movsReg rd rm => [half (0x0000 + rm * 8 + rd)]
  | .lslsImm rd rm imm5 => [half (0x0000 + imm5.toNat * 64 + rm * 8 + rd)]
  | .lsrsImm rd rm imm5 => [half (0x0800 + imm5.toNat * 64 + rm * 8 + rd)]
  | .asrsImm rd rm imm5 => [half (0x1000 + imm5.toNat * 64 + rm * 8 + rd)]
  | .addsReg rd rn rm => [half (0x1800 + rm * 64 + rn * 8 + rd)]
  | .subsReg rd rn rm => [half (0x1A00 + rm * 64 + rn * 8 + rd)]
  | .addsImm3 rd rn imm3 => [half (0x1C00 + imm3.toNat * 64 + rn * 8 + rd)]
  | .subsImm3 rd rn imm3 => [half (0x1E00 + imm3.toNat * 64 + rn * 8 + rd)]
  | .movsImm rd imm8 => [half (0x2000 + rd * 256 + imm8.toNat)]
  | .cmpImm rn imm8 => [half (0x2800 + rn * 256 + imm8.toNat)]
  | .addsImm8 rdn imm8 => [half (0x3000 + rdn * 256 + imm8.toNat)]
  | .subsImm8 rdn imm8 => [half (0x3800 + rdn * 256 + imm8.toNat)]
  | .ands rdn rm => [half (0x4000 + rm * 8 + rdn)]
  | .eors rdn rm => [half (0x4040 + rm * 8 + rdn)]
  | .lslsReg rdn rs => [half (0x4080 + rs * 8 + rdn)]
  | .lsrsReg rdn rs => [half (0x40C0 + rs * 8 + rdn)]
  | .asrsReg rdn rs => [half (0x4100 + rs * 8 + rdn)]
  | .adcs rdn rm => [half (0x4140 + rm * 8 + rdn)]
  | .sbcs rdn rm => [half (0x4180 + rm * 8 + rdn)]
  | .rorsReg rdn rs => [half (0x41C0 + rs * 8 + rdn)]
  | .tst rn rm => [half (0x4200 + rm * 8 + rn)]
  | .rsbs rd rn => [half (0x4240 + rn * 8 + rd)]
  | .cmpLo rn rm => [half (0x4280 + rm * 8 + rn)]
  | .cmn rn rm => [half (0x42C0 + rm * 8 + rn)]
  | .orrs rdn rm => [half (0x4300 + rm * 8 + rdn)]
  | .muls rdn rm => [half (0x4340 + rm * 8 + rdn)]
  | .bics rdn rm => [half (0x4380 + rm * 8 + rdn)]
  | .mvns rd rm => [half (0x43C0 + rm * 8 + rd)]
  | .addHi rdn rm => [half (0x4400 + rm * 8 + hiD rdn)]
  | .cmpHi rn rm => [half (0x4500 + rm * 8 + hiD rn)]
  | .movHi rd rm => [half (0x4600 + rm * 8 + hiD rd)]
  | .bx rm => [half (0x4700 + rm * 8)]
  | .blxReg rm => [half (0x4780 + rm * 8)]
  | .ldrLit rt imm8 => [half (0x4800 + rt * 256 + imm8.toNat)]
  | .strReg rt rn rm => [half (0x5000 + rm * 64 + rn * 8 + rt)]
  | .strhReg rt rn rm => [half (0x5200 + rm * 64 + rn * 8 + rt)]
  | .strbReg rt rn rm => [half (0x5400 + rm * 64 + rn * 8 + rt)]
  | .ldrsbReg rt rn rm => [half (0x5600 + rm * 64 + rn * 8 + rt)]
  | .ldrReg rt rn rm => [half (0x5800 + rm * 64 + rn * 8 + rt)]
  | .ldrhReg rt rn rm => [half (0x5A00 + rm * 64 + rn * 8 + rt)]
  | .ldrbReg rt rn rm => [half (0x5C00 + rm * 64 + rn * 8 + rt)]
  | .ldrshReg rt rn rm => [half (0x5E00 + rm * 64 + rn * 8 + rt)]
  | .strImm rt rn imm5 => [half (0x6000 + imm5.toNat * 64 + rn * 8 + rt)]
  | .ldrImm rt rn imm5 => [half (0x6800 + imm5.toNat * 64 + rn * 8 + rt)]
  | .strbImm rt rn imm5 => [half (0x7000 + imm5.toNat * 64 + rn * 8 + rt)]
  | .ldrbImm rt rn imm5 => [half (0x7800 + imm5.toNat * 64 + rn * 8 + rt)]
  | .strhImm rt rn imm5 => [half (0x8000 + imm5.toNat * 64 + rn * 8 + rt)]
  | .ldrhImm rt rn imm5 => [half (0x8800 + imm5.toNat * 64 + rn * 8 + rt)]
  | .strSp rt imm8 => [half (0x9000 + rt * 256 + imm8.toNat)]
  | .ldrSp rt imm8 => [half (0x9800 + rt * 256 + imm8.toNat)]
  | .adr rd imm8 => [half (0xA000 + rd * 256 + imm8.toNat)]
  | .addRdSp rd imm8 => [half (0xA800 + rd * 256 + imm8.toNat)]
  | .addSp imm7 => [half (0xB000 + imm7.toNat)]
  | .subSp imm7 => [half (0xB080 + imm7.toNat)]
  | .cbz rn imm6 => [half (0xB100 + cbImm imm6 + rn)]
  | .sxth rd rm => [half (0xB200 + rm * 8 + rd)]
  | .sxtb rd rm => [half (0xB240 + rm * 8 + rd)]
  | .uxth rd rm => [half (0xB280 + rm * 8 + rd)]
  | .uxtb rd rm => [half (0xB2C0 + rm * 8 + rd)]
  | .push m list => [half (0xB400 + m.toNat * 256 + list.toNat)]
  | .setend .little => [half 0xB650]
  | .setend .big => [half 0xB658]
  | .cpsie a i f => [half (0xB660 + a.toNat * 4 + i.toNat * 2 + f.toNat)]
  | .cpsid a i f => [half (0xB670 + a.toNat * 4 + i.toNat * 2 + f.toNat)]
  | .cbnz rn imm6 => [half (0xB900 + cbImm imm6 + rn)]
  | .rev rd rm => [half (0xBA00 + rm * 8 + rd)]
  | .rev16 rd rm => [half (0xBA40 + rm * 8 + rd)]
  | .revsh rd rm => [half (0xBAC0 + rm * 8 + rd)]
  | .pop p list => [half (0xBC00 + p.toNat * 256 + list.toNat)]
  | .bkpt imm8 => [half (0xBE00 + imm8.toNat)]
  | .nop => [half 0xBF00]
  | .yield => [half 0xBF10]
  | .wfe => [half 0xBF20]
  | .wfi => [half 0xBF30]
  | .sev => [half 0xBF40]
  | .hint number => [half (0xBF00 + number.toNat * 16)]
  | .it firstcond mask => [half (0xBF00 + firstcond.toNat * 16 + mask.toNat)]
  | .stm rn list => [half (0xC000 + rn * 256 + list.toNat)]
  | .ldm rn list => [half (0xC800 + rn * 256 + list.toNat)]
  | .udf imm8 => [half (0xDE00 + imm8.toNat)]
  | .svc imm8 => [half (0xDF00 + imm8.toNat)]
  | .bCond cond imm8 => [half (0xD000 + cond.toNat * 256 + imm8.toNat)]
  | .b imm11 => [half (0xE000 + imm11.toNat)]
  | .bl offset =>
    [half (0xF000 + (offset.getLsbD 23).toNat * 1024 + offset.toNat / 2 ^ 11 % 1024),
     half (0xD000 + jBit (offset.getLsbD 23) (offset.getLsbD 22) 13 + jBit (offset.getLsbD 23) (offset.getLsbD 21) 11
      + offset.toNat % 2 ^ 11)]
  | .blxLabel offset =>
    [half (0xF000 + (offset.getLsbD 22).toNat * 1024 + offset.toNat / 2 ^ 10 % 1024),
     half (0xC000 + jBit (offset.getLsbD 22) (offset.getLsbD 21) 13 + jBit (offset.getLsbD 22) (offset.getLsbD 20) 11
      + offset.toNat % 2 ^ 10 * 2)]

/-- Decoding a list of halfwords as the fetch of R13 would see them: the second one where there is one. -/
def decodeWords (arch : Arch) : List Half → Option Decoded
  | [] => none
  | [hw1] => if isWide hw1 then none else some (decode arch hw1 0)
  | hw1 :: hw2 :: _ => some (decode arch hw1 hw2)

/-! ## Words numbered as spec/opcode_table.json numbers them -/

/-- The two halfwords of an instruction whose bits are `w`.  The table writes a 32-bit row as `hw1 : hw2`, `hw1` in bits 31 to 16
(INDEX.md, R259); a 32-bit number whose upper half does not begin a BL or BLX pair is read with its first halfword in bits 15 to 0
(log 13).  A 16-bit row has its halfword in bits 15 to 0, and what follows it is 0. -/
def tableHalves (nbits w : Nat) : Half × Half :=
  let high := half (w / 2 ^ 16)
  let low := half w
  if nbits ≤ 16 then (low, 0)
  else if bits high 11 5 = 30 then (high, low)
  else (low, high)

/-- The instruction the decoder reads from a word numbered as spec/opcode_table.json numbers it, at the reset state's `ARCH`. -/
def decodeTableWord (nbits w : Nat) : Option Instr :=
  match decode Params.reset.arch (tableHalves nbits w).1 (tableHalves nbits w).2 with
  | .instr i => some i
  | .undefined _ => none
  | .undefinedPair _ _ => none
  | .bxShouldBeZero => none
  | .unpairedHalf => none
  | .notOnCard _ _ => none

end Sys2Proof
end

