-- ==== Sys2Proof/Machine/State.lean ====
section
/-! DEFINITION. The machine's state as plain data, the reasons a step can stop, and the state after reset (the launch state of R351). -/

namespace Sys2Proof.Machine

/-- N, Z, C, V: the APSR flags (R28). -/
structure Flags where
  n : Bool
  z : Bool
  c : Bool
  v : Bool
deriving DecidableEq, Repr

/-- Instruction-set state T (R30). -/
inductive InstrSet where
  | thumb | arm
deriving DecidableEq, Repr

/-- One access to `Device` memory as the trace records it (R62, D6). -/
inductive DeviceEvent where
  | read (addr : Word) (size : Nat)
  | write (addr : Word) (size : Nat) (value : Word)
deriving DecidableEq, Repr

/-- Memory: (address, byte) pairs, addresses strictly rising, no byte equal to `unlistedByte` (see `Memory.wf`). -/
abbrev Memory := List Host.Cell

/-- What a byte that nothing has written reads as (R45 leaves it unspecified: log 4, DESIGN CHOICE, unsafe). -/
def unlistedByte : Byte := 0x00#8

/-- The state of the machine (R20 to R38), with the parameters of R6 (log 1) and the model's draw counter (log 10). -/
structure State where
  /-- The parameters of R6; no step changes them (R39). -/
  params : Params
  /-- R0 to R12, SP (13) and LR (14) (R20, R21). -/
  regs : Vector Word 15
  /-- The address of the instruction being executed (R24). -/
  pc : Word
  /-- N, Z, C, V (R28). -/
  flags : Flags
  /-- T (R30). -/
  t : InstrSet
  /-- E (R31). -/
  e : Endian
  /-- A: masks the imprecise abort (R32). -/
  maskA : Bool
  /-- I: masks IRQ (R32). -/
  maskI : Bool
  /-- F: masks FIQ (R32). -/
  maskF : Bool
  /-- ITSTATE (R33). -/
  itstate : BitVec 8
  /-- EV (R34). -/
  ev : Bool
  /-- Memory (R38). -/
  mem : Memory
  /-- The byte addresses that have been fetched as part of an instruction, strictly rising (R53, R56, R69). -/
  fetched : List Nat
  /-- The accesses made to `Device` memory, the oldest first (R62, D6). -/
  deviceTrace : List DeviceEvent
  /-- The index k of the next step, for `IrqOracle(k)` (R316, log 9). -/
  stepIndex : Nat
  /-- `pending` of R316: the answer of `IrqOracle` that the latest step began with. -/
  pending : EventSet
  /-- The MODEL's own counter of free values drawn (log 10). -/
  draws : Nat
deriving DecidableEq, Repr

/-- The named reasons of `UNPREDICTABLE` (93_implementation_defined.md U2 to U27); all raised at decode time, before any effect. -/
inductive Unpredictable where
  /-- U2 "MOV Lo to Lo before version 6" (R123). -/
  | movLoToLoBeforeV6
  /-- U3 "ADD Lo to Lo before Thumb-2" (R133). -/
  | addLoToLoBeforeT2
  /-- U5 "CBZ inside an IT block" (R256). -/
  | cbzInIT
  /-- U5 "CBNZ inside an IT block" (R257). -/
  | cbnzInIT
  /-- U5 "CPS inside an IT block" (R291, R292). -/
  | cpsInIT
  /-- U5 "IT inside an IT block" (R250). -/
  | itInIT
  /-- U5 "SETEND inside an IT block" (R293). -/
  | setendInIT
  /-- U6, the conditional branch inside an IT block (R255). -/
  | bCondInIT
  /-- U8 "pc wrap" (R27). -/
  | pcWrap
  /-- U9 "pc odd" (R56). -/
  | pcOdd
  /-- U10 "BX should-be-zero bits" (R98). -/
  | bxShouldBeZero
  /-- U11 "unpaired BL/BLX half" (R99). -/
  | unpairedHalf
  /-- U12 "MOVS Rd, Rm inside an IT block" (R121). -/
  | movsRegInIT
  /-- U13 "branch not last in IT block" (R254). -/
  | branchNotLastInIT
  /-- U14 "ADD PC, PC, PC" (R132). -/
  | addPcPcPc
  /-- U15 "MULS with Rd = Rm before version 6" (R146). -/
  | mulsSameBeforeV6
  /-- U16 "CMP Hi encoding with two Lo registers" (R161). -/
  | cmpHiTwoLo
  /-- U17 "CMP with PC" (R161). -/
  | cmpWithPc
  /-- U18 "LDM with empty list" (R210). -/
  | ldmEmpty
  /-- U19 "STM with empty list" (R227). -/
  | stmEmpty
  /-- U20 "STM base in list, not lowest" (R227). -/
  | stmBaseNotLowest
  /-- U21 "PUSH with empty list" (R240). -/
  | pushEmpty
  /-- U22 "POP with empty list" (R241). -/
  | popEmpty
  /-- U23 "BLX PC" (R262). -/
  | blxPc
  /-- U24 "BX PC at an address that is not a multiple of 4" (R260). -/
  | bxPcUnaligned
  /-- U25 "IT with condition 1111" (R250). -/
  | itCond1111
  /-- U26 "IT AL with an Else" (R250). -/
  | itAlWithElse
  /-- U27 "CPS with no flag selected" (R291, R292). -/
  | cpsNoFlag
deriving DecidableEq, Repr

/-- What WFE and WFI wait as (R12 `Wait(kind)`). -/
inductive WaitKind where
  | wfe | wfi
deriving DecidableEq, Repr

/-- The asynchronous events that can be delivered (R316). -/
inductive InterruptKind where
  | debugRequest | impreciseAbort | fiq | irq
deriving DecidableEq, Repr

/-- The stopping outcomes of R12 that are exceptions, faults or holds.  Each carries the state of before the step (R311), ends the run
unless the environment resumes it (R12, log 8), and is safe: the model stops where the hardware would enter a handler, wait, or do
something the spec does not fix. -/
inductive Fault where
  /-- R290: raised by SVC; safe (log 18). -/
  | supervisorCall (imm8 : BitVec 8)
  /-- R294: raised by BKPT; safe (log 18).  Which of the card's two alternatives it is: `breakpointKind`. -/
  | breakpoint (imm8 : BitVec 8)
  /-- R100, R101: raised at decode by a halfword with no row at the version, and by UDF; safe. -/
  | undefined (hw : Half)
  /-- R261: raised at decode by BLX `<label>` with `hw2[0] = 1`; safe. -/
  | undefinedPair (hw1 hw2 : Half)
  /-- D16: raised by decode, fetch and the decode-time checks of the instructions; safe. -/
  | unpredictable (reason : Unpredictable)
  /-- R57: raised by halfword and word accesses; safe (D5). -/
  | alignmentFault (addr : Word)
  /-- R64, R69: raised by accesses to unmapped bytes and by stores to read-only bytes and code; safe. -/
  | dataAbort (addr : Word)
  /-- R56, R64: raised by the fetch of a halfword that touches an unmapped byte; safe. -/
  | prefetchAbort (addr : Word)
  /-- R297, R298: raised by WFE and WFI with nothing to wake them; a hold, safe. -/
  | wait (kind : WaitKind)
  /-- R316: raised at the start of a step by an event that is not masked; safe. -/
  | interrupt (kind : InterruptKind)
deriving DecidableEq, Repr

/-- What the model gives no meaning to. -/
inductive Refusal where
  /-- Raised by an arm of `exec` whose instruction has no meaning yet; safe. -/
  | notModelled (mnemonic : String)
  /-- R99, X6: raised at decode by a 32-bit Thumb-2 instruction that is not on the card; safe. -/
  | notOnCard (hw1 hw2 : Half)
  /-- R26, R30, X7: raised by BX, BLX Rm, BLX `<label>` and POP with the PC where they select ARM state, with the address they change
to and the state that the outcome carries, the one after the instruction's other effects (R12, D2, log 6); safe. -/
  | leftThumbState (target : Word) (carried : State)
deriving DecidableEq, Repr

/-- The hardware exception a fault stands for (R311, second column). -/
inductive HwException where
  | supervisorCall | prefetchAbort | debugState | undefinedInstruction | dataAbort | impreciseAbort | irq | fiq
deriving DecidableEq, Repr

/-- A stop as the environment sees it (R12, R314). -/
inductive Stop where
  | fault (f : Fault)
  | refused (r : Refusal)
deriving DecidableEq, Repr

/-- R6 `EnvResume`: from a stop and the state it carries, the state to continue from, if any (R314, D11). -/
abbrev EnvResume := Stop → State → Option State

/-- What one step, or one instruction, gives. -/
abbrev Result := Host.Outcome State Fault Refusal

/-- The launch state of R45 and R351: what the spec fixes, and as arguments what it leaves unspecified. -/
def State.launch (p : Params) (regs : Vector Word 15) (flags : Flags) (ev : Bool) (mem : Memory) : State where
  params := p
  regs := regs
  pc := p.entry
  flags := flags
  t := .thumb
  e := p.eInit
  maskA := true
  maskI := true
  maskF := true
  itstate := 0#8
  ev := ev
  mem := mem
  fetched := []
  deviceTrace := []
  stepIndex := 0
  pending := EventSet.empty
  draws := 0

/-- The launch state with the values log 2, 3 and 4 name: registers, flags and EV zero, no byte listed. -/
def State.reset : State :=
  State.launch Params.reset (Vector.replicate 15 0#32) ⟨false, false, false, false⟩ false []

end Sys2Proof.Machine
end

