-- ==== Sys2Proof/Machine/Memory.lean ====
section
/-! DEFINITION. Memory as bytes, the address map, byte order, and the access primitives MemRead and MemWrite (R50 to R64). -/

namespace Sys2Proof.Machine

/-! ## Bytes -/

/-- The byte at an address. -/
def Memory.read : Memory → Nat → Byte
  | [], _ => unlistedByte
  | (k, b) :: m, a => if k = a then b else Memory.read m a

/-- Insert a cell before the first one at a higher address. -/
def Memory.insertCell (c : Host.Cell) : Memory → Memory
  | [] => [c]
  | d :: m => if c.1 < d.1 then c :: d :: m else d :: Memory.insertCell c m

/-- Set the byte at an address, keeping the canonical form. -/
def Memory.write (m : Memory) (a : Nat) (v : Byte) : Memory :=
  let rest := m.filter (fun c => c.1 != a)
  if v = unlistedByte then rest else Memory.insertCell (a, v) rest

/-- The canonical form: addresses of the space, strictly rising, and no byte that an unlisted address already reads as. -/
abbrev Memory.wf (m : Memory) : Prop :=
  m.Pairwise (fun c d => c.1 < d.1) ∧ ∀ c ∈ m, c.1 < 2 ^ 32 ∧ c.2 ≠ unlistedByte

/-- Add an address to a strictly rising list of addresses. -/
def markByte (a : Nat) : List Nat → List Nat
  | [] => [a]
  | b :: l => if a < b then a :: b :: l else if a = b then b :: l else b :: markByte a l

/-- Address of byte `i` of an access (R52: addresses modulo 2^32). -/
def byteAddr (addr : Word) (i : Nat) : Nat := (addr.toNat + i) % 2 ^ 32

/-- The byte of the state's memory at an address. -/
def State.byteAt (s : State) (a : Nat) : Byte := s.mem.read a

/-! ## The address map (R6 `MemMap`, R62 to R64) -/

/-- The region holds the address. -/
def inRegion (a : Nat) (r : Region) : Bool := r.base ≤ a && a < r.base + r.size

/-- The kind of a byte: that of the first region that holds it (log 26). -/
def kindOf (p : Params) (a : Nat) : MemKind :=
  match p.memMap.find? (inRegion a) with
  | some r => r.kind
  | none => .unmapped

/-- The byte is code for R53: it lies in the launch code image, or has been fetched. -/
def State.isCode (s : State) (a : Nat) : Bool :=
  s.fetched.contains a || s.params.codeImage.any (fun r => r.base ≤ a && a < r.base + r.size)

/-- The byte admits a data read (R52). -/
def State.readable (s : State) (a : Nat) : Bool := kindOf s.params a != .unmapped

/-- The byte admits a store (R53). -/
def State.writable (s : State) (a : Nat) : Bool :=
  kindOf s.params a != .unmapped && kindOf s.params a != .readOnly && !(s.params.codeRO && s.isCode a)

/-! ## Widths and byte order (R51 to R55) -/

/-- Access units (R51). -/
inductive Width where
  | byte | half | word
deriving DecidableEq, Repr

/-- Bytes of an access unit. -/
def Width.bytes : Width → Nat
  | .byte => 1
  | .half => 2
  | .word => 4

/-- The value of bytes whose first is the least significant. -/
def fromLittle : List Byte → Word
  | [] => 0#32
  | b :: bs => b.zeroExtend 32 ||| (fromLittle bs <<< 8)

/-- The value of the bytes of an access, the lowest address first (R52). -/
def fromBytes (e : Endian) (bs : List Byte) : Word :=
  match e with
  | .little => fromLittle bs
  | .big => fromLittle bs.reverse

/-- The `n` low bytes of a value, the least significant first. -/
def toLittle : Nat → Word → List Byte
  | 0, _ => []
  | n + 1, v => v.truncate 8 :: toLittle n (v >>> 8)

/-- The bytes of an access, the lowest address first (R53). -/
def toBytes (e : Endian) (n : Nat) (v : Word) : List Byte :=
  match e with
  | .little => toLittle n v
  | .big => (toLittle n v).reverse

/-! ## The checks of an access (R52, R53, R57, R64) -/

/-- R57: what a misaligned access does, as `UNALIGNED` says. -/
def alignmentCheck (w : Width) (addr : Word) (s : State) : Option Fault :=
  match s.params.unaligned with
  | .fault => if addr.toNat % w.bytes = 0 then none else some (.alignmentFault addr)

/-- Every byte of an access satisfies `ok`. -/
def allBytes (w : Width) (addr : Word) (ok : Nat → Bool) : Bool :=
  (List.range w.bytes).all (fun i => ok (byteAddr addr i))

/-- R64: the abort of one access. -/
def abortCheck (w : Width) (addr : Word) (ok : Nat → Bool) : Option Fault :=
  if allBytes w addr ok then none else some (.dataAbort addr)

/-- The checks of one read, in the order of R52. -/
def readCheck (w : Width) (addr : Word) (s : State) : Option Fault :=
  (alignmentCheck w addr s).or (abortCheck w addr s.readable)

/-- The checks of one write, in the order of R53. -/
def writeCheck (w : Width) (addr : Word) (s : State) : Option Fault :=
  (alignmentCheck w addr s).or (abortCheck w addr s.writable)

/-- The abort of `count` word accesses from `addr` upward (R60, R64): the first word that fails in the order of the transfer.  DESIGN CHOICE
where the transfer wraps past 0xFFFFFFFF: the first failing word from the base is reported, also where a later, wrapped one has the
numerically lower address (R64, R311, R319 and D25 leave it open between them: log 29). -/
def abortChecks (ok : Nat → Bool) : Nat → Word → Option Fault
  | 0, _ => none
  | n + 1, addr => (abortCheck .word addr ok).or (abortChecks ok n (addr + 4#32))

/-- The checks of `count` word reads from `base` upward, all made before any transfer (R60, R319; log 29 where they wrap). -/
def readChecks (count : Nat) (base : Word) (s : State) : Option Fault :=
  (alignmentCheck .word base s).or (abortChecks s.readable count base)

/-- The checks of `count` word writes from `base` upward, all made before any transfer (R60, R319; log 29 where they wrap). -/
def writeChecks (count : Nat) (base : Word) (s : State) : Option Fault :=
  (alignmentCheck .word base s).or (abortChecks s.writable count base)

/-! ## The transfers -/

/-- Some byte of the access is `Device` memory. -/
def State.touchesDevice (s : State) (w : Width) (addr : Word) : Bool :=
  (List.range w.bytes).any (fun i => kindOf s.params (byteAddr addr i) == .device)

/-- The byte a read returns: a draw for `Device` memory (R62, I7), the byte of memory otherwise. -/
def State.sampleByte (s : State) (a : Nat) : Byte :=
  if kindOf s.params a = .device then Config.deviceByte s.draws a else s.mem.read a

/-- The bytes a read of `n` bytes returns, the lowest address first. -/
def State.sampleBytes (s : State) (addr : Word) (n : Nat) : List Byte :=
  (List.range n).map (fun i => s.sampleByte (byteAddr addr i))

/-- Record a device access and use up one draw, if the access touches a device (R62, D6). -/
def State.noteDevice (s : State) (touches : Bool) (ev : DeviceEvent) : State :=
  if touches then { s with deviceTrace := s.deviceTrace ++ [ev], draws := s.draws + 1 } else s

/-- A read whose checks have passed: its value, zero-extended, and the state after it. -/
def readNow (w : Width) (addr : Word) (s : State) : Word × State :=
  (fromBytes s.e (s.sampleBytes addr w.bytes), s.noteDevice (s.touchesDevice w addr) (.read addr w.bytes))

/-- Store bytes from byte `i` of an access on; bytes of `Device` memory change no modelled memory (R62, D6). -/
def storeBytes (p : Params) (addr : Word) : Nat → List Byte → Memory → Memory
  | _, [], m => m
  | i, b :: bs, m =>
    storeBytes p addr (i + 1) bs (if kindOf p (byteAddr addr i) = .device then m else m.write (byteAddr addr i) b)

/-- A write whose checks have passed. -/
def writeNow (w : Width) (addr : Word) (v : Word) (s : State) : State :=
  let s' := { s with mem := storeBytes s.params addr 0 (toBytes s.e w.bytes v) s.mem }
  s'.noteDevice (s.touchesDevice w addr) (.write addr w.bytes v)

/-- `MemRead(addr, n)` of R52. -/
def memRead (w : Width) (addr : Word) (s : State) : Except Fault (Word × State) :=
  match readCheck w addr s with
  | some f => .error f
  | none => .ok (readNow w addr s)

/-- `MemWrite(addr, n, v)` of R53; only the low bytes of `v` are stored. -/
def memWrite (w : Width) (addr : Word) (v : Word) (s : State) : Except Fault State :=
  match writeCheck w addr s with
  | some f => .error f
  | none => .ok (writeNow w addr v s)

/-! ## Fetch (R56) -/

/-- The two bytes at `addr` are marked as fetched, for R69. -/
def State.markFetched (s : State) (addr : Word) : State :=
  { s with fetched := markByte (byteAddr addr 0) (markByte (byteAddr addr 1) s.fetched) }

/-- The halfword two bytes make in instruction byte order: it does not read E (R56, D4). -/
def joinInstr (be : Bool) (b0 b1 : Byte) : Half := if be then b0 ++ b1 else b1 ++ b0

/-- `FetchHalfword(addr)` of R56. -/
def fetchHalfword (addr : Word) (s : State) : Except Fault (Half × State) :=
  if addr.getLsbD 0 then .error (.unpredictable .pcOdd)
  else if !allBytes .half addr s.readable then .error (.prefetchAbort addr)
  else
    .ok (joinInstr s.params.ifetchBE (s.sampleByte (byteAddr addr 0)) (s.sampleByte (byteAddr addr 1)),
      (s.noteDevice (s.touchesDevice .half addr) (.read addr 2)).markFetched addr)

/-- Put a halfword where `fetchHalfword` reads it, whatever the map says of stores: what a loader does. -/
def Memory.placeHalf (be : Bool) (addr : Word) (hw : Half) (m : Memory) : Memory :=
  let low := hw.truncate 8
  let high := (hw >>> 8).truncate 8
  let b0 := if be then high else low
  let b1 := if be then low else high
  (m.write (byteAddr addr 0) b0).write (byteAddr addr 1) b1

end Sys2Proof.Machine
end

