-- ==== Sys2Proof/Machine/Flags.lean ====
section
/-! DEFINITION. The arithmetic and shift primitives of R9 and R10, every flag computation, conditions, and the If-Then state (R28, R29, R250 to R254). -/

namespace Sys2Proof.Machine

/-! ## Arithmetic (R9) -/

/-- What `AddWithCarry` returns. -/
structure Sum where
  result : Word
  carry : Bool
  overflow : Bool
deriving DecidableEq, Repr

/-- `AddWithCarry(x, y, cin)` of R9: the exact sums, then the comparison with the 32-bit result. -/
def addWithCarry (x y : Word) (cin : Bool) : Sum :=
  let usum : Nat := x.toNat + y.toNat + cin.toNat
  let ssum : Int := x.toInt + y.toInt + (cin.toNat : Int)
  let result : Word := BitVec.ofNat 32 usum
  { result := result, carry := decide (2 ^ 32 ≤ usum), overflow := decide (result.toInt ≠ ssum) }

/-- Subtraction `a - b` is `AddWithCarry(a, NOT(b), 1)` (R9). -/
def subWithCarry (x y : Word) (cin : Bool) : Sum := addWithCarry x (~~~y) cin

/-! ## Shifts (R10) -/

/-- A shifted value and the carry out of the shift. -/
structure Shifted where
  result : Word
  carry : Bool
deriving DecidableEq, Repr

/-- `LSL_C(x, n)`, `n >= 1` (R10). -/
def lslC (x : Word) (n : Nat) : Shifted :=
  { result := x <<< n, carry := if n ≤ 32 then x.getLsbD (32 - n) else false }

/-- `LSR_C(x, n)`, `n >= 1` (R10). -/
def lsrC (x : Word) (n : Nat) : Shifted :=
  { result := x >>> n, carry := if n ≤ 32 then x.getLsbD (n - 1) else false }

/-- `ASR_C(x, n)`, `n >= 1` (R10). -/
def asrC (x : Word) (n : Nat) : Shifted :=
  { result := x.sshiftRight n, carry := if n ≤ 32 then x.getLsbD (n - 1) else x.msb }

/-- `ROR_C(x, n)`, `n >= 1` (R10). -/
def rorC (x : Word) (n : Nat) : Shifted :=
  let r := x.rotateRight (n % 32)
  { result := r, carry := r.msb }

/-- A shift by the low byte of a register: an amount of 0 leaves the value and keeps C (R181, R183, R185, R186). -/
def shiftByRegister (shift : Word → Nat → Shifted) (x : Word) (amount : Word) (c : Bool) : Shifted :=
  let n := (amount.truncate 8 : BitVec 8).toNat
  if n = 0 then { result := x, carry := c } else shift x n

/-! ## Flags (R28, R29) -/

/-- N and Z from a result; C and V kept. -/
def Flags.setNZ (f : Flags) (v : Word) : Flags := { f with n := v.msb, z := v == 0#32 }

/-- N, Z and C from a shift; V kept. -/
def Flags.setNZC (f : Flags) (r : Shifted) : Flags := { f with n := r.result.msb, z := r.result == 0#32, c := r.carry }

/-- All four flags from `AddWithCarry`. -/
def Flags.ofSum (r : Sum) : Flags := { n := r.result.msb, z := r.result == 0#32, c := r.carry, v := r.overflow }

/-! ## Conditions (R252) -/

/-- `ConditionHolds(c)` of R252. -/
def conditionHolds (c : BitVec 4) (f : Flags) : Bool :=
  let base :=
    match c.toNat / 2 with
    | 0 => f.z
    | 1 => f.c
    | 2 => f.n
    | 3 => f.v
    | 4 => f.c && !f.z
    | 5 => f.n == f.v
    | 6 => f.n == f.v && !f.z
    | _ => true
  if c.getLsbD 0 && c != 15#4 then !base else base

/-! ## The If-Then state (R11, R33, R251) -/

/-- `InITBlock()` of R11, for a value of ITSTATE. -/
def inBlock (it : BitVec 8) : Bool := it.truncate 4 != 0#4

/-- `LastInITBlock()` of R11, for a value of ITSTATE. -/
def lastInBlock (it : BitVec 8) : Bool := it.truncate 4 == 8#4

/-- The condition of the instruction about to execute in a block: `ITSTATE[7:4]` (R251). -/
def blockCond (it : BitVec 8) : BitVec 4 := it.extractLsb' 4 4

/-- `ITAdvance()` of R251, for a value of ITSTATE. -/
def itAdvance (it : BitVec 8) : BitVec 8 :=
  if it.truncate 3 = 0#3 then 0#8 else it.extractLsb' 5 3 ++ ((it.truncate 5 : BitVec 5) <<< 1)

/-- `InITBlock()` of R11. -/
def State.inIT (s : State) : Bool := inBlock s.itstate

/-- `LastInITBlock()` of R11. -/
def State.lastInIT (s : State) : Bool := lastInBlock s.itstate

/-- A branch is met inside an IT block and not last in it (R254, U13). -/
def State.midIT (s : State) : Bool := s.inIT && !s.lastInIT

/-- R13 step 5, for an instruction other than BKPT: whether the instruction is performed. -/
def State.passed (s : State) : Bool := !s.inIT || conditionHolds (blockCond s.itstate) s.flags

/-- R13 step 9: the state after an instruction that began with `before` as ITSTATE. -/
def State.advanceIT (s : State) (before : BitVec 8) : State :=
  if inBlock before then { s with itstate := itAdvance before } else s

/-- Write the flags, in or out of an IT block (CMP, CMN, TST: R253). -/
def State.writeFlags (s : State) (f : Flags) : State := { s with flags := f }

/-- Write the flags if `SetFlags()` holds (R11, R253). -/
def State.writeFlagsOutsideIT (s : State) (f : Flags) : State := if s.inIT then s else s.writeFlags f

end Sys2Proof.Machine
end

