-- ==== Sys2Proof/Machine/Operands.lean ====
section
/-! DEFINITION. Operand forms: registers, extended and scaled immediates, branch offsets, register lists (R7, R8, R25, R83 to R95). -/

namespace Sys2Proof.Machine

/-! ## Registers (R8, R20 to R25, R91) -/

/-- The register number of a Lo register. -/
def lo (r : LoReg) : Reg := ⟨r.val, Nat.lt_of_lt_of_le r.isLt (by decide)⟩

/-- SP is R13 (R21). -/
def SP : Reg := 13

/-- LR is R14 (R21). -/
def LR : Reg := 14

/-- PC is R15 (R21). -/
def PC : Reg := 15

/-- `x[r]` of R8: register 15 reads as the address of the current instruction plus 4 (R25). -/
def State.x (s : State) (r : Reg) : Word := if h : r.val < 15 then s.regs[r.val] else s.pc + 4#32

/-- `x[r] <- v` of R8, for registers 0 to 14; writes to the PC go through the primitives of R26. -/
def State.setX (s : State) (r : Reg) (v : Word) : State :=
  if h : r.val < 15 then { s with regs := s.regs.set r.val v h } else s

/-! ## Extension and alignment (R7, R8) -/

/-- `sext_8` of the low byte. -/
def sext8 (v : Word) : Word := (v.truncate 8 : BitVec 8).signExtend 32

/-- `sext_16` of the low halfword. -/
def sext16 (v : Word) : Word := (v.truncate 16 : BitVec 16).signExtend 32

/-- `zext_8` of the low byte. -/
def zext8 (v : Word) : Word := (v.truncate 8 : BitVec 8).zeroExtend 32

/-- `zext_16` of the low halfword. -/
def zext16 (v : Word) : Word := (v.truncate 16 : BitVec 16).zeroExtend 32

/-- `Align(v, 4)`. -/
def align4 (v : Word) : Word := v &&& 0xFFFFFFFC#32

/-- `v[31:1] : '0'` (R26). -/
def clearBit0 (v : Word) : Word := v &&& 0xFFFFFFFE#32

/-- `v[31:1] : '1'` (R259). -/
def setBit0 (v : Word) : Word := v ||| 1#32

/-! ## Immediates (R83 to R90) -/

/-- An unscaled unsigned immediate (R83, R84). -/
def zimm {n : Nat} (i : BitVec n) : Word := i.zeroExtend 32

/-- An unsigned immediate scaled by 2 (R86, halfword offsets). -/
def zimm2 {n : Nat} (i : BitVec n) : Word := i.zeroExtend 32 <<< 1

/-- An unsigned immediate scaled by 4 (R86, R87, R88). -/
def zimm4 {n : Nat} (i : BitVec n) : Word := i.zeroExtend 32 <<< 2

/-- A shift amount of LSRS and ASRS: field 0 means 32 (R85). -/
def shiftAmount (imm5 : BitVec 5) : Nat := if imm5 = 0#5 then 32 else imm5.toNat

/-- `sext_9(imm8 : '0')` (R89). -/
def offBCond (imm8 : BitVec 8) : Word := (imm8 ++ 0#1 : BitVec 9).signExtend 32

/-- `sext_12(imm11 : '0')` (R89). -/
def offB (imm11 : BitVec 11) : Word := (imm11 ++ 0#1 : BitVec 12).signExtend 32

/-- `zext(i : imm5 : '0')` (R89). -/
def offCb (imm6 : BitVec 6) : Word := (imm6 ++ 0#1 : BitVec 7).zeroExtend 32

/-- `sext_25(S : I1 : I2 : imm10 : imm11 : '0')` (R90). -/
def offBl (offset : BitVec 24) : Word := (offset ++ 0#1 : BitVec 25).signExtend 32

/-- `sext_25(S : I1 : I2 : imm10H : imm10L : '00')` (R90). -/
def offBlx (offset : BitVec 23) : Word := (offset ++ 0#2 : BitVec 25).signExtend 32

/-- The base of ADR, the literal load and BLX `<label>`: `Align(pc + 4, 4)` (R25). -/
def State.literalBase (s : State) : Word := align4 (s.pc + 4#32)

/-! ## Register lists (R92) -/

/-- The listed registers in increasing number. -/
def listed (list : BitVec 8) : List LoReg := (List.finRange 8).filter (fun r => list.getLsbD r.val)

/-- `BitCount(list)`. -/
def bitCount (list : BitVec 8) : Nat := (listed list).length

/-- The register is in the list. -/
def inList (list : BitVec 8) (r : LoReg) : Bool := list.getLsbD r.val

/-- No register of a lower number is in the list. -/
def lowestInList (list : BitVec 8) (r : LoReg) : Bool := list.toNat % 2 ^ r.val == 0

/-- `4 * count` as an address offset. -/
def words (count : Nat) : Word := BitVec.ofNat 32 (4 * count)

end Sys2Proof.Machine
end

