-- ==== Sys2Proof/Machine/Ops.lean ====
section
/-! DEFINITION. The shared operations: raising an outcome, resuming after one, writing the PC, running an instruction (R13 steps 5 to 10), loads, stores, multiple transfers, interrupts. -/

namespace Sys2Proof.Machine

/-! ## Raising an outcome and resuming after one (R12, R311 to R316)

The spec performs no exception entry: "The model performs no entry sequence: the outcome ends the run" (R313, 00_scope.md R5 (c)), and
has no exception return (R314).  So taking an exception is raising its outcome, which changes no state (R311), and the one way on from
there is the environment's (`EnvResume`, R314). -/

/-- `raise K(info)` of R8 for the exceptions, faults and holds: the step ends with the outcome and the state stays as it was. -/
def raise (f : Fault) : Result := .fault f

/-- `UNPREDICTABLE(reason)` of R8. -/
def raiseUnpredictable (r : Unpredictable) : Result := raise (.unpredictable r)

/-- Go on from a completed part of a step; a stop stays as it is. -/
def andThen (o : Result) (k : State → Result) : Result :=
  match o with
  | .next t => k t
  | .fault f => .fault f
  | .refused r => .refused r

/-- The change to ARM state at `target`: the outcome `LeftThumbState(target)` of R12 and R311, which carries the state `s` that the
instruction's other effects have made (log 6). -/
def leaveThumb (target : Word) (s : State) : Result := .refused (.leftThumbState target s)

/-- The state an outcome carries: the state before the step, but for `LeftThumbState` (R12, R311). -/
def carriedState (before : State) : Stop → State
  | .refused (.leftThumbState _ carried) => carried
  | .refused _ => before
  | .fault _ => before

/-- The environment's answer to a stop of a step from `s`: the run goes on from the state it gives, under the same parameters (R39), with
the next step index (R316, log 8); with no answer the stop stands. -/
def resumeAt (env : EnvResume) (s : State) (stop : Stop) (o : Result) : Result :=
  match env stop (carriedState s stop) with
  | some t => .next { t with params := s.params, stepIndex := s.stepIndex + 1 }
  | none => o

/-- R12, R314: the environment decides whether and where execution resumes after a step from `s` that stopped. -/
def resumeUnder (env : EnvResume) (s : State) (o : Result) : Result :=
  match o with
  | .next t => .next t
  | .fault f => resumeAt env s (.fault f) o
  | .refused r => resumeAt env s (.refused r) o

/-- The default of R6: execution never resumes. -/
def neverResumes : EnvResume := fun _ _ => none

/-- Which of BKPT's two alternatives the environment sees (R315, D9). -/
def breakpointKind (p : Params) : HwException := if p.bkptToDebug then .debugState else .prefetchAbort

/-- The hardware exception a fault stands for, where it stands for one (R311, R316). -/
def hardwareException (p : Params) : Fault → Option HwException
  | .supervisorCall _ => some .supervisorCall
  | .breakpoint _ => some (breakpointKind p)
  | .undefined _ => some .undefinedInstruction
  | .undefinedPair _ _ => some .undefinedInstruction
  | .unpredictable _ => none
  | .alignmentFault _ => some .dataAbort
  | .dataAbort _ => some .dataAbort
  | .prefetchAbort _ => some .prefetchAbort
  | .wait _ => none
  | .interrupt .debugRequest => some .debugState
  | .interrupt .impreciseAbort => some .impreciseAbort
  | .interrupt .fiq => some .fiq
  | .interrupt .irq => some .irq

/-! ## Interrupts (R316) -/

/-- R316: an event sets EV at the start of the step, on V7. -/
def State.receiveEvent (s : State) : State :=
  if s.params.arch.hasV7 && s.pending.event then { s with ev := true } else s

/-- The start of a step to which `IrqOracle` answers `events` (R316). -/
def State.beginStep (s : State) (events : EventSet) : State := { s with pending := events }.receiveEvent

/-- R316: the interrupt that is taken at the start of the step, in the order of the rule. -/
def State.interruptTaken (s : State) : Option InterruptKind :=
  if s.pending.debugRequest then some .debugRequest
  else if s.pending.impreciseAbort && !s.maskA then some .impreciseAbort
  else if s.pending.fiq && !s.maskF then some .fiq
  else if s.pending.irq && !s.maskI then some .irq
  else none

/-- R298: something that ends a WFI is pending, masked or not. -/
def State.wakesWfi (s : State) : Bool :=
  s.pending.irq || s.pending.fiq || s.pending.impreciseAbort || s.pending.debugRequest

/-- The next step has the next index (R316). -/
def State.nextStep (s : State) : State := { s with stepIndex := s.stepIndex + 1 }

/-! ## Writing the PC (R26, R27) -/

/-- `BranchWritePC(v)`: stays in Thumb state, bit 0 ignored. -/
def State.branchWritePC (s : State) (v : Word) : State := { s with pc := clearBit0 v }

/-- `BXWritePC(v)`: with `v[0] = 0` it raises `LeftThumbState(v)`. -/
def State.bxWritePC (s : State) (v : Word) : Result :=
  if v.getLsbD 0 then .next (s.branchWritePC v) else leaveThumb v s

/-- `LoadWritePC(v)`. -/
def State.loadWritePC (s : State) (v : Word) : Result :=
  if s.params.arch.has5T then s.bxWritePC v else .next (s.branchWritePC v)

/-- R27: sequential advance would pass the top of the address space. -/
def State.wraps (s : State) (len : Nat) : Bool := 2 ^ 32 ≤ s.pc.toNat + len

/-- The address of the instruction `len` bytes on. -/
def State.nextPc (s : State) (len : Nat) : Word := s.pc + BitVec.ofNat 32 len

/-- R27: sequential advance by an instruction of `len` bytes. -/
def State.seqAdvance (len : Nat) (s : State) : Result :=
  if s.wraps len then raiseUnpredictable .pcWrap else .next { s with pc := s.nextPc len }

/-! ## Running an instruction (R13 steps 5 to 10) -/

/-- An instruction of 16 bits that never writes the PC: its decode-time checks (`why`), the condition of an IT block, its effect
`act`, the advance of ITSTATE, and the advance of the pc, whose wrap is a decode-time check too (U8, log 12). -/
def sequential (why : Option Unpredictable) (act : State → Result) (s : State) : Result :=
  match why with
  | some r => raiseUnpredictable r
  | none =>
    if s.wraps 2 then raiseUnpredictable .pcWrap
    else
      andThen (if s.passed then act s else .next s)
        (fun t => .next ({ t with pc := s.nextPc 2 }.advanceIT s.itstate))

/-- An instruction of `len` bytes that may write the PC: as `sequential`, but `act` sets the pc itself.  Where `act` leaves Thumb state,
the outcome ends the step there, before the advance of ITSTATE (R8, R13, log 7). -/
def branching (len : Nat) (why : Option Unpredictable) (act : State → Result) (s : State) : Result :=
  match why with
  | some r => raiseUnpredictable r
  | none =>
    andThen (if s.passed then act s else s.seqAdvance len) (fun t => .next (t.advanceIT s.itstate))

/-- A decode-time check: raise `r` if the test holds. -/
def check (test : Bool) (r : Unpredictable) : Option Unpredictable := if test then some r else none

/-! ## Register results -/

/-- Write an arithmetic result and, outside an IT block, the four flags (R9, R28, R253). -/
def State.putSum (s : State) (d : LoReg) (r : Sum) : State :=
  (s.setX (lo d) r.result).writeFlagsOutsideIT (Flags.ofSum r)

/-- Write a result and, outside an IT block, N and Z. -/
def State.putNZ (s : State) (d : LoReg) (v : Word) : State :=
  (s.setX (lo d) v).writeFlagsOutsideIT (s.flags.setNZ v)

/-- Write a shifted value and, outside an IT block, N, Z and C. -/
def State.putShifted (s : State) (d : LoReg) (r : Shifted) : State :=
  (s.setX (lo d) r.result).writeFlagsOutsideIT (s.flags.setNZC r)

/-! ## Loads and stores -/

/-- Load one access unit into a Lo register through an extension (44_load.md). -/
def loadTo (w : Width) (ext : Word → Word) (rt : LoReg) (addr : Word) (s : State) : Result :=
  match memRead w addr s with
  | .error f => raise f
  | .ok (v, t) => .next (t.setX (lo rt) (ext v))

/-- Store one access unit (45_store.md). -/
def storeFrom (w : Width) (v : Word) (addr : Word) (s : State) : Result :=
  match memWrite w addr v s with
  | .error f => raise f
  | .ok t => .next t

/-- Load the listed registers from consecutive words upward (R60), after every check has passed. -/
def loadRegs : List LoReg → Word → State → State
  | [], _, s => s
  | r :: rs, addr, s =>
    let (v, t) := readNow .word addr s
    loadRegs rs (addr + 4#32) (t.setX (lo r) v)

/-- Store values to consecutive words upward (R60), after every check has passed. -/
def storeWords : List Word → Word → State → State
  | [], _, s => s
  | v :: vs, addr, s => storeWords vs (addr + 4#32) (writeNow .word addr v s)

/-- The values of the listed registers, lowest first. -/
def State.listedValues (s : State) (list : BitVec 8) : List Word := (listed list).map (fun r => s.x (lo r))

/-- Store a list of words from `base` upward, all checks first (R60). -/
def storeMultiple (vs : List Word) (base : Word) (s : State) : Result :=
  match writeChecks vs.length base s with
  | some f => raise f
  | none => .next (storeWords vs base s)

end Sys2Proof.Machine
end

