-- ==== Sys2Proof/Machine/Arithmetic.lean ====
section
/-! DEFINITION. Add, subtract and multiply instructions (41_add_subtract_multiply.md R130 to R146). -/

namespace Sys2Proof.Machine

/-- `ADDS Rd, Rn, #imm3` (R130). -/
def execAddsImm3 (rd rn : LoReg) (imm3 : BitVec 3) (s : State) : Result :=
  sequential none (fun s => .next (s.putSum rd (addWithCarry (s.x (lo rn)) (zimm imm3) false))) s

/-- `ADDS Rd, Rn, Rm` (R131). -/
def execAddsReg (rd rn rm : LoReg) (s : State) : Result :=
  sequential none (fun s => .next (s.putSum rd (addWithCarry (s.x (lo rn)) (s.x (lo rm)) false))) s

/-- The decode-time checks of `ADD Rd, Rd, Rm` (R132, R133). -/
def addChecks (rdn rm : Reg) (s : State) : Option Unpredictable :=
  ((check (rdn.val < 8 && rm.val < 8 && !s.params.arch.hasT2) .addLoToLoBeforeT2).or
    (check (rdn == PC && rm == PC) .addPcPcPc)).or
    (check (rdn == PC && s.midIT) .branchNotLastInIT)

/-- `ADD Rd, Rd, Rm` (R132). -/
def execAddHi (rdn rm : Reg) (s : State) : Result :=
  if rdn = PC then branching 2 (addChecks rdn rm s) (fun s => .next (s.branchWritePC (s.x rdn + s.x rm))) s
  else sequential (addChecks rdn rm s) (fun s => .next (s.setX rdn (s.x rdn + s.x rm))) s

/-- `ADDS Rd, Rd, #imm8` (R134). -/
def execAddsImm8 (rdn : LoReg) (imm8 : BitVec 8) (s : State) : Result :=
  sequential none (fun s => .next (s.putSum rdn (addWithCarry (s.x (lo rdn)) (zimm imm8) false))) s

/-- `ADCS Rd, Rd, Rm` (R135). -/
def execAdcs (rdn rm : LoReg) (s : State) : Result :=
  sequential none (fun s => .next (s.putSum rdn (addWithCarry (s.x (lo rdn)) (s.x (lo rm)) s.flags.c))) s

/-- `ADD SP, SP, #imm` (R136). -/
def execAddSp (imm7 : BitVec 7) (s : State) : Result :=
  sequential none (fun s => .next (s.setX SP (s.x SP + zimm4 imm7))) s

/-- `ADD Rd, SP, #imm` (R137). -/
def execAddRdSp (rd : LoReg) (imm8 : BitVec 8) (s : State) : Result :=
  sequential none (fun s => .next (s.setX (lo rd) (s.x SP + zimm4 imm8))) s

/-- `ADR Rd, <label>` (R138). -/
def execAdr (rd : LoReg) (imm8 : BitVec 8) (s : State) : Result :=
  sequential none (fun s => .next (s.setX (lo rd) (s.literalBase + zimm4 imm8))) s

/-- `SUBS Rd, Rn, Rm` (R140). -/
def execSubsReg (rd rn rm : LoReg) (s : State) : Result :=
  sequential none (fun s => .next (s.putSum rd (subWithCarry (s.x (lo rn)) (s.x (lo rm)) true))) s

/-- `SUBS Rd, Rn, #imm3` (R141). -/
def execSubsImm3 (rd rn : LoReg) (imm3 : BitVec 3) (s : State) : Result :=
  sequential none (fun s => .next (s.putSum rd (subWithCarry (s.x (lo rn)) (zimm imm3) true))) s

/-- `SUBS Rd, Rd, #imm8` (R142). -/
def execSubsImm8 (rdn : LoReg) (imm8 : BitVec 8) (s : State) : Result :=
  sequential none (fun s => .next (s.putSum rdn (subWithCarry (s.x (lo rdn)) (zimm imm8) true))) s

/-- `SBCS Rd, Rd, Rm` (R143). -/
def execSbcs (rdn rm : LoReg) (s : State) : Result :=
  sequential none (fun s => .next (s.putSum rdn (subWithCarry (s.x (lo rdn)) (s.x (lo rm)) s.flags.c))) s

/-- `SUB SP, SP, #imm` (R144). -/
def execSubSp (imm7 : BitVec 7) (s : State) : Result :=
  sequential none (fun s => .next (s.setX SP (s.x SP - zimm4 imm7))) s

/-- `RSBS Rd, Rn, #0` (R145). -/
def execRsbs (rd rn : LoReg) (s : State) : Result :=
  sequential none (fun s => .next (s.putSum rd (addWithCarry (~~~(s.x (lo rn))) 0#32 true))) s

/-- The flags after MULS outside an IT block (R146): on V4T, C and V are the free value of draw number `draws`. -/
def mulFlags (s : State) (v : Word) : Flags :=
  if s.params.arch = .v4T then
    { s.flags.setNZ v with c := (Config.mulFlags4T s.draws).getLsbD 1, v := (Config.mulFlags4T s.draws).getLsbD 0 }
  else s.flags.setNZ v

/-- One draw of `MUL_FLAGS_4T` is used up by a flag-setting MULS on V4T (R146, D10). -/
def State.useMulDraw (s : State) : State :=
  if s.params.arch = .v4T && !s.inIT then { s with draws := s.draws + 1 } else s

/-- `MULS Rd, Rm, Rd` (R146). -/
def execMuls (rdn rm : LoReg) (s : State) : Result :=
  sequential (check (rdn == rm && !s.params.arch.has6) .mulsSameBeforeV6)
    (fun s =>
      let v := s.x (lo rm) * s.x (lo rdn)
      .next (((s.setX (lo rdn) v).writeFlagsOutsideIT (mulFlags s v)).useMulDraw)) s

end Sys2Proof.Machine
end

