-- ==== Sys2Proof/Machine/Branch.lean ====
section
/-! DEFINITION. If-Then and branch instructions (47_if_then_branch.md R250 to R263). -/

namespace Sys2Proof.Machine

/-- The decode-time checks of IT (R250). -/
def itChecks (firstcond mask : BitVec 4) (s : State) : Option Unpredictable :=
  ((check s.inIT .itInIT).or (check (firstcond == 15#4) .itCond1111)).or
    (check (firstcond == 14#4 && mask.toNat != 1 && mask.toNat != 2 && mask.toNat != 4 && mask.toNat != 8) .itAlWithElse)

/-- `IT` (R250): `ITSTATE <- firstcond : mask`. -/
def execIt (firstcond mask : BitVec 4) (s : State) : Result :=
  sequential (itChecks firstcond mask s) (fun s => .next { s with itstate := firstcond ++ mask }) s

/-- `B{cond} <label>` (R255). -/
def execBCond (cond : BitVec 4) (imm8 : BitVec 8) (s : State) : Result :=
  branching 2 (check s.inIT .bCondInIT)
    (fun s => if conditionHolds cond s.flags then .next (s.branchWritePC (s.pc + 4#32 + offBCond imm8)) else s.seqAdvance 2) s

/-- `CBZ Rn, <label>` (R256). -/
def execCbz (rn : LoReg) (imm6 : BitVec 6) (s : State) : Result :=
  branching 2 (check s.inIT .cbzInIT)
    (fun s => if s.x (lo rn) = 0#32 then .next (s.branchWritePC (s.pc + 4#32 + offCb imm6)) else s.seqAdvance 2) s

/-- `CBNZ Rn, <label>` (R257). -/
def execCbnz (rn : LoReg) (imm6 : BitVec 6) (s : State) : Result :=
  branching 2 (check s.inIT .cbnzInIT)
    (fun s => if s.x (lo rn) ≠ 0#32 then .next (s.branchWritePC (s.pc + 4#32 + offCb imm6)) else s.seqAdvance 2) s

/-- `B <label>` (R258). -/
def execB (imm11 : BitVec 11) (s : State) : Result :=
  branching 2 (check s.midIT .branchNotLastInIT)
    (fun s => .next (s.branchWritePC (s.pc + 4#32 + offB imm11))) s

/-- `BL <label>` (R259). -/
def execBl (offset : BitVec 24) (s : State) : Result :=
  branching 4 (check s.midIT .branchNotLastInIT)
    (fun s => .next ((s.setX LR (setBit0 (s.pc + 4#32))).branchWritePC (s.pc + 4#32 + offBl offset))) s

/-- The decode-time checks of `BX Rm` (R260). -/
def bxChecks (rm : Reg) (s : State) : Option Unpredictable :=
  (check s.midIT .branchNotLastInIT).or (check (rm == PC && s.pc.getLsbD 1) .bxPcUnaligned)

/-- `BX Rm` (R260). -/
def execBx (rm : Reg) (s : State) : Result :=
  branching 2 (bxChecks rm s) (fun s => s.bxWritePC (s.x rm)) s

/-- `BLX <label>` (R261): where it executes it always leaves Thumb state, for `Align(pc + 4, 4) + imm32`, with LR updated. -/
def execBlxLabel (offset : BitVec 23) (s : State) : Result :=
  branching 4 (check s.midIT .branchNotLastInIT)
    (fun s => leaveThumb (s.literalBase + offBlx offset) (s.setX LR (setBit0 (s.pc + 4#32)))) s

/-- The decode-time checks of `BLX Rm` (R262). -/
def blxChecks (rm : Reg) (s : State) : Option Unpredictable :=
  (check (rm == PC) .blxPc).or (check s.midIT .branchNotLastInIT)

/-- `BLX Rm` (R262): the target is read before LR is written. -/
def execBlxReg (rm : Reg) (s : State) : Result :=
  branching 2 (blxChecks rm s)
    (fun s => (s.setX LR (setBit0 (s.pc + 2#32))).bxWritePC (s.x rm)) s

end Sys2Proof.Machine
end

