-- ==== Sys2Proof/Machine/Extend.lean ====
section
/-! DEFINITION. Extend and reverse instructions (48_extend_reverse.md R280 to R286). -/

namespace Sys2Proof.Machine

/-- `SXTH Rd, Rm` (R280). -/
def execSxth (rd rm : LoReg) (s : State) : Result :=
  sequential none (fun s => .next (s.setX (lo rd) (sext16 (s.x (lo rm))))) s

/-- `SXTB Rd, Rm` (R281). -/
def execSxtb (rd rm : LoReg) (s : State) : Result :=
  sequential none (fun s => .next (s.setX (lo rd) (sext8 (s.x (lo rm))))) s

/-- `UXTH Rd, Rm` (R282). -/
def execUxth (rd rm : LoReg) (s : State) : Result :=
  sequential none (fun s => .next (s.setX (lo rd) (zext16 (s.x (lo rm))))) s

/-- `UXTB Rd, Rm` (R283). -/
def execUxtb (rd rm : LoReg) (s : State) : Result :=
  sequential none (fun s => .next (s.setX (lo rd) (zext8 (s.x (lo rm))))) s

/-- Byte `i` of a word: bits `8i+7 : 8i`. -/
def byteOf (v : Word) (i : Nat) : Byte := v.extractLsb' (8 * i) 8

/-- `v[7:0] : v[15:8] : v[23:16] : v[31:24]` (R284). -/
def reverseWord (v : Word) : Word := byteOf v 0 ++ byteOf v 1 ++ byteOf v 2 ++ byteOf v 3

/-- `v[23:16] : v[31:24] : v[7:0] : v[15:8]` (R285). -/
def reverseHalves (v : Word) : Word := byteOf v 2 ++ byteOf v 3 ++ byteOf v 0 ++ byteOf v 1

/-- `sext_16(v[7:0] : v[15:8])` (R286). -/
def reverseSigned (v : Word) : Word := (byteOf v 0 ++ byteOf v 1 : BitVec 16).signExtend 32

/-- `REV Rd, Rm` (R284). -/
def execRev (rd rm : LoReg) (s : State) : Result :=
  sequential none (fun s => .next (s.setX (lo rd) (reverseWord (s.x (lo rm))))) s

/-- `REV16 Rd, Rm` (R285). -/
def execRev16 (rd rm : LoReg) (s : State) : Result :=
  sequential none (fun s => .next (s.setX (lo rd) (reverseHalves (s.x (lo rm))))) s

/-- `REVSH Rd, Rm` (R286). -/
def execRevsh (rd rm : LoReg) (s : State) : Result :=
  sequential none (fun s => .next (s.setX (lo rd) (reverseSigned (s.x (lo rm))))) s

end Sys2Proof.Machine
end

