-- ==== Sys2Proof/Machine/Load.lean ====
section
/-! DEFINITION. Load instructions (44_load.md R200 to R211). -/

namespace Sys2Proof.Machine

/-- `LDR Rd, [Rn, #imm]` (R200). -/
def execLdrImm (rt rn : LoReg) (imm5 : BitVec 5) (s : State) : Result :=
  sequential none (fun s => loadTo .word id rt (s.x (lo rn) + zimm4 imm5) s) s

/-- `LDRH Rd, [Rn, #imm]` (R201). -/
def execLdrhImm (rt rn : LoReg) (imm5 : BitVec 5) (s : State) : Result :=
  sequential none (fun s => loadTo .half zext16 rt (s.x (lo rn) + zimm2 imm5) s) s

/-- `LDRB Rd, [Rn, #imm]` (R202). -/
def execLdrbImm (rt rn : LoReg) (imm5 : BitVec 5) (s : State) : Result :=
  sequential none (fun s => loadTo .byte zext8 rt (s.x (lo rn) + zimm imm5) s) s

/-- `LDR Rd, [Rn, Rm]` (R203). -/
def execLdrReg (rt rn rm : LoReg) (s : State) : Result :=
  sequential none (fun s => loadTo .word id rt (s.x (lo rn) + s.x (lo rm)) s) s

/-- `LDRH Rd, [Rn, Rm]` (R204). -/
def execLdrhReg (rt rn rm : LoReg) (s : State) : Result :=
  sequential none (fun s => loadTo .half zext16 rt (s.x (lo rn) + s.x (lo rm)) s) s

/-- `LDRSH Rd, [Rn, Rm]` (R205). -/
def execLdrshReg (rt rn rm : LoReg) (s : State) : Result :=
  sequential none (fun s => loadTo .half sext16 rt (s.x (lo rn) + s.x (lo rm)) s) s

/-- `LDRB Rd, [Rn, Rm]` (R206). -/
def execLdrbReg (rt rn rm : LoReg) (s : State) : Result :=
  sequential none (fun s => loadTo .byte zext8 rt (s.x (lo rn) + s.x (lo rm)) s) s

/-- `LDRSB Rd, [Rn, Rm]` (R207). -/
def execLdrsbReg (rt rn rm : LoReg) (s : State) : Result :=
  sequential none (fun s => loadTo .byte sext8 rt (s.x (lo rn) + s.x (lo rm)) s) s

/-- `LDR Rd, <label>` (R208). -/
def execLdrLit (rt : LoReg) (imm8 : BitVec 8) (s : State) : Result :=
  sequential none (fun s => loadTo .word id rt (s.literalBase + zimm4 imm8) s) s

/-- `LDR Rd, [SP, #imm]` (R209). -/
def execLdrSp (rt : LoReg) (imm8 : BitVec 8) (s : State) : Result :=
  sequential none (fun s => loadTo .word id rt (s.x SP + zimm4 imm8) s) s

/-- `LDM Rn!, <loreglist>` and `LDM Rn, <loreglist>` (R210, R211): write-back exactly when Rn is not in the list. -/
def execLdm (rn : LoReg) (list : BitVec 8) (s : State) : Result :=
  sequential (check (list == 0#8) .ldmEmpty)
    (fun s =>
      match readChecks (bitCount list) (s.x (lo rn)) s with
      | some f => raise f
      | none =>
        let t := loadRegs (listed list) (s.x (lo rn)) s
        .next (if inList list rn then t else t.setX (lo rn) (s.x (lo rn) + words (bitCount list)))) s

end Sys2Proof.Machine
end

