-- ==== Sys2Proof/Machine/Logic.lean ====
section
/-! DEFINITION. Compare and logical instructions (42_compare_logical.md R160 to R169). -/

namespace Sys2Proof.Machine

/-- `CMP Rn, Rm`, both Lo (R160). -/
def execCmpLo (rn rm : LoReg) (s : State) : Result :=
  sequential none (fun s => .next (s.writeFlags (Flags.ofSum (subWithCarry (s.x (lo rn)) (s.x (lo rm)) true)))) s

/-- The decode-time checks of the Hi-register CMP (R161). -/
def cmpChecks (rn rm : Reg) : Option Unpredictable :=
  (check (rn.val < 8 && rm.val < 8) .cmpHiTwoLo).or (check (rn == PC || rm == PC) .cmpWithPc)

/-- `CMP Rn, Rm`, at least one Hi (R161). -/
def execCmpHi (rn rm : Reg) (s : State) : Result :=
  sequential (cmpChecks rn rm) (fun s => .next (s.writeFlags (Flags.ofSum (subWithCarry (s.x rn) (s.x rm) true)))) s

/-- `CMN Rn, Rm` (R162). -/
def execCmn (rn rm : LoReg) (s : State) : Result :=
  sequential none (fun s => .next (s.writeFlags (Flags.ofSum (addWithCarry (s.x (lo rn)) (s.x (lo rm)) false)))) s

/-- `CMP Rn, #imm8` (R163). -/
def execCmpImm (rn : LoReg) (imm8 : BitVec 8) (s : State) : Result :=
  sequential none (fun s => .next (s.writeFlags (Flags.ofSum (subWithCarry (s.x (lo rn)) (zimm imm8) true)))) s

/-- `ANDS Rd, Rd, Rm` (R164). -/
def execAnds (rdn rm : LoReg) (s : State) : Result :=
  sequential none (fun s => .next (s.putNZ rdn (s.x (lo rdn) &&& s.x (lo rm)))) s

/-- `EORS Rd, Rd, Rm` (R165). -/
def execEors (rdn rm : LoReg) (s : State) : Result :=
  sequential none (fun s => .next (s.putNZ rdn (s.x (lo rdn) ^^^ s.x (lo rm)))) s

/-- `ORRS Rd, Rd, Rm` (R166). -/
def execOrrs (rdn rm : LoReg) (s : State) : Result :=
  sequential none (fun s => .next (s.putNZ rdn (s.x (lo rdn) ||| s.x (lo rm)))) s

/-- `BICS Rd, Rd, Rm` (R167). -/
def execBics (rdn rm : LoReg) (s : State) : Result :=
  sequential none (fun s => .next (s.putNZ rdn (s.x (lo rdn) &&& ~~~(s.x (lo rm))))) s

/-- `MVNS Rd, Rm` (R168). -/
def execMvns (rd rm : LoReg) (s : State) : Result :=
  sequential none (fun s => .next (s.putNZ rd (~~~(s.x (lo rm))))) s

/-- `TST Rn, Rm` (R169). -/
def execTst (rn rm : LoReg) (s : State) : Result :=
  sequential none (fun s => .next (s.writeFlags (s.flags.setNZ (s.x (lo rn) &&& s.x (lo rm))))) s

end Sys2Proof.Machine
end

