-- ==== Sys2Proof/Machine/Move.lean ====
section
/-! DEFINITION. Move instructions (40_move.md R120 to R123). -/

namespace Sys2Proof.Machine

/-- `MOVS Rd, #imm8` (R120). -/
def execMovsImm (rd : LoReg) (imm8 : BitVec 8) (s : State) : Result :=
  sequential none (fun s => .next (s.putNZ rd (zimm imm8))) s

/-- `MOVS Rd, Rm` (R121). -/
def execMovsReg (rd rm : LoReg) (s : State) : Result :=
  sequential (check s.inIT .movsRegInIT) (fun s => .next (s.putNZ rd (s.x (lo rm)))) s

/-- The decode-time checks of `MOV Rd, Rm` (R122, R123). -/
def movChecks (rd rm : Reg) (s : State) : Option Unpredictable :=
  (check (rd.val < 8 && rm.val < 8 && !s.params.arch.has6) .movLoToLoBeforeV6).or
    (check (rd == PC && s.midIT) .branchNotLastInIT)

/-- `MOV Rd, Rm` (R122). -/
def execMovHi (rd rm : Reg) (s : State) : Result :=
  if rd = PC then branching 2 (movChecks rd rm s) (fun s => .next (s.branchWritePC (s.x rm))) s
  else sequential (movChecks rd rm s) (fun s => .next (s.setX rd (s.x rm))) s

end Sys2Proof.Machine
end

