-- ==== Sys2Proof/Machine/Shift.lean ====
section
/-! DEFINITION. Shift and rotate instructions (43_shift_rotate.md R180 to R186). -/

namespace Sys2Proof.Machine

/-- `LSLS Rd, Rm, #shift` (R180). -/
def execLslsImm (rd rm : LoReg) (imm5 : BitVec 5) (s : State) : Result :=
  sequential none (fun s => .next (s.putShifted rd (lslC (s.x (lo rm)) imm5.toNat))) s

/-- `LSLS Rd, Rd, Rs` (R181). -/
def execLslsReg (rdn rs : LoReg) (s : State) : Result :=
  sequential none (fun s => .next (s.putShifted rdn (shiftByRegister lslC (s.x (lo rdn)) (s.x (lo rs)) s.flags.c))) s

/-- `LSRS Rd, Rm, #shift` (R182). -/
def execLsrsImm (rd rm : LoReg) (imm5 : BitVec 5) (s : State) : Result :=
  sequential none (fun s => .next (s.putShifted rd (lsrC (s.x (lo rm)) (shiftAmount imm5)))) s

/-- `LSRS Rd, Rd, Rs` (R183). -/
def execLsrsReg (rdn rs : LoReg) (s : State) : Result :=
  sequential none (fun s => .next (s.putShifted rdn (shiftByRegister lsrC (s.x (lo rdn)) (s.x (lo rs)) s.flags.c))) s

/-- `ASRS Rd, Rm, #shift` (R184). -/
def execAsrsImm (rd rm : LoReg) (imm5 : BitVec 5) (s : State) : Result :=
  sequential none (fun s => .next (s.putShifted rd (asrC (s.x (lo rm)) (shiftAmount imm5)))) s

/-- `ASRS Rd, Rd, Rs` (R185). -/
def execAsrsReg (rdn rs : LoReg) (s : State) : Result :=
  sequential none (fun s => .next (s.putShifted rdn (shiftByRegister asrC (s.x (lo rdn)) (s.x (lo rs)) s.flags.c))) s

/-- `RORS Rd, Rd, Rs` (R186). -/
def execRorsReg (rdn rs : LoReg) (s : State) : Result :=
  sequential none (fun s => .next (s.putShifted rdn (shiftByRegister rorC (s.x (lo rdn)) (s.x (lo rs)) s.flags.c))) s

end Sys2Proof.Machine
end

