-- ==== Sys2Proof/Machine/Stack.lean ====
section
/-! DEFINITION. Push and pop instructions (46_push_pop.md R240 to R243). -/

namespace Sys2Proof.Machine

/-- The words PUSH stores, lowest address first: the listed registers, then LR (R240). -/
def pushValues (m : Bool) (list : BitVec 8) (s : State) : List Word :=
  s.listedValues list ++ (if m then [s.x LR] else [])

/-- The registers PUSH and POP transfer: the list, and LR or PC (R92). -/
def stackCount (extra : Bool) (list : BitVec 8) : Nat := bitCount list + extra.toNat

/-- The new SP of PUSH, its lowest address (R240). -/
def pushBase (m : Bool) (list : BitVec 8) (s : State) : Word := s.x SP - words (stackCount m list)

/-- `PUSH <loreglist>` and `PUSH <loreglist+LR>` (R240). -/
def execPush (m : Bool) (list : BitVec 8) (s : State) : Result :=
  sequential (check (!m && list == 0#8) .pushEmpty)
    (fun s =>
      andThen (storeMultiple (pushValues m list s) (pushBase m list s) s)
        (fun t => .next (t.setX SP (pushBase m list s)))) s

/-- The decode-time checks of POP (R241). -/
def popChecks (p : Bool) (list : BitVec 8) (s : State) : Option Unpredictable :=
  (check (!p && list == 0#8) .popEmpty).or (check (p && s.midIT) .branchNotLastInIT)

/-- The pops of the Lo registers, and SP raised (R241). -/
def popRegs (p : Bool) (list : BitVec 8) (s : State) : State :=
  (loadRegs (listed list) (s.x SP) s).setX SP (s.x SP + words (stackCount p list))

/-- `POP <loreglist>` (R241) and `POP <loreglist+PC>` (R242 on V4T, R243 from V5T): the PC comes from the highest
address, last, so that SP and the registers are popped where it leaves Thumb state. -/
def execPop (p : Bool) (list : BitVec 8) (s : State) : Result :=
  if p then
    branching 2 (popChecks p list s)
      (fun s =>
        match readChecks (stackCount p list) (s.x SP) s with
        | some f => raise f
        | none =>
          let t := readNow .word (s.x SP + words (bitCount list)) (loadRegs (listed list) (s.x SP) s)
          (t.2.setX SP (s.x SP + words (stackCount p list))).loadWritePC t.1) s
  else
    sequential (popChecks p list s)
      (fun s =>
        match readChecks (stackCount p list) (s.x SP) s with
        | some f => raise f
        | none => .next (popRegs p list s)) s

end Sys2Proof.Machine
end

