-- ==== Sys2Proof/Machine/Store.lean ====
section
/-! DEFINITION. Store instructions (45_store.md R220 to R227). -/

namespace Sys2Proof.Machine

/-- `STR Rd, [Rn, #imm]` (R220). -/
def execStrImm (rt rn : LoReg) (imm5 : BitVec 5) (s : State) : Result :=
  sequential none (fun s => storeFrom .word (s.x (lo rt)) (s.x (lo rn) + zimm4 imm5) s) s

/-- `STRH Rd, [Rn, #imm]` (R221). -/
def execStrhImm (rt rn : LoReg) (imm5 : BitVec 5) (s : State) : Result :=
  sequential none (fun s => storeFrom .half (zext16 (s.x (lo rt))) (s.x (lo rn) + zimm2 imm5) s) s

/-- `STRB Rd, [Rn, #imm]` (R222). -/
def execStrbImm (rt rn : LoReg) (imm5 : BitVec 5) (s : State) : Result :=
  sequential none (fun s => storeFrom .byte (zext8 (s.x (lo rt))) (s.x (lo rn) + zimm imm5) s) s

/-- `STR Rd, [Rn, Rm]` (R223). -/
def execStrReg (rt rn rm : LoReg) (s : State) : Result :=
  sequential none (fun s => storeFrom .word (s.x (lo rt)) (s.x (lo rn) + s.x (lo rm)) s) s

/-- `STRH Rd, [Rn, Rm]` (R224). -/
def execStrhReg (rt rn rm : LoReg) (s : State) : Result :=
  sequential none (fun s => storeFrom .half (zext16 (s.x (lo rt))) (s.x (lo rn) + s.x (lo rm)) s) s

/-- `STRB Rd, [Rn, Rm]` (R225). -/
def execStrbReg (rt rn rm : LoReg) (s : State) : Result :=
  sequential none (fun s => storeFrom .byte (zext8 (s.x (lo rt))) (s.x (lo rn) + s.x (lo rm)) s) s

/-- `STR Rd, [SP, #imm]` (R226). -/
def execStrSp (rt : LoReg) (imm8 : BitVec 8) (s : State) : Result :=
  sequential none (fun s => storeFrom .word (s.x (lo rt)) (s.x SP + zimm4 imm8) s) s

/-- The decode-time checks of STM (R227, D31). -/
def stmChecks (rn : LoReg) (list : BitVec 8) : Option Unpredictable :=
  (check (list == 0#8) .stmEmpty).or (check (inList list rn && !lowestInList list rn) .stmBaseNotLowest)

/-- `STM Rn!, <loreglist>` (R227). -/
def execStm (rn : LoReg) (list : BitVec 8) (s : State) : Result :=
  sequential (stmChecks rn list)
    (fun s =>
      andThen (storeMultiple (s.listedValues list) (s.x (lo rn)) s)
        (fun t => .next (t.setX (lo rn) (s.x (lo rn) + words (bitCount list))))) s

end Sys2Proof.Machine
end

