-- ==== Sys2Proof/Machine/System.lean ====
section
/-! DEFINITION. Processor state change, NOP and hint instructions (49_processor_state_nop_hint.md R290 to R300), and UDF (R101). -/

namespace Sys2Proof.Machine

/-- `SVC <immed_8>` (R290): raises SupervisorCall when its condition passes. -/
def execSvc (imm8 : BitVec 8) (s : State) : Result :=
  branching 2 none (fun _ => raise (.supervisorCall imm8)) s

/-- The decode-time checks of CPSID and CPSIE (R291, R292). -/
def cpsChecks (a i f : Bool) (s : State) : Option Unpredictable :=
  (check s.inIT .cpsInIT).or (check (!a && !i && !f) .cpsNoFlag)

/-- Give the named mask bits a value, if privileged (R291, R292, R331). -/
def State.setMasks (s : State) (a i f value : Bool) : State :=
  if s.params.priv then
    { s with
      maskA := if a then value else s.maskA
      maskI := if i then value else s.maskI
      maskF := if f then value else s.maskF }
  else s

/-- `CPSID <iflags>` (R291). -/
def execCpsid (a i f : Bool) (s : State) : Result :=
  sequential (cpsChecks a i f s) (fun s => .next (s.setMasks a i f true)) s

/-- `CPSIE <iflags>` (R292). -/
def execCpsie (a i f : Bool) (s : State) : Result :=
  sequential (cpsChecks a i f s) (fun s => .next (s.setMasks a i f false)) s

/-- `SETEND <endianness>` (R293). -/
def execSetend (e : Endian) (s : State) : Result :=
  sequential (check s.inIT .setendInIT) (fun s => .next { s with e := e }) s

/-- `BKPT <immed_8>` (R294): raises Breakpoint, in an IT block too whatever the condition. -/
def execBkpt (imm8 : BitVec 8) (_s : State) : Result := raise (.breakpoint imm8)

/-- `NOP` (R295). -/
def execNop (s : State) : Result := sequential none (fun s => .next s) s

/-- `SEV` (R296): sets this processor's own EV on V7, NOP before. -/
def execSev (s : State) : Result :=
  sequential none (fun s => .next (if s.params.arch.hasV7 then { s with ev := true } else s)) s

/-- `WFE` (R297): on V7, consumes the event if EV is set and waits if not; NOP before. -/
def execWfe (s : State) : Result :=
  sequential none
    (fun s =>
      if s.params.arch.hasV7 then (if s.ev then .next { s with ev := false } else raise (.wait .wfe))
      else .next s) s

/-- `WFI` (R298): on V7, waits unless something that ends the wait is pending; NOP before. -/
def execWfi (s : State) : Result :=
  sequential none
    (fun s => if s.params.arch.hasV7 && !s.wakesWfi then raise (.wait .wfi) else .next s) s

/-- `YIELD` (R299): no effect on any version. -/
def execYield (s : State) : Result := sequential none (fun s => .next s) s

/-- The unallocated hints (R300): no effect. -/
def execHint (_number : BitVec 4) (s : State) : Result := sequential none (fun s => .next s) s

/-- The permanently undefined `0xDExx` (R101). -/
def execUdf (imm8 : BitVec 8) (_s : State) : Result := raise (.undefined (half (0xDE00 + imm8.toNat)))

end Sys2Proof.Machine
end

