-- ==== Sys2Proof/Machine/Cycle.lean ====
section
/-! DEFINITION. The step of R13: interrupts, fetch, decode, execution, and the environment's resumption; and placing an instruction where the next step fetches it. -/

namespace Sys2Proof.Machine

/-- The halfwords of steps 2 and 3 of R13, the second one 0 where the instruction has only one, and the state after the fetch. -/
def fetchInstr (s : State) : Except Fault (Half × Half × State) :=
  match fetchHalfword s.pc s with
  | .error f => .error f
  | .ok (hw1, t) =>
    if isWide hw1 then
      match fetchHalfword (s.pc + 2#32) t with
      | .error f => .error f
      | .ok (hw2, u) => .ok (hw1, hw2, u)
    else .ok (hw1, 0#16, t)

/-- Steps 5 to 10 of R13 for a decoded instruction, after which the next step has the next index; the outcomes that decoding raises in
step 4 (R97 to R101, R261). -/
def runDecoded (d : Decoded) (s : State) : Result :=
  match d with
  | .instr i => andThen (exec i s) (fun t => .next t.nextStep)
  | .undefined hw => raise (.undefined hw)
  | .undefinedPair hw1 hw2 => raise (.undefinedPair hw1 hw2)
  | .bxShouldBeZero => raiseUnpredictable .bxShouldBeZero
  | .unpairedHalf => raiseUnpredictable .unpairedHalf
  | .notOnCard hw1 hw2 => .refused (.notOnCard hw1 hw2)

/-- Steps 2 to 10 of R13. -/
def fetchAndRun (s : State) : Result :=
  match fetchInstr s with
  | .error f => raise f
  | .ok (hw1, hw2, t) => runDecoded (decode s.params.arch hw1 hw2) t

/-- One step of R13 to which `IrqOracle` answers `events`; step 1 is the event and the interrupt of R316.  No step enters ARM state; a
state given from outside that is in ARM state is refused (X7 "however entered", log 6).  DESIGN CHOICE (log 30): where an instruction
ends the step in `LeftThumbState`, the state carried keeps what the start of the step wrote, EV set by an event and `pending`. -/
def cycle (events : EventSet) (s : State) : Result :=
  match s.t with
  | .arm => leaveThumb s.pc s
  | .thumb =>
    match (s.beginStep events).interruptTaken with
    | some k => raise (.interrupt k)
    | none => fetchAndRun (s.beginStep events)

/-- One step under any `IrqOracle` and any `EnvResume` (R6, R12, R314, R316). -/
def stepUnder (irq : IrqOracle) (env : EnvResume) (s : State) : Result := resumeUnder env s (cycle (irq s.stepIndex) s)

/-- Both halfwords of a word numbered as spec/opcode_table.json numbers it, stored where `fetchInstr` reads them. -/
def State.placeWord (s : State) (nbits w : Nat) : State :=
  let be := s.params.ifetchBE
  let hws := tableHalves nbits w
  { s with mem := Memory.placeHalf be (s.pc + 2#32) hws.2 (Memory.placeHalf be s.pc hws.1 s.mem) }

end Sys2Proof.Machine
end

