-- ==== Sys2Proof/Machine/Step.lean ====
section
/-! DEFINITION. The machine's step, under the listed IrqOracle and the default environment, and the store that stands for loading a program. -/

namespace Sys2Proof.Machine

/-- One step (R13) under the `IrqOracle` that the parameters list, and the default environment of R6, which never resumes after a stop
(logs 8 and 9). -/
def step (s : State) : Result := stepUnder s.params.irqOracle neverResumes s

/-- `s` with an instruction, numbered as spec/opcode_table.json numbers it, at the address of the next fetch.  It stands for the
launcher's load of a program (R351, R352; log 5). -/
def State.withFetchWord (s : State) (nbits w : Nat) : State := s.placeWord nbits w

end Sys2Proof.Machine
end

