-- ==== Sys2Proof/Safety.lean ====
section
/-! DEFINITION. The words statements are written in: the invariant of the machine, and what an instruction leaves unchanged. -/

namespace Sys2Proof.Machine

/-! ## The invariant -/

/-- The values ITSTATE takes: 0 outside a block; in a block the terminating 1 is still among bits 3 to 0, and a base condition of AL has
no Else and no second letter pending (R33, R93, R250, R251). -/
def itLegal (it : BitVec 8) : Bool :=
  it == 0#8 ||
    ((it.truncate 4 : BitVec 4) != 0#4 &&
      (it.extractLsb' 5 3 != 7#3 || it == 0xE1#8 || it == 0xE2#8 || it == 0xE4#8 || it == 0xE8#8))

/-- What holds of every state a run reaches. -/
structure State.Inv (s : State) : Prop where
  /-- R24: `pc[0] = 0`. -/
  pcEven : s.pc.getLsbD 0 = false
  /-- R30: the machine executes only in Thumb state. -/
  thumb : s.t = .thumb
  /-- Memory is in its canonical form (log 4). -/
  memWf : Memory.wf s.mem
  /-- The fetched bytes are a set of addresses of the space, in rising order (R56). -/
  fetchedWf : s.fetched.Pairwise (· < ·) ∧ ∀ a ∈ s.fetched, a < 2 ^ 32
  /-- ITSTATE is legal (R33). -/
  itLegal : itLegal s.itstate = true
  /-- R11: without Thumb-2, ITSTATE is always zero. -/
  itAbsent : s.params.arch.hasT2 = false → s.itstate = 0#8
  /-- R31: before version 6, E is constant at `E_INIT`. -/
  eConstant : s.params.arch.has6 = false → s.e = s.params.eInit
  /-- R316: before version 6, A, I and F stay 1. -/
  masksConstant : s.params.arch.has6 = false → s.maskA = true ∧ s.maskI = true ∧ s.maskF = true

/-! ## Frames -/

/-- The result is a next state that satisfies `p`. -/
def Gives (o : Result) (p : State → Prop) : Prop := ∃ t, o = .next t ∧ p t

/-- Every general register but the listed ones reads as before (the PC is not among R0 to R14). -/
def SameRegs (s t : State) (except : List Reg) : Prop := ∀ r : Reg, r.val < 15 → r ∉ except → t.x r = s.x r

/-- Every byte of memory reads as before. -/
def SameMem (s t : State) : Prop := ∀ a : Nat, t.byteAt a = s.byteAt a

/-- Every byte outside the `n` bytes from `addr` upward (addresses modulo 2^32) reads as before. -/
def SameMemOutside (s t : State) (addr : Word) (n : Nat) : Prop :=
  ∀ a : Nat, (∀ i < n, a ≠ byteAddr addr i) → t.byteAt a = s.byteAt a

/-- The state outside registers, flags, pc, ITSTATE and memory bytes: T, E, the masks, EV, and the model's own fields. -/
structure SameControl (s t : State) : Prop where
  params : t.params = s.params
  thumb : t.t = s.t
  endian : t.e = s.e
  maskA : t.maskA = s.maskA
  maskI : t.maskI = s.maskI
  maskF : t.maskF = s.maskF
  event : t.ev = s.ev
  fetched : t.fetched = s.fetched
  stepIndex : t.stepIndex = s.stepIndex
  pending : t.pending = s.pending

/-- No access to `Device` memory was made and no free value was drawn. -/
def NoDevice (s t : State) : Prop := t.deviceTrace = s.deviceTrace ∧ t.draws = s.draws

/-- Sequential advance by `len` bytes, and the advance of an IT block (R13 steps 9 and 10). -/
def Advances (len : Nat) (s t : State) : Prop :=
  t.pc = s.pc + BitVec.ofNat 32 len ∧ t.itstate = if s.inIT then itAdvance s.itstate else s.itstate

/-- The instruction executes and its sequential successor is inside the address space: the hypotheses under which an instruction of
`len` bytes that does not write the PC completes (R13 step 5, R27). -/
def Runs (len : Nat) (s : State) : Prop := s.passed = true ∧ s.pc.toNat + len < 2 ^ 32

/-! ## Values and bytes of an access, as R52 and R53 write them -/

/-- The byte a read of `a` returns when `d` free values have been drawn before it (R62). -/
def byteRead (s : State) (d a : Nat) : Byte := if kindOf s.params a = .device then Config.deviceByte d a else s.byteAt a

/-- The value of R52: `b[n-1] : ... : b[0]` with E = 0, `b[0] : ... : b[n-1]` with E = 1, zero-extended. -/
def readValue (s : State) (d : Nat) (w : Width) (addr : Word) : Word :=
  let b : Nat → Byte := fun i => byteRead s d (byteAddr addr i)
  match w, s.e with
  | .byte, _ => (b 0).zeroExtend 32
  | .half, .little => (b 1 ++ b 0 : BitVec 16).zeroExtend 32
  | .half, .big => (b 0 ++ b 1 : BitVec 16).zeroExtend 32
  | .word, .little => (b 3 ++ b 2 ++ b 1 ++ b 0 : BitVec 32)
  | .word, .big => (b 0 ++ b 1 ++ b 2 ++ b 3 : BitVec 32)

/-- The byte R53 puts at `addr + i`: `v[8i+7 : 8i]` with E = 0, `v[8(n-1-i)+7 : 8(n-1-i)]` with E = 1. -/
def storedByte (s : State) (w : Width) (v : Word) (i : Nat) : Byte :=
  match s.e with
  | .little => v.extractLsb' (8 * i) 8
  | .big => v.extractLsb' (8 * (w.bytes - 1 - i)) 8

/-- No byte of an access is unmapped (R52). -/
def Readable (s : State) (addr : Word) (n : Nat) : Prop := ∀ i < n, kindOf s.params (byteAddr addr i) ≠ .unmapped

/-- The byte is code (R53, R69): it has been fetched as part of an instruction, or lies in the launch code image. -/
def IsCodeByte (s : State) (a : Nat) : Prop :=
  a ∈ s.fetched ∨ ∃ range ∈ s.params.codeImage, range.base ≤ a ∧ a < range.base + range.size

/-- Every byte of an access admits a store (R53): mapped, not read-only, and, with `CODE_RO`, not code. -/
def Storable (s : State) (addr : Word) (n : Nat) : Prop :=
  ∀ i < n, kindOf s.params (byteAddr addr i) ≠ .unmapped ∧ kindOf s.params (byteAddr addr i) ≠ .readOnly ∧
    (s.params.codeRO = true → ¬IsCodeByte s (byteAddr addr i))

/-- Of the word accesses 0 to `n - 1` from `base` upward, those that touch a device. -/
def deviceWords (s : State) (base : Word) (n : Nat) : List Nat :=
  (List.range n).filter (fun j => s.touchesDevice .word (base + words j))

/-- The device trace grew by `evs`, and one free value was drawn for each (R62, D6; log 11). -/
def Traces (s t : State) (evs : List DeviceEvent) : Prop :=
  t.deviceTrace = s.deviceTrace ++ evs ∧ t.draws = s.draws + evs.length

/-! ## Fetch, as R56 writes it, and what a step adds to an instruction -/

/-- The halfword a fetch at `addr` returns: `b0 : b1` with IFETCH_BE, `b1 : b0` without. -/
def halfAt (s : State) (addr : Word) : Half :=
  let b0 := byteRead s s.draws (byteAddr addr 0)
  let b1 := byteRead s s.draws (byteAddr addr 1)
  if s.params.ifetchBE then b0 ++ b1 else b1 ++ b0

/-- The state after a fetch at `addr`: the two bytes are marked, and an access to a device is traced. -/
def fetchedFrom (s : State) (addr : Word) : State :=
  { s with
    fetched := markByte (byteAddr addr 0) (markByte (byteAddr addr 1) s.fetched)
    deviceTrace := s.deviceTrace ++ (if s.touchesDevice .half addr then [.read addr 2] else [])
    draws := s.draws + (if s.touchesDevice .half addr then 1 else 0) }

/-- The end of a step: a next state has the next step index (R316, log 9). -/
def endOfStep : Result → Result
  | .next t => .next { t with stepIndex := t.stepIndex + 1 }
  | .fault f => .fault f
  | .refused r => .refused r

/-! ## Shapes of a completed instruction -/

/-- The flags outside an IT block; in one they stay (R253). -/
def outsideBlock (s : State) (f : Flags) : Flags := if s.inIT then s.flags else f

/-- The instruction completes having written register `d` with `v` and the flags with `f`, and advanced; nothing else has changed. -/
def WritesRegister (s : State) (d : Reg) (v : Word) (f : Flags) (o : Result) : Prop :=
  Gives o fun t => t.x d = v ∧ t.flags = f ∧ SameRegs s t [d] ∧ SameMem s t ∧ SameControl s t ∧ NoDevice s t ∧ Advances 2 s t

/-- The instruction completes having written the flags with `f`, and advanced; nothing else has changed. -/
def WritesFlags (s : State) (f : Flags) (o : Result) : Prop :=
  Gives o fun t => t.flags = f ∧ SameRegs s t [] ∧ SameMem s t ∧ SameControl s t ∧ NoDevice s t ∧ Advances 2 s t

/-- An aligned load from mapped bytes completes having written `rt` with the extended value, and advanced; nothing else has changed but
the device trace and the draws, and those only where a byte is `Device`. -/
def Loads (s : State) (w : Width) (addr : Word) (rt : LoReg) (ext : Word → Word) (o : Result) : Prop :=
  addr.toNat % w.bytes = 0 → Readable s addr w.bytes →
    Gives o fun t => t.x (lo rt) = ext (readValue s s.draws w addr) ∧ t.flags = s.flags ∧ SameRegs s t [lo rt] ∧ SameMem s t ∧
      SameControl s t ∧ Traces s t (if s.touchesDevice w addr then [.read addr w.bytes] else []) ∧ Advances 2 s t

/-- An aligned store to bytes that admit it completes having written those of them that are not `Device`, and advanced; no other byte, no
register and no flag has changed. -/
def Stores (s : State) (w : Width) (addr v : Word) (o : Result) : Prop :=
  addr.toNat % w.bytes = 0 → Storable s addr w.bytes →
    Gives o fun t =>
      (∀ i < w.bytes, kindOf s.params (byteAddr addr i) ≠ .device → t.byteAt (byteAddr addr i) = storedByte s w v i) ∧
      (∀ a, kindOf s.params a = .device → t.byteAt a = s.byteAt a) ∧ SameMemOutside s t addr w.bytes ∧ t.flags = s.flags ∧
      SameRegs s t [] ∧ SameControl s t ∧ Traces s t (if s.touchesDevice w addr then [.write addr w.bytes v] else []) ∧
      Advances 2 s t

/-- `t` holds the words `vs` from `base` upward, and every other byte as `s` does. -/
def HoldsWords (s : State) (base : Word) (vs : List Word) (t : State) : Prop :=
  (∀ (j : Nat) (h : j < vs.length), ∀ i < 4, kindOf s.params (byteAddr (base + words j) i) ≠ .device →
    t.byteAt (byteAddr (base + words j) i) = storedByte s .word vs[j] i) ∧
  (∀ a, kindOf s.params a = .device → t.byteAt a = s.byteAt a) ∧ SameMemOutside s t base (4 * vs.length)

/-- The registers `rs` of `t` hold the words from `base` upward, the first register the lowest word. -/
def HoldsLoaded (s : State) (base : Word) (rs : List LoReg) (t : State) : Prop :=
  ∀ (j : Nat) (h : j < rs.length),
    t.x (lo rs[j]) = readValue s (s.draws + (deviceWords s base j).length) .word (base + words j)

/-- LR holds `link` where one is given, and no other register has changed. -/
def Links (s t : State) : Option Word → Prop
  | none => SameRegs s t []
  | some v => t.x LR = v ∧ SameRegs s t [LR]

/-- The instruction completes at `target`, in the same instruction-set state, having changed LR to `link` where one is given, and ITSTATE
advanced. -/
def BranchesTo (s : State) (target : Word) (link : Option Word) (o : Result) : Prop :=
  Gives o fun t => t.pc = target ∧ t.itstate = (if s.inIT then itAdvance s.itstate else s.itstate) ∧ Links s t link ∧
    t.flags = s.flags ∧ SameMem s t ∧ SameControl s t ∧ NoDevice s t

/-- The instruction's outcome is `LeftThumbState(target)` (R26, R311), and the state it carries satisfies `p`. -/
def LeavesThumb (target : Word) (o : Result) (p : State → Prop) : Prop := ∃ t, o = .refused (.leftThumbState target t) ∧ p t

/-- The instruction leaves Thumb state for `target`, having changed LR to `link` where one is given, and nothing else (log 6: the pc is
still the instruction's; log 7: ITSTATE has not advanced). -/
def ExchangesTo (s : State) (target : Word) (link : Option Word) (o : Result) : Prop :=
  LeavesThumb target o fun t => Links s t link ∧ t.pc = s.pc ∧ t.itstate = s.itstate ∧ t.flags = s.flags ∧ SameMem s t ∧
    SameControl s t ∧ NoDevice s t

end Sys2Proof.Machine
end

