-- ==== Sys2Proof/Certificates/Slice0/Obligations.lean ====
section
/-! DEFINITION. The statements for the provers. -/

open Sys2Proof Sys2Proof.Machine

/-! ## Encoding and decoding -/

/-- Decoding the encoding of a well-formed instruction that the version has gives it back (R82 to R96, R97). -/
def Obligations.DecodeEncodeRoundTrip : Prop :=
  ∀ (arch : Arch) (i : Instr), i.wf = true → i.availableAt arch = true → decodeWords arch (encode i) = some (.instr i)

/-- Whatever the decoder reads is well formed, is of the version, and encodes to the halfwords it was read from: each word has one
meaning and no bit of it is dropped (R96). -/
def Obligations.EncodeInvertsDecode : Prop :=
  ∀ (arch : Arch) (hw1 hw2 : Half) (i : Instr), decode arch hw1 hw2 = .instr i →
    i.wf = true ∧ i.availableAt arch = true ∧ encode i = if isWide hw1 then [hw1, hw2] else [hw1]

/-- R81: which first halfwords begin a 32-bit instruction, and that of those only BL and BLX `<label>` are decoded; a 16-bit instruction
is decoded from its own halfword. -/
def Obligations.WideFirstHalves : Prop :=
  (∀ hw : Half, isWide hw = true ↔
    hw.extractLsb' 11 5 = 0b11101#5 ∨ hw.extractLsb' 11 5 = 0b11110#5 ∨ hw.extractLsb' 11 5 = 0b11111#5) ∧
  (∀ (arch : Arch) (hw1 hw2 : Half) (i : Instr), isWide hw1 = true → decode arch hw1 hw2 = .instr i →
    hw1.extractLsb' 11 5 = 0b11110#5 ∧ hw2.extractLsb' 14 2 = 0b11#2 ∧
      ((hw2.getLsbD 12 = true ∧ ∃ offset, i = .bl offset) ∨ (hw2.getLsbD 12 = false ∧ ∃ offset, i = .blxLabel offset))) ∧
  (∀ (arch : Arch) (hw1 hw2 hw2' : Half), isWide hw1 = false → decode arch hw1 hw2 = decode arch hw1 hw2')

/-- Words written out in the examples of R120 to R294 decode to the instructions they stand for. -/
def Obligations.SampleWordsDecode : Prop :=
  decode .v7 0x2001 0 = .instr (.movsImm 0 1) ∧ decode .v7 0x0004 0 = .instr (.movsReg 4 0) ∧
  decode .v7 0x46F7 0 = .instr (.movHi 15 14) ∧ decode .v7 0x18C0 0 = .instr (.addsReg 0 0 3) ∧
  decode .v7 0x4440 0 = .instr (.addHi 0 8) ∧ decode .v7 0xB082 0 = .instr (.subSp 2) ∧
  decode .v7 0x4360 0 = .instr (.muls 0 4) ∧ decode .v7 0x4580 0 = .instr (.cmpHi 8 0) ∧
  decode .v7 0x43C8 0 = .instr (.mvns 0 1) ∧ decode .v7 0x0108 0 = .instr (.lslsImm 0 1 4) ∧
  decode .v7 0x6848 0 = .instr (.ldrImm 0 1 1) ∧ decode .v7 0x54CC 0 = .instr (.strbReg 4 1 3) ∧
  decode .v7 0xC80E 0 = .instr (.ldm 0 0x0E) ∧ decode .v7 0xB510 0 = .instr (.push true 0x10) ∧
  decode .v7 0xBD10 0 = .instr (.pop true 0x10) ∧ decode .v7 0xBF06 0 = .instr (.it 0 6) ∧
  decode .v7 0xD1FA 0 = .instr (.bCond 1 0xFA) ∧ decode .v7 0xBBF9 0 = .instr (.cbnz 1 0x3F) ∧
  decode .v7 0xF000 0xF801 = .instr (.bl 1) ∧ decode .v7 0xF000 0xE800 = .instr (.blxLabel 0) ∧
  decode .v7 0x4798 0 = .instr (.blxReg 3) ∧ decode .v7 0xBA2E 0 = .instr (.rev 6 5) ∧
  decode .v7 0xB677 0 = .instr (.cpsid true true true) ∧ decode .v7 0xDFFF 0 = .instr (.svc 0xFF)

/-- R98: with every row available, the halfwords that match no row, and what running each of them raises. -/
def Obligations.UnallocatedHalfwords : Prop :=
  ∀ hw hw2 : Half,
    let n := hw.toNat
    let unallocated :=
      (0xB600 ≤ n ∧ n ≤ 0xB64F) ∨ (0xB651 ≤ n ∧ n ≤ 0xB657) ∨ (0xB659 ≤ n ∧ n ≤ 0xB65F) ∨ (0xB668 ≤ n ∧ n ≤ 0xB66F) ∨
        (0xB678 ≤ n ∧ n ≤ 0xB8FF) ∨ (0xBA80 ≤ n ∧ n ≤ 0xBABF)
    let bxBits := 0x4700 ≤ n ∧ n ≤ 0x47FF ∧ n % 8 ≠ 0
    (isWide hw = false → ((∀ i, decode .v7 hw hw2 ≠ .instr i) ↔ unallocated ∨ bxBits)) ∧
    (∀ s : State, unallocated → runDecoded (decode .v7 hw hw2) s = .fault (.undefined hw)) ∧
    (∀ s : State, bxBits → runDecoded (decode .v7 hw hw2) s = .fault (.unpredictable .bxShouldBeZero))

/-- R97, R100: a 16-bit row is decoded exactly from its version on and its halfword is Undefined before.  The version of every row: one
with an empty tag is available in every version (R2, R97), the tagged ones from their tag's version on; a BL with J1 = J2 = 1 in every
version and any other from Thumb-2 on, BLX `<label>` likewise, but from 5T on only (R90, R259, R261). -/
def Obligations.RowsExistFromTheirVersion : Prop :=
  (∀ (arch : Arch) (i : Instr) (hw hw2 : Half), i.wf = true → encode i = [hw] →
    decode arch hw hw2 = if i.availableAt arch then .instr i else .undefined hw) ∧
  (∀ (arch : Arch) (i : Instr), (match i with
      | .blxReg _ | .bkpt _ => True
      | _ => False) → (i.availableAt arch = true ↔ arch.has5T = true)) ∧
  (∀ (arch : Arch) (i : Instr), (match i with
      | .sxth _ _ | .sxtb _ _ | .uxth _ _ | .uxtb _ _ | .rev _ _ | .rev16 _ _ | .revsh _ _ | .cpsie _ _ _ | .cpsid _ _ _
      | .setend _ => True
      | _ => False) → (i.availableAt arch = true ↔ arch.has6 = true)) ∧
  (∀ (arch : Arch) (i : Instr), (match i with
      | .it _ _ | .cbz _ _ | .cbnz _ _ | .nop | .sev | .wfe | .wfi | .yield | .hint _ => True
      | _ => False) → (i.availableAt arch = true ↔ arch.hasT2 = true)) ∧
  (∀ (arch : Arch) (i : Instr), (match i with
      | .blxReg _ | .bkpt _ | .sxth _ _ | .sxtb _ _ | .uxth _ _ | .uxtb _ _ | .rev _ _ | .rev16 _ _ | .revsh _ _ | .cpsie _ _ _
      | .cpsid _ _ _ | .setend _ | .it _ _ | .cbz _ _ | .cbnz _ _ | .nop | .sev | .wfe | .wfi | .yield | .hint _ | .bl _
      | .blxLabel _ => False
      | _ => True) → i.availableAt arch = true) ∧
  (∀ (arch : Arch) (offset : BitVec 24) (hw1 hw2 : Half), encode (.bl offset) = [hw1, hw2] →
    let near := hw2.getLsbD 13 = true ∧ hw2.getLsbD 11 = true
    (Instr.availableAt arch (.bl offset) = true ↔ arch.hasT2 = true ∨ near)) ∧
  (∀ (arch : Arch) (offset : BitVec 23) (hw1 hw2 : Half), encode (.blxLabel offset) = [hw1, hw2] →
    let near := hw2.getLsbD 13 = true ∧ hw2.getLsbD 11 = true
    (Instr.availableAt arch (.blxLabel offset) = true ↔ arch.has5T = true ∧ (arch.hasT2 = true ∨ near)))

/-- R99: a first half whose pair is not BL or BLX `<label>` by the opcode map (R96) is refused from Thumb-2 on and Unpredictable before;
and the pairs of the BL format that a version does not have (R259, R261). -/
def Obligations.WideSpaceRefused : Prop :=
  ∀ (arch : Arch) (hw1 hw2 : Half) (s : State), isWide hw1 = true →
    let o := runDecoded (decode arch hw1 hw2) s
    let pair := hw1.extractLsb' 11 5 = 0b11110#5 ∧ hw2.extractLsb' 14 2 = 0b11#2
    let far := ¬(hw2.getLsbD 13 = true ∧ hw2.getLsbD 11 = true)
    (¬pair → o = if arch.hasT2 then .refused (.notOnCard hw1 hw2) else .fault (.unpredictable .unpairedHalf)) ∧
    (pair → hw2.getLsbD 12 = true → arch.hasT2 = false → far → o = .fault (.unpredictable .unpairedHalf)) ∧
    (pair → hw2.getLsbD 12 = false → arch.has5T = false → o = .fault (.unpredictable .unpairedHalf)) ∧
    (pair → hw2.getLsbD 12 = false → arch.has5T = true → hw2.getLsbD 0 = true → o = .fault (.undefinedPair hw1 hw2)) ∧
    (pair → hw2.getLsbD 12 = false → arch.has5T = true → hw2.getLsbD 0 = false → arch.hasT2 = false → far →
      o = .fault (.unpredictable .unpairedHalf))

/-! ## The step -/

/-- R13: a step at a pc whose bytes decode to `i` runs `i` on the state after the fetch, and the next step has the next index; so does a
step under any `IrqOracle`.  For a fetch from Device memory, on which the spec is silent, it is the model's choice (log 11) that the bytes
are free values and that each halfword makes one trace entry and one draw; the counter of steps is the model's own (log 9). -/
def Obligations.StepRunsDecodedInstruction : Prop :=
  ∀ (s : State) (i : Instr), s.t = .thumb → s.pc.getLsbD 0 = false → Readable s s.pc 2 →
    let runs (irq : IrqOracle) (o : Result) : Prop :=
      let begun := s.beginStep (irq s.stepIndex)
      let u := fetchedFrom begun s.pc
      let hw1 := halfAt s s.pc
      let hw2 := halfAt u (s.pc + 2#32)
      begun.interruptTaken = none →
        (isWide hw1 = false → decode s.params.arch hw1 0#16 = .instr i → o = endOfStep (exec i u)) ∧
        (isWide hw1 = true → Readable s (s.pc + 2#32) 2 → decode s.params.arch hw1 hw2 = .instr i →
          o = endOfStep (exec i (fetchedFrom u (s.pc + 2#32))))
    runs s.params.irqOracle (step s) ∧ ∀ irq : IrqOracle, runs irq (stepUnder irq neverResumes s)

/-- R316: with `IrqOracle(k)` pending, k the index of the step, at the start of a step an event sets EV on V7, and the first pending event
that is not masked is taken; under any `IrqOracle`, and under the one `step` takes, which the parameters list and which is empty beyond
the list (log 9). -/
def Obligations.StepDeliversInterrupts : Prop :=
  ∀ s : State, s.t = .thumb →
    let starts (pending : EventSet) (o : Result) : Prop := o =
      if pending.debugRequest = true then .fault (.interrupt .debugRequest)
      else if pending.impreciseAbort = true ∧ s.maskA = false then .fault (.interrupt .impreciseAbort)
      else if pending.fiq = true ∧ s.maskF = false then .fault (.interrupt .fiq)
      else if pending.irq = true ∧ s.maskI = false then .fault (.interrupt .irq)
      else fetchAndRun
        { s with pending := pending, ev := if s.params.arch = .v7 ∧ pending.event = true then true else s.ev }
    starts (s.params.irqSchedule.getD s.stepIndex ⟨false, false, false, false, false⟩) (step s) ∧
      ∀ irq : IrqOracle, starts (irq s.stepIndex) (stepUnder irq neverResumes s)

/-- The model's choice (log 6): a state that is in ARM state, which only the environment can give, is refused with its own pc. -/
def Obligations.ArmStateIsRefused : Prop :=
  ∀ (s : State) (irq : IrqOracle), s.t = .arm →
    step s = .refused (.leftThumbState s.pc s) ∧ stepUnder irq neverResumes s = .refused (.leftThumbState s.pc s)

/-- R56: what `FetchHalfword` does.  For Device memory, on which R56 is silent, the value (free bytes) and the state after it (one trace
entry, one draw) are the model's choice (log 11). -/
def Obligations.FetchHalfwordCases : Prop :=
  ∀ (s : State) (addr : Word),
    (addr.getLsbD 0 = true → fetchHalfword addr s = .error (.unpredictable .pcOdd)) ∧
    (addr.getLsbD 0 = false → ¬Readable s addr 2 → fetchHalfword addr s = .error (.prefetchAbort addr)) ∧
    (addr.getLsbD 0 = false → Readable s addr 2 → fetchHalfword addr s = .ok (halfAt s addr, fetchedFrom s addr)) ∧
    (∀ e : Endian, halfAt { s with e := e } addr = halfAt s addr)

/-- Every step keeps the invariant, whatever `IrqOracle` is (R24, R30, R33, R11, R31, R316, R50). -/
def Obligations.StepKeepsInvariant : Prop :=
  ∀ s t : State, s.Inv → (step s = .next t ∨ ∃ irq : IrqOracle, stepUnder irq neverResumes s = .next t) → t.Inv

/-- The reset state satisfies the invariant. -/
def Obligations.ResetSatisfiesInvariant : Prop := State.reset.Inv

/-- R39: no step changes the parameters.  That every step a run goes on from, completed or resumed by the environment, counts as one step
index k of `IrqOracle(k)` (R316) is the model's choice (log 9), and so is that a resumed run keeps them (log 8). -/
def Obligations.StepKeepsParameters : Prop :=
  ∀ s t : State, (step s = .next t ∨ ∃ (irq : IrqOracle) (env : EnvResume), stepUnder irq env s = .next t) →
    t.params = s.params ∧ t.stepIndex = s.stepIndex + 1

/-- R30: an instruction that completes never changes T; the only refusal of an instruction is to leave Thumb state, and only BX, BLX and
POP with the PC do so, for an address with bit 0 clear.  R31, R32, R34: the only instructions that change E, the masks and EV. -/
def Obligations.ControlStateWriters : Prop :=
  (∀ (i : Instr) (s : State) (r : Refusal), exec i s = .refused r → (∃ target carried, r = .leftThumbState target carried ∧
    target.getLsbD 0 = false) ∧ ((∃ rm, i = .bx rm) ∨ (∃ rm, i = .blxReg rm) ∨ (∃ offset, i = .blxLabel offset) ∨
      ((∃ list, i = .pop true list) ∧ s.params.arch.has5T = true))) ∧
  ∀ (i : Instr) (s t : State), exec i s = .next t → t.t = s.t ∧
    (t.e ≠ s.e → i = .setend t.e) ∧
    (t.maskA ≠ s.maskA ∨ t.maskI ≠ s.maskI ∨ t.maskF ≠ s.maskF →
      s.params.priv = true ∧ ((∃ a m f, i = .cpsid a m f) ∨ ∃ a m f, i = .cpsie a m f)) ∧
    (t.ev ≠ s.ev → s.params.arch = .v7 ∧ (i = .wfe ∨ i = .sev))

/-- R331: what an instruction other than CPSID and CPSIE does is the same whatever `PRIV` is. -/
def Obligations.PrivilegeOnlyAffectsCps : Prop :=
  ∀ (i : Instr) (s : State) (b : Bool), (∀ a m f, i ≠ .cpsid a m f ∧ i ≠ .cpsie a m f) →
    exec i { s with params := { s.params with priv := b } } =
      match exec i s with
      | .next t => .next { t with params := { t.params with priv := b } }
      | .fault r => .fault r
      | .refused (.leftThumbState target t) => .refused (.leftThumbState target { t with params := { t.params with priv := b } })
      | .refused r => .refused r

/-- R29: which instructions may change a flag, and which of them may change C or V. -/
def Obligations.FlagWriters : Prop :=
  ∀ (i : Instr) (s t : State), exec i s = .next t →
    (t.flags ≠ s.flags → match i with
      | .movsImm _ _ | .movsReg _ _ | .addsImm3 _ _ _ | .addsReg _ _ _ | .addsImm8 _ _ | .adcs _ _ | .subsReg _ _ _
      | .subsImm3 _ _ _ | .subsImm8 _ _ | .sbcs _ _ | .rsbs _ _ | .cmpLo _ _ | .cmpHi _ _ | .cmpImm _ _ | .cmn _ _
      | .muls _ _ | .ands _ _ | .eors _ _ | .orrs _ _ | .bics _ _ | .mvns _ _ | .tst _ _ | .lslsImm _ _ _ | .lsrsImm _ _ _
      | .asrsImm _ _ _ | .lslsReg _ _ | .lsrsReg _ _ | .asrsReg _ _ | .rorsReg _ _ => True
      | _ => False) ∧
    (t.flags.c ≠ s.flags.c → match i with
      | .addsImm3 _ _ _ | .addsReg _ _ _ | .addsImm8 _ _ | .adcs _ _ | .subsReg _ _ _ | .subsImm3 _ _ _ | .subsImm8 _ _
      | .sbcs _ _ | .rsbs _ _ | .cmpLo _ _ | .cmpHi _ _ | .cmpImm _ _ | .cmn _ _ | .lslsImm _ _ _ | .lsrsImm _ _ _
      | .asrsImm _ _ _ | .lslsReg _ _ | .lsrsReg _ _ | .asrsReg _ _ | .rorsReg _ _ => True
      | .muls _ _ => s.params.arch = .v4T
      | _ => False) ∧
    (t.flags.v ≠ s.flags.v → match i with
      | .addsImm3 _ _ _ | .addsReg _ _ _ | .addsImm8 _ _ | .adcs _ _ | .subsReg _ _ _ | .subsImm3 _ _ _ | .subsImm8 _ _
      | .sbcs _ _ | .rsbs _ _ | .cmpLo _ _ | .cmpHi _ _ | .cmpImm _ _ | .cmn _ _ => True
      | .muls _ _ => s.params.arch = .v4T
      | _ => False) ∧
    (s.inIT = true → t.flags ≠ s.flags → match i with
      | .cmpLo _ _ | .cmpHi _ _ | .cmpImm _ _ | .cmn _ _ | .tst _ _ => True
      | _ => False)

/-- R59: only the stores, STM and PUSH change a byte of memory. -/
def Obligations.MemoryWriters : Prop :=
  ∀ (i : Instr) (s t : State) (a : Nat), exec i s = .next t → t.byteAt a ≠ s.byteAt a → match i with
    | .strImm _ _ _ | .strReg _ _ _ | .strSp _ _ | .strhImm _ _ _ | .strhReg _ _ _ | .strbImm _ _ _ | .strbReg _ _ _ | .stm _ _
    | .push _ _ => True
    | _ => False

/-- R13: an instruction whose condition fails, where it completes, has done nothing but advance; and in the last place of a block each
instruction without a decode-time check (R254) does complete so. -/
def Obligations.FailedConditionSkips : Prop :=
  (∀ (i : Instr) (s t : State), exec i s = .next t → s.passed = false →
    t = { s with pc := s.pc + BitVec.ofNat 32 i.len, itstate := itAdvance s.itstate }) ∧
  (∀ (i : Instr) (s : State), s.passed = false → s.pc.toNat + i.len < 2 ^ 32 → s.lastInIT = true →
    (match i with
      | .movsReg _ _ | .cbz _ _ | .cbnz _ _ | .it _ _ | .bCond _ _ | .cpsid _ _ _ | .cpsie _ _ _ | .setend _ | .bkpt _ | .udf _
      | .movHi _ _ | .addHi _ _ | .cmpHi _ _ | .muls _ _ | .ldm _ _ | .stm _ _ | .push _ _ | .pop _ _ | .bx _ | .blxReg _ => False
      | _ => True) →
    exec i s = .next { s with pc := s.pc + BitVec.ofNat 32 i.len, itstate := itAdvance s.itstate })

/-- R351, R6: the launch state, for every value of what the spec leaves unspecified; `ENTRY` is even. -/
def Obligations.LaunchStateValues : Prop :=
  ∀ (p : Params) (regs : Vector Word 15) (flags : Flags) (ev : Bool) (mem : Memory),
    let s := State.launch p regs flags ev mem
    s.params = p ∧ s.pc = p.entry ∧ s.pc.getLsbD 0 = false ∧ s.t = .thumb ∧ s.e = p.eInit ∧ s.maskA = true ∧ s.maskI = true ∧ s.maskF = true ∧
      s.itstate = 0#8 ∧ s.regs = regs ∧ s.flags = flags ∧ s.ev = ev ∧ s.mem = mem

/-! ## Arithmetic, shifts, conditions -/

/-- R9: `AddWithCarry`, and that a subtraction's carry means no borrow. -/
def Obligations.AddWithCarryExact : Prop :=
  (∀ (x y : Word) (cin : Bool),
    let r := addWithCarry x y cin
    r.result.toNat = (x.toNat + y.toNat + cin.toNat) % 2 ^ 32 ∧
    (r.carry = true ↔ 2 ^ 32 ≤ x.toNat + y.toNat + cin.toNat) ∧
    (r.overflow = true ↔ r.result.toInt ≠ x.toInt + y.toInt + (cin.toNat : Int))) ∧
  (∀ x y : Word, (addWithCarry x y false).result = x + y ∧ (subWithCarry x y true).result = x - y ∧
    ((subWithCarry x y true).carry = true ↔ y.toNat ≤ x.toNat)) ∧
  (∀ (x y : Word) (c : Bool), (subWithCarry x y c).result = x - y - (if c then 0#32 else 1#32))

/-- R252: the table of conditions, and what the conditions say after `CMP Rn, Rm` (R160) of the values `x` and `y`. -/
def Obligations.ConditionTable : Prop :=
  (∀ f : Flags,
    (conditionHolds 0#4 f = true ↔ f.z = true) ∧ (conditionHolds 1#4 f = true ↔ f.z = false) ∧
    (conditionHolds 2#4 f = true ↔ f.c = true) ∧ (conditionHolds 3#4 f = true ↔ f.c = false) ∧
    (conditionHolds 4#4 f = true ↔ f.n = true) ∧ (conditionHolds 5#4 f = true ↔ f.n = false) ∧
    (conditionHolds 6#4 f = true ↔ f.v = true) ∧ (conditionHolds 7#4 f = true ↔ f.v = false) ∧
    (conditionHolds 8#4 f = true ↔ f.c = true ∧ f.z = false) ∧ (conditionHolds 9#4 f = true ↔ f.c = false ∨ f.z = true) ∧
    (conditionHolds 10#4 f = true ↔ f.n = f.v) ∧ (conditionHolds 11#4 f = true ↔ f.n ≠ f.v) ∧
    (conditionHolds 12#4 f = true ↔ f.z = false ∧ f.n = f.v) ∧ (conditionHolds 13#4 f = true ↔ f.z = true ∨ f.n ≠ f.v) ∧
    conditionHolds 14#4 f = true ∧ conditionHolds 15#4 f = true) ∧
  (∀ x y : Word,
    let f := Flags.ofSum (subWithCarry x y true)
    (conditionHolds 0#4 f = true ↔ x = y) ∧ (conditionHolds 1#4 f = true ↔ x ≠ y) ∧
    (conditionHolds 2#4 f = true ↔ y.toNat ≤ x.toNat) ∧ (conditionHolds 3#4 f = true ↔ x.toNat < y.toNat) ∧
    (conditionHolds 8#4 f = true ↔ y.toNat < x.toNat) ∧ (conditionHolds 9#4 f = true ↔ x.toNat ≤ y.toNat) ∧
    (conditionHolds 10#4 f = true ↔ y.toInt ≤ x.toInt) ∧ (conditionHolds 11#4 f = true ↔ x.toInt < y.toInt) ∧
    (conditionHolds 12#4 f = true ↔ y.toInt < x.toInt) ∧ (conditionHolds 13#4 f = true ↔ x.toInt ≤ y.toInt))

/-- R10: the shift primitives, for every amount of at least 1. -/
def Obligations.ShiftPrimitivesExact : Prop :=
  ∀ (x : Word) (n : Nat), 1 ≤ n →
    ((lslC x n).result.toNat = x.toNat * 2 ^ n % 2 ^ 32 ∧
      (lslC x n).carry = if n ≤ 32 then x.getLsbD (32 - n) else false) ∧
    ((lsrC x n).result.toNat = x.toNat / 2 ^ n ∧ (lsrC x n).carry = if n ≤ 32 then x.getLsbD (n - 1) else false) ∧
    ((asrC x n).result.toInt = x.toInt / 2 ^ n ∧
      (asrC x n).carry = if n ≤ 32 then x.getLsbD (n - 1) else x.getLsbD 31) ∧
    ((∀ k < 32, (rorC x n).result.getLsbD k = x.getLsbD ((k + n % 32) % 32)) ∧
      (rorC x n).carry = (rorC x n).result.getLsbD 31)

/-- R250, R251, R93: after IT with `firstcond` and `mask`, the `k`-th following instruction (from 0) is in the block exactly when a bit of
the mask lies below the `k` bits already used, and its condition is `firstcond` with bit 0 replaced by the mask's bit for it. -/
def Obligations.ItBlockConditions : Prop :=
  ∀ (firstcond mask : BitVec 4) (k : Nat), mask ≠ 0#4 → k ≤ 4 →
    let it := Nat.iterate itAdvance k (firstcond ++ mask)
    (inBlock it = true ↔ mask.toNat % 2 ^ (4 - k) ≠ 0) ∧
    (inBlock it = true → blockCond it = firstcond.extractLsb' 1 3 ++
      (if k = 0 then firstcond.extractLsb' 0 1 else mask.extractLsb' (4 - k) 1)) ∧
    (inBlock it = false → it = 0#8)

/-! ## Memory -/

/-- R52: `MemRead`.  For `Device` memory it is the model's choice (log 11) that an access makes one trace entry and one draw, that the
other bytes of a mixed access read as memory, and that a read changes no memory. -/
def Obligations.MemReadCases : Prop :=
  ∀ (w : Width) (addr : Word) (s : State),
    (addr.toNat % w.bytes ≠ 0 → memRead w addr s = .error (.alignmentFault addr)) ∧
    (addr.toNat % w.bytes = 0 → ¬Readable s addr w.bytes → memRead w addr s = .error (.dataAbort addr)) ∧
    (addr.toNat % w.bytes = 0 → Readable s addr w.bytes →
      ∃ t, memRead w addr s = .ok (readValue s s.draws w addr, t) ∧
        Traces s t (if s.touchesDevice w addr then [.read addr w.bytes] else []) ∧ t.mem = s.mem ∧ t.regs = s.regs ∧
        t.flags = s.flags ∧ t.pc = s.pc ∧ t.itstate = s.itstate ∧ SameControl s t)

/-- R53, R69: `MemWrite`, and which bytes admit no store: unmapped ones, read-only ones, and with `CODE_RO` those that have been fetched
or lie in the launch code image.  For `Device` memory it is the model's choice (log 11) that an access makes one trace entry and one draw,
and that the other bytes of a mixed access are written as memory. -/
def Obligations.MemWriteCases : Prop :=
  ∀ (w : Width) (addr v : Word) (s : State),
    (addr.toNat % w.bytes ≠ 0 → memWrite w addr v s = .error (.alignmentFault addr)) ∧
    (addr.toNat % w.bytes = 0 → ¬Storable s addr w.bytes → memWrite w addr v s = .error (.dataAbort addr)) ∧
    (addr.toNat % w.bytes = 0 → Storable s addr w.bytes →
      ∃ t, memWrite w addr v s = .ok t ∧
        (∀ i < w.bytes, kindOf s.params (byteAddr addr i) ≠ .device → t.byteAt (byteAddr addr i) = storedByte s w v i) ∧
        (∀ a, kindOf s.params a = .device → t.byteAt a = s.byteAt a) ∧ SameMemOutside s t addr w.bytes ∧
        Traces s t (if s.touchesDevice w addr then [.write addr w.bytes v] else []) ∧ t.regs = s.regs ∧ t.flags = s.flags ∧
        t.pc = s.pc ∧ t.itstate = s.itstate ∧ SameControl s t)

/-- R66: a word, halfword or byte read back from `Normal` memory under the same E is what was written. -/
def Obligations.StoreThenLoadReturnsValue : Prop :=
  ∀ (w : Width) (addr v : Word) (s t : State), memWrite w addr v s = .ok t →
    (∀ i < w.bytes, kindOf s.params (byteAddr addr i) = .normal) →
    memRead w addr t = .ok (match w with
      | .byte => (v.extractLsb' 0 8).zeroExtend 32
      | .half => (v.extractLsb' 0 16).zeroExtend 32
      | .word => v, t)

/-- R55: any word `b3 : b2 : b1 : b0` stored in `Normal` memory under either setting of E lies there byte by byte, and is read back under
either setting, whole and by both halves, as the bytes say. -/
def Obligations.MixedEndianAccess : Prop :=
  ∀ (addr : Word) (b3 b2 b1 b0 : Byte) (s t : State), (∀ i < 4, kindOf s.params (byteAddr addr i) = .normal) →
    memWrite .word addr (b3 ++ b2 ++ b1 ++ b0 : BitVec 32) s = .ok t →
    let holds (c0 c1 c2 c3 : Byte) : Prop :=
      let little : State := { t with e := .little }
      let big : State := { t with e := .big }
      t.byteAt (byteAddr addr 0) = c0 ∧ t.byteAt (byteAddr addr 1) = c1 ∧ t.byteAt (byteAddr addr 2) = c2 ∧
      t.byteAt (byteAddr addr 3) = c3 ∧
      memRead .word addr little = .ok ((c3 ++ c2 ++ c1 ++ c0 : BitVec 32), little) ∧
      memRead .word addr big = .ok ((c0 ++ c1 ++ c2 ++ c3 : BitVec 32), big) ∧
      memRead .half addr little = .ok ((c1 ++ c0 : BitVec 16).zeroExtend 32, little) ∧
      memRead .half addr big = .ok ((c0 ++ c1 : BitVec 16).zeroExtend 32, big) ∧
      memRead .half (addr + 2#32) little = .ok ((c3 ++ c2 : BitVec 16).zeroExtend 32, little) ∧
      memRead .half (addr + 2#32) big = .ok ((c2 ++ c3 : BitVec 16).zeroExtend 32, big)
    (s.e = .little → holds b0 b1 b2 b3) ∧ (s.e = .big → holds b3 b2 b1 b0)

/-! ## Move, add, subtract, multiply, compare, logical, shift -/

/-- R130, R131, R134, R135: the additions write the sum, and outside an IT block the four flags. -/
def Obligations.AdditionResults : Prop :=
  ∀ (s : State) (rd rn rm : LoReg) (imm3 : BitVec 3) (imm8 : BitVec 8), Runs 2 s →
    let result (r : Sum) (o : Result) : Prop :=
      WritesRegister s (lo rd) r.result (outsideBlock s ⟨r.result.getLsbD 31, r.result == 0#32, r.carry, r.overflow⟩) o
    result (addWithCarry (s.x (lo rn)) (imm3.zeroExtend 32) false) (exec (.addsImm3 rd rn imm3) s) ∧
    result (addWithCarry (s.x (lo rn)) (s.x (lo rm)) false) (exec (.addsReg rd rn rm) s) ∧
    result (addWithCarry (s.x (lo rd)) (imm8.zeroExtend 32) false) (exec (.addsImm8 rd imm8) s) ∧
    result (addWithCarry (s.x (lo rd)) (s.x (lo rm)) s.flags.c) (exec (.adcs rd rm) s)

/-- R140 to R143, R145: the subtractions write the difference, and outside an IT block the four flags. -/
def Obligations.SubtractionResults : Prop :=
  ∀ (s : State) (rd rn rm : LoReg) (imm3 : BitVec 3) (imm8 : BitVec 8), Runs 2 s →
    let result (r : Sum) (o : Result) : Prop :=
      WritesRegister s (lo rd) r.result (outsideBlock s ⟨r.result.getLsbD 31, r.result == 0#32, r.carry, r.overflow⟩) o
    result (addWithCarry (s.x (lo rn)) (~~~(s.x (lo rm))) true) (exec (.subsReg rd rn rm) s) ∧
    result (addWithCarry (s.x (lo rn)) (~~~(imm3.zeroExtend 32)) true) (exec (.subsImm3 rd rn imm3) s) ∧
    result (addWithCarry (s.x (lo rd)) (~~~(imm8.zeroExtend 32)) true) (exec (.subsImm8 rd imm8) s) ∧
    result (addWithCarry (s.x (lo rd)) (~~~(s.x (lo rm))) s.flags.c) (exec (.sbcs rd rm) s) ∧
    result (addWithCarry (~~~(s.x (lo rn))) 0#32 true) (exec (.rsbs rd rn) s)

/-- R146 from version 5T on: MULS writes the low word of the product and, outside an IT block, N and Z; C and V stay. -/
def Obligations.MultiplyResult : Prop :=
  ∀ (s : State) (rd rm : LoReg), Runs 2 s → s.params.arch ≠ .v4T → (rd = rm → s.params.arch.has6 = true) →
    let v : Word := BitVec.ofNat 32 ((s.x (lo rm)).toNat * (s.x (lo rd)).toNat)
    WritesRegister s (lo rd) v (outsideBlock s ⟨v.getLsbD 31, v == 0#32, s.flags.c, s.flags.v⟩) (exec (.muls rd rm) s)

/-- R146 on V4T, for every value of the draw: outside an IT block MULS makes C and V the two bits of one free draw, and changes nothing
else besides.  That the draw is `Config.mulFlags4T` at the counter `State.draws`, and that the counter goes up by one, is the model's choice
(log 10). -/
def Obligations.MultiplyFreeFlags : Prop :=
  ∀ (s : State) (rd rm : LoReg), Runs 2 s → s.params.arch = .v4T → rd ≠ rm → s.inIT = false →
    let v : Word := BitVec.ofNat 32 ((s.x (lo rm)).toNat * (s.x (lo rd)).toNat)
    Gives (exec (.muls rd rm) s) fun t => t.x (lo rd) = v ∧ t.flags.n = v.getLsbD 31 ∧ (t.flags.z = true ↔ v = 0#32) ∧
      (∀ draw : BitVec 2, Config.mulFlags4T s.draws = draw → t.flags.c = draw.getLsbD 1 ∧ t.flags.v = draw.getLsbD 0) ∧
      t.draws = s.draws + 1 ∧ t.deviceTrace = s.deviceTrace ∧ SameRegs s t [lo rd] ∧ SameMem s t ∧ SameControl s t ∧
      Advances 2 s t

/-- R160 to R163, R169: the compares and TST write flags, in an IT block too, and no register. -/
def Obligations.CompareResults : Prop :=
  ∀ (s : State) (rn rm : LoReg) (hn hm : Reg) (imm8 : BitVec 8), Runs 2 s →
    let result (r : Sum) (o : Result) : Prop :=
      WritesFlags s ⟨r.result.getLsbD 31, r.result == 0#32, r.carry, r.overflow⟩ o
    result (addWithCarry (s.x (lo rn)) (~~~(s.x (lo rm))) true) (exec (.cmpLo rn rm) s) ∧
    (8 ≤ hn.val ∨ 8 ≤ hm.val → hn ≠ PC → hm ≠ PC →
      result (addWithCarry (s.x hn) (~~~(s.x hm)) true) (exec (.cmpHi hn hm) s)) ∧
    result (addWithCarry (s.x (lo rn)) (~~~(imm8.zeroExtend 32)) true) (exec (.cmpImm rn imm8) s) ∧
    result (addWithCarry (s.x (lo rn)) (s.x (lo rm)) false) (exec (.cmn rn rm) s) ∧
    WritesFlags s
      ⟨(s.x (lo rn) &&& s.x (lo rm)).getLsbD 31, (s.x (lo rn) &&& s.x (lo rm)) == 0#32, s.flags.c, s.flags.v⟩
      (exec (.tst rn rm) s)

/-- R164 to R168, R120, R121: the logical instructions and the flag-setting moves write their result and, outside an IT block, N and Z;
`MOVS Rd, Rm` is not permitted in one. -/
def Obligations.LogicalAndMoveResults : Prop :=
  ∀ (s : State) (rd rm : LoReg) (imm8 : BitVec 8), Runs 2 s →
    let result (v : Word) (o : Result) : Prop :=
      WritesRegister s (lo rd) v (outsideBlock s ⟨v.getLsbD 31, v == 0#32, s.flags.c, s.flags.v⟩) o
    result (s.x (lo rd) &&& s.x (lo rm)) (exec (.ands rd rm) s) ∧
    result (s.x (lo rd) ^^^ s.x (lo rm)) (exec (.eors rd rm) s) ∧
    result (s.x (lo rd) ||| s.x (lo rm)) (exec (.orrs rd rm) s) ∧
    result (s.x (lo rd) &&& ~~~(s.x (lo rm))) (exec (.bics rd rm) s) ∧
    result (~~~(s.x (lo rm))) (exec (.mvns rd rm) s) ∧
    result (imm8.zeroExtend 32) (exec (.movsImm rd imm8) s) ∧
    (s.inIT = false → result (s.x (lo rm)) (exec (.movsReg rd rm) s)) ∧
    (s.inIT = true → exec (.movsReg rd rm) s = .fault (.unpredictable .movsRegInIT))

/-- R180 to R186: the shifts write their result and, outside an IT block, N, Z and C; a register amount of 0 keeps the value and C. -/
def Obligations.ShiftResults : Prop :=
  ∀ (s : State) (rd rm : LoReg) (imm5 : BitVec 5), Runs 2 s →
    let result (r : Shifted) (o : Result) : Prop :=
      WritesRegister s (lo rd) r.result (outsideBlock s ⟨r.result.getLsbD 31, r.result == 0#32, r.carry, s.flags.v⟩) o
    let n := if imm5 = 0#5 then 32 else imm5.toNat
    let amount := (s.x (lo rm)).toNat % 256
    let byAmount (shift : Word → Nat → Shifted) : Shifted :=
      if amount = 0 then ⟨s.x (lo rd), s.flags.c⟩ else shift (s.x (lo rd)) amount
    (imm5 ≠ 0#5 → result (lslC (s.x (lo rm)) imm5.toNat) (exec (.lslsImm rd rm imm5) s)) ∧
    result (lsrC (s.x (lo rm)) n) (exec (.lsrsImm rd rm imm5) s) ∧
    result (asrC (s.x (lo rm)) n) (exec (.asrsImm rd rm imm5) s) ∧
    result (byAmount lslC) (exec (.lslsReg rd rm) s) ∧ result (byAmount lsrC) (exec (.lsrsReg rd rm) s) ∧
    result (byAmount asrC) (exec (.asrsReg rd rm) s) ∧ result (byAmount rorC) (exec (.rorsReg rd rm) s)

/-- R122, R132: MOV and ADD of any registers write no flag; register 15 reads as pc + 4.  To another register than the PC they write it;
to the PC they branch, ignore bit 0 and stay in Thumb state (R26). -/
def Obligations.HighRegisterResults : Prop :=
  ∀ (s : State) (d m : Reg), s.passed = true →
    let v := if m = PC then s.pc + 4#32 else s.x m
    (d ≠ PC → s.pc.toNat + 2 < 2 ^ 32 →
      ((d.val < 8 → m.val < 8 → s.params.arch.has6 = true) → WritesRegister s d v s.flags (exec (.movHi d m) s)) ∧
      ((d.val < 8 → m.val < 8 → s.params.arch.hasT2 = true) → WritesRegister s d (s.x d + v) s.flags (exec (.addHi d m) s))) ∧
    ((s.inIT = true → s.lastInIT = true) →
      BranchesTo s (v &&& 0xFFFFFFFE#32) none (exec (.movHi PC m) s) ∧
      (m ≠ PC → BranchesTo s ((s.pc + 4#32 + s.x m) &&& 0xFFFFFFFE#32) none (exec (.addHi PC m) s)))

/-- R136, R137, R138, R144: arithmetic on SP, and the addresses formed from SP and the PC. -/
def Obligations.AddressArithmeticResults : Prop :=
  ∀ (s : State) (rd : LoReg) (imm7 : BitVec 7) (imm8 : BitVec 8), Runs 2 s →
    WritesRegister s SP (s.x SP + BitVec.ofNat 32 (4 * imm7.toNat)) s.flags (exec (.addSp imm7) s) ∧
    WritesRegister s SP (s.x SP - BitVec.ofNat 32 (4 * imm7.toNat)) s.flags (exec (.subSp imm7) s) ∧
    WritesRegister s (lo rd) (s.x SP + BitVec.ofNat 32 (4 * imm8.toNat)) s.flags (exec (.addRdSp rd imm8) s) ∧
    WritesRegister s (lo rd) (((s.pc + 4#32) &&& 0xFFFFFFFC#32) + BitVec.ofNat 32 (4 * imm8.toNat)) s.flags
      (exec (.adr rd imm8) s)

/-- R280 to R286: the extends and the reverses, bit by bit. -/
def Obligations.ExtendAndReverseResults : Prop :=
  ∀ (s : State) (rd rm : LoReg), Runs 2 s →
    let m := s.x (lo rm)
    let result (bit : Nat → Bool) (o : Result) : Prop :=
      ∃ v : Word, (∀ k < 32, v.getLsbD k = bit k) ∧ WritesRegister s (lo rd) v s.flags o
    result (fun k => m.getLsbD (min k 15)) (exec (.sxth rd rm) s) ∧
    result (fun k => m.getLsbD (min k 7)) (exec (.sxtb rd rm) s) ∧
    result (fun k => decide (k < 16) && m.getLsbD k) (exec (.uxth rd rm) s) ∧
    result (fun k => decide (k < 8) && m.getLsbD k) (exec (.uxtb rd rm) s) ∧
    result (fun k => m.getLsbD (8 * (3 - k / 8) + k % 8)) (exec (.rev rd rm) s) ∧
    result (fun k => m.getLsbD (16 * (k / 16) + 8 * (1 - k % 16 / 8) + k % 8)) (exec (.rev16 rd rm) s) ∧
    result (fun k => if k < 16 then m.getLsbD (8 * (1 - k / 8) + k % 8) else m.getLsbD 7) (exec (.revsh rd rm) s)

/-! ## Load, store, push, pop -/

/-- R200 to R209: every single load, from memory of every kind that is mapped.  Of a load that touches `Device` memory, what is traced and
drawn, the other bytes of a mixed access, and that no memory changes are the model's choice (log 11). -/
def Obligations.LoadResults : Prop :=
  ∀ (s : State) (rt rn rm : LoReg) (imm5 : BitVec 5) (imm8 : BitVec 8), Runs 2 s →
    let n := s.x (lo rn)
    let m := s.x (lo rm)
    Loads s .word (n + BitVec.ofNat 32 (4 * imm5.toNat)) rt id (exec (.ldrImm rt rn imm5) s) ∧
    Loads s .half (n + BitVec.ofNat 32 (2 * imm5.toNat)) rt zext16 (exec (.ldrhImm rt rn imm5) s) ∧
    Loads s .byte (n + BitVec.ofNat 32 imm5.toNat) rt zext8 (exec (.ldrbImm rt rn imm5) s) ∧
    Loads s .word (n + m) rt id (exec (.ldrReg rt rn rm) s) ∧ Loads s .half (n + m) rt zext16 (exec (.ldrhReg rt rn rm) s) ∧
    Loads s .half (n + m) rt sext16 (exec (.ldrshReg rt rn rm) s) ∧ Loads s .byte (n + m) rt zext8 (exec (.ldrbReg rt rn rm) s) ∧
    Loads s .byte (n + m) rt sext8 (exec (.ldrsbReg rt rn rm) s) ∧
    Loads s .word (((s.pc + 4#32) &&& 0xFFFFFFFC#32) + BitVec.ofNat 32 (4 * imm8.toNat)) rt id (exec (.ldrLit rt imm8) s) ∧
    Loads s .word (s.x SP + BitVec.ofNat 32 (4 * imm8.toNat)) rt id (exec (.ldrSp rt imm8) s)

/-- R220 to R226: every single store; a halfword or byte store ignores the upper bits of the register.  Of a store that touches `Device`
memory, what is traced and drawn and the other bytes of a mixed access are the model's choice (log 11). -/
def Obligations.StoreResults : Prop :=
  ∀ (s : State) (rt rn rm : LoReg) (imm5 : BitVec 5) (imm8 : BitVec 8), Runs 2 s →
    let n := s.x (lo rn)
    let m := s.x (lo rm)
    let v := s.x (lo rt)
    Stores s .word (n + BitVec.ofNat 32 (4 * imm5.toNat)) v (exec (.strImm rt rn imm5) s) ∧
    Stores s .half (n + BitVec.ofNat 32 (2 * imm5.toNat)) (zext16 v) (exec (.strhImm rt rn imm5) s) ∧
    Stores s .byte (n + BitVec.ofNat 32 imm5.toNat) (zext8 v) (exec (.strbImm rt rn imm5) s) ∧
    Stores s .word (n + m) v (exec (.strReg rt rn rm) s) ∧ Stores s .half (n + m) (zext16 v) (exec (.strhReg rt rn rm) s) ∧
    Stores s .byte (n + m) (zext8 v) (exec (.strbReg rt rn rm) s) ∧
    Stores s .word (s.x SP + BitVec.ofNat 32 (4 * imm8.toNat)) v (exec (.strSp rt imm8) s)

/-- R57, R64: a load or store that runs, with a misaligned address or a byte it may not access, faults and gives no next state. -/
def Obligations.SingleAccessFaults : Prop :=
  ∀ (s : State) (rt rn rm : LoReg) (imm5 : BitVec 5) (imm8 : BitVec 8), Runs 2 s →
    let n := s.x (lo rn)
    let m := s.x (lo rm)
    let faults (w : Width) (addr : Word) (ok : Prop) (o : Result) : Prop :=
      (addr.toNat % w.bytes ≠ 0 → o = .fault (.alignmentFault addr)) ∧
      (addr.toNat % w.bytes = 0 → ¬ok → o = .fault (.dataAbort addr))
    let loads (w : Width) (addr : Word) (o : Result) : Prop := faults w addr (Readable s addr w.bytes) o
    let stores (w : Width) (addr : Word) (o : Result) : Prop := faults w addr (Storable s addr w.bytes) o
    loads .word (n + BitVec.ofNat 32 (4 * imm5.toNat)) (exec (.ldrImm rt rn imm5) s) ∧
    loads .half (n + BitVec.ofNat 32 (2 * imm5.toNat)) (exec (.ldrhImm rt rn imm5) s) ∧
    loads .byte (n + BitVec.ofNat 32 imm5.toNat) (exec (.ldrbImm rt rn imm5) s) ∧
    loads .word (n + m) (exec (.ldrReg rt rn rm) s) ∧ loads .half (n + m) (exec (.ldrhReg rt rn rm) s) ∧
    loads .half (n + m) (exec (.ldrshReg rt rn rm) s) ∧ loads .byte (n + m) (exec (.ldrbReg rt rn rm) s) ∧
    loads .byte (n + m) (exec (.ldrsbReg rt rn rm) s) ∧
    loads .word (((s.pc + 4#32) &&& 0xFFFFFFFC#32) + BitVec.ofNat 32 (4 * imm8.toNat)) (exec (.ldrLit rt imm8) s) ∧
    loads .word (s.x SP + BitVec.ofNat 32 (4 * imm8.toNat)) (exec (.ldrSp rt imm8) s) ∧
    stores .word (n + BitVec.ofNat 32 (4 * imm5.toNat)) (exec (.strImm rt rn imm5) s) ∧
    stores .half (n + BitVec.ofNat 32 (2 * imm5.toNat)) (exec (.strhImm rt rn imm5) s) ∧
    stores .byte (n + BitVec.ofNat 32 imm5.toNat) (exec (.strbImm rt rn imm5) s) ∧
    stores .word (n + m) (exec (.strReg rt rn rm) s) ∧ stores .half (n + m) (exec (.strhReg rt rn rm) s) ∧
    stores .byte (n + m) (exec (.strbReg rt rn rm) s) ∧
    stores .word (s.x SP + BitVec.ofNat 32 (4 * imm8.toNat)) (exec (.strSp rt imm8) s)

/-- R92: the registers a list names, in increasing number. -/
def Obligations.RegisterLists : Prop :=
  ∀ list : BitVec 8,
    (listed list).Pairwise (· < ·) ∧ (∀ r : LoReg, r ∈ listed list ↔ list.getLsbD r.val = true) ∧
      bitCount list = (listed list).length

/-- R210, R211: LDM loads the listed registers from consecutive words upward; Rn is raised past them exactly when it is not listed.
Of words that touch `Device` memory, what is traced and drawn, in which order, and that no memory changes are the model's choice (log 11). -/
def Obligations.LoadMultipleResult : Prop :=
  ∀ (s : State) (rn : LoReg) (list : BitVec 8), Runs 2 s → list ≠ 0#8 →
    let base := s.x (lo rn)
    let count := bitCount list
    base.toNat % 4 = 0 → (∀ j < count, Readable s (base + words j) 4) →
      Gives (exec (.ldm rn list) s) fun t => HoldsLoaded s base (listed list) t ∧
        (rn ∉ listed list → t.x (lo rn) = base + words count) ∧ SameRegs s t (lo rn :: (listed list).map lo) ∧
        t.flags = s.flags ∧ SameMem s t ∧ SameControl s t ∧
        Traces s t ((deviceWords s base count).map (fun j => .read (base + words j) 4)) ∧ Advances 2 s t

/-- R227: STM stores the listed registers to consecutive words upward and raises Rn past them.  Of words that touch `Device` memory, what
is traced and drawn and the other bytes of a mixed word are the model's choice (log 11). -/
def Obligations.StoreMultipleResult : Prop :=
  ∀ (s : State) (rn : LoReg) (list : BitVec 8), Runs 2 s → list ≠ 0#8 → (rn ∈ listed list → ∀ r ∈ listed list, rn ≤ r) →
    let base := s.x (lo rn)
    let vs := (listed list).map (fun r => s.x (lo r))
    base.toNat % 4 = 0 → (∀ j < vs.length, Storable s (base + words j) 4) →
      Gives (exec (.stm rn list) s) fun t => HoldsWords s base vs t ∧ t.x (lo rn) = base + words vs.length ∧
        SameRegs s t [lo rn] ∧ t.flags = s.flags ∧ SameControl s t ∧
        Traces s t ((deviceWords s base vs.length).map (fun j => .write (base + words j) 4 (vs.getD j 0#32))) ∧ Advances 2 s t

/-- R240: PUSH lowers SP by four per register and stores the listed registers upward from there, LR highest.
Of words that touch `Device` memory, what is traced and drawn and the other bytes of a mixed word are the model's choice (log 11). -/
def Obligations.PushResult : Prop :=
  ∀ (s : State) (m : Bool) (list : BitVec 8), Runs 2 s → (m = true ∨ list ≠ 0#8) →
    let vs := (listed list).map (fun r => s.x (lo r)) ++ (if m then [s.x LR] else [])
    let base := s.x SP - words vs.length
    base.toNat % 4 = 0 → (∀ j < vs.length, Storable s (base + words j) 4) →
      Gives (exec (.push m list) s) fun t => HoldsWords s base vs t ∧ t.x SP = base ∧ SameRegs s t [SP] ∧ t.flags = s.flags ∧
        SameControl s t ∧
        Traces s t ((deviceWords s base vs.length).map (fun j => .write (base + words j) 4 (vs.getD j 0#32))) ∧ Advances 2 s t

/-- R241: POP without the PC loads the listed registers upward from SP and raises SP past them.  Of words that touch `Device` memory, what
is traced and drawn, in which order, and that no memory changes are the model's choice (log 11). -/
def Obligations.PopResult : Prop :=
  ∀ (s : State) (list : BitVec 8), Runs 2 s → list ≠ 0#8 →
    let base := s.x SP
    let count := bitCount list
    base.toNat % 4 = 0 → (∀ j < count, Readable s (base + words j) 4) →
      Gives (exec (.pop false list) s) fun t => HoldsLoaded s base (listed list) t ∧ t.x SP = base + words count ∧
        SameRegs s t (SP :: (listed list).map lo) ∧ t.flags = s.flags ∧ SameMem s t ∧ SameControl s t ∧
        Traces s t ((deviceWords s base count).map (fun j => .read (base + words j) 4)) ∧ Advances 2 s t

/-- R242, R243, R26: POP with the PC also loads the PC from the highest word: bit 0 is ignored on V4T; from V5T on, with bit 0 clear the
outcome is `LeftThumbState` with that address, and the state it carries has the registers and SP popped.  That the pc of that state is
still the instruction's (log 6) and its ITSTATE not advanced (log 7), and what is traced and drawn of words that touch `Device` memory
(log 11), are the model's choice. -/
def Obligations.PopReturns : Prop :=
  ∀ (s : State) (list : BitVec 8), s.passed = true → (s.inIT = true → s.lastInIT = true) →
    let base := s.x SP
    let count := bitCount list
    let target := readValue s (s.draws + (deviceWords s base count).length) .word (base + words count)
    let exchanges := s.params.arch.has5T = true ∧ target.getLsbD 0 = false
    base.toNat % 4 = 0 → (∀ j < count + 1, Readable s (base + words j) 4) →
      let popped (t : State) : Prop := HoldsLoaded s base (listed list) t ∧ t.x SP = base + words (count + 1) ∧
        SameRegs s t (SP :: (listed list).map lo) ∧ t.flags = s.flags ∧ SameMem s t ∧ SameControl s t ∧
        Traces s t ((deviceWords s base (count + 1)).map (fun j => .read (base + words j) 4))
      (¬exchanges → Gives (exec (.pop true list) s) fun t => popped t ∧ t.pc = target &&& 0xFFFFFFFE#32 ∧
        t.itstate = if s.inIT then itAdvance s.itstate else s.itstate) ∧
      (exchanges → LeavesThumb target (exec (.pop true list) s) fun t => popped t ∧ t.pc = s.pc ∧ t.itstate = s.itstate)

/-- R57, R60, R64: a multiple transfer that runs, with a misaligned base or a word it may not access, faults and gives no next state; the
fault reports the base, or the first word from the base that fails, which is the model's choice where the transfer wraps past the top of
the address space (log 29). -/
def Obligations.MultipleAccessFaults : Prop :=
  ∀ (s : State) (rn : LoReg) (list : BitVec 8) (extra : Bool), Runs 2 s → (s.inIT = true → s.lastInIT = true) →
    let faults (base : Word) (count : Nat) (ok : Word → Prop) (o : Result) : Prop :=
      (base.toNat % 4 ≠ 0 → o = .fault (.alignmentFault base)) ∧
      (base.toNat % 4 = 0 → ∀ j < count, ¬ok (base + words j) → (∀ k < j, ok (base + words k)) →
        o = .fault (.dataAbort (base + words j)))
    let readable (a : Word) : Prop := Readable s a 4
    let storable (a : Word) : Prop := Storable s a 4
    (list ≠ 0#8 → faults (s.x (lo rn)) (bitCount list) readable (exec (.ldm rn list) s)) ∧
    (list ≠ 0#8 → (rn ∈ listed list → ∀ r ∈ listed list, rn ≤ r) →
      faults (s.x (lo rn)) (bitCount list) storable (exec (.stm rn list) s)) ∧
    (extra = true ∨ list ≠ 0#8 →
      faults (s.x SP - words (bitCount list + extra.toNat)) (bitCount list + extra.toNat) storable (exec (.push extra list) s) ∧
      faults (s.x SP) (bitCount list + extra.toNat) readable (exec (.pop extra list) s))

/-- R241: "POP is the exact inverse of a PUSH of the same list", on `Normal` memory and where both run. -/
def Obligations.PopInvertsPush : Prop :=
  ∀ (s t : State) (list : BitVec 8), s.passed = true → exec (.push false list) s = .next t → t.passed = true →
    t.pc.toNat + 2 < 2 ^ 32 →
    (∀ j < bitCount list, ∀ i < 4, kindOf s.params (byteAddr (s.x SP - words (bitCount list) + words j) i) = .normal) →
      Gives (exec (.pop false list) t) fun u => SameRegs s u [] ∧ SameMem t u ∧ u.flags = s.flags

/-! ## If-Then and branches -/

/-- R250: IT begins a block, and changes nothing else. -/
def Obligations.IfThenStarts : Prop :=
  ∀ (s : State) (firstcond mask : BitVec 4), s.inIT = false → s.pc.toNat + 2 < 2 ^ 32 →
    firstcond ≠ 15#4 → (firstcond = 14#4 → mask = 1#4 ∨ mask = 2#4 ∨ mask = 4#4 ∨ mask = 8#4) →
      Gives (exec (.it firstcond mask) s) fun t => t.itstate = firstcond ++ mask ∧ t.pc = s.pc + 2#32 ∧ t.flags = s.flags ∧
        SameRegs s t [] ∧ SameMem s t ∧ SameControl s t ∧ NoDevice s t

/-- R255 to R258, R89: the direct branches; where `B{cond}`, CBZ or CBNZ is not taken, it advances. -/
def Obligations.DirectBranches : Prop :=
  ∀ (s : State) (rn : LoReg) (cond : BitVec 4) (imm6 : BitVec 6) (imm8 : BitVec 8) (imm11 : BitVec 11),
    let advances (o : Result) : Prop := s.pc.toNat + 2 < 2 ^ 32 → WritesFlags s s.flags o
    let goes (offset : Int) (o : Result) : Prop :=
      BranchesTo s ((s.pc + 4#32 + BitVec.ofInt 32 offset) &&& 0xFFFFFFFE#32) none o
    (s.inIT = false →
      (conditionHolds cond s.flags = true → goes (2 * imm8.toInt) (exec (.bCond cond imm8) s)) ∧
      (conditionHolds cond s.flags = false → advances (exec (.bCond cond imm8) s)) ∧
      (s.x (lo rn) = 0#32 → goes (2 * (imm6.toNat : Int)) (exec (.cbz rn imm6) s) ∧ advances (exec (.cbnz rn imm6) s)) ∧
      (s.x (lo rn) ≠ 0#32 → goes (2 * (imm6.toNat : Int)) (exec (.cbnz rn imm6) s) ∧ advances (exec (.cbz rn imm6) s))) ∧
    (s.passed = true → (s.inIT = true → s.lastInIT = true) → goes (2 * imm11.toInt) (exec (.b imm11) s))

/-- R259 to R262: BL; BX and BLX Rm; BLX `<label>`.  LR is the address of the next instruction with bit 0 set.  With bit 0 of the target
clear, always for BLX `<label>`, the outcome is `LeftThumbState` with the target, and the state it carries has LR written.  That the pc of
that state is still the instruction's (log 6) and its ITSTATE not advanced (log 7) is the model's choice. -/
def Obligations.LinkAndExchangeBranches : Prop :=
  ∀ (s : State) (rm : Reg) (offset : BitVec 24) (offsetX : BitVec 23), s.passed = true → (s.inIT = true → s.lastInIT = true) →
    let target := if rm = PC then s.pc + 4#32 else s.x rm
    let exchange (link : Option Word) (o : Result) : Prop :=
      if target.getLsbD 0 = true then BranchesTo s (target &&& 0xFFFFFFFE#32) link o else ExchangesTo s target link o
    BranchesTo s ((s.pc + 4#32 + BitVec.ofInt 32 (2 * offset.toInt)) &&& 0xFFFFFFFE#32) (some ((s.pc + 4#32) ||| 1#32))
      (exec (.bl offset) s) ∧
    ((rm = PC → s.pc.getLsbD 1 = false) → exchange none (exec (.bx rm) s)) ∧
    (rm ≠ PC → exchange (some ((s.pc + 2#32) ||| 1#32)) (exec (.blxReg rm) s)) ∧
    ExchangesTo s (((s.pc + 4#32) &&& 0xFFFFFFFC#32) + BitVec.ofInt 32 (4 * offsetX.toInt)) (some ((s.pc + 4#32) ||| 1#32))
      (exec (.blxLabel offsetX) s)

/-- R259, R260: `BX LR` right after a BL outside an IT block returns, in Thumb state, to the instruction after the BL. -/
def Obligations.ReturnFromCall : Prop :=
  ∀ (s t : State) (offset : BitVec 24), s.pc.getLsbD 0 = false → s.inIT = false → exec (.bl offset) s = .next t →
    Gives (exec (.bx LR) t) fun u => u.pc = s.pc + 4#32 ∧ u.t = s.t ∧ SameRegs s u [LR] ∧ u.flags = s.flags ∧ SameMem s u

/-- R254: what must not stand in an IT block, or not before its last place, is Unpredictable whether or not its condition passes; BKPT
executes whatever the condition. -/
def Obligations.ItBlockRestrictions : Prop :=
  ∀ (s : State) (rn rd rm : LoReg) (hm : Reg) (c mask : BitVec 4) (imm6 : BitVec 6) (imm8 : BitVec 8) (imm11 : BitVec 11)
    (far : BitVec 24) (farX : BitVec 23) (a i f : Bool) (e : Endian), s.inIT = true →
    let no (r : Unpredictable) (o : Result) : Prop := o = .fault (.unpredictable r)
    no .itInIT (exec (.it c mask) s) ∧ no .cbzInIT (exec (.cbz rn imm6) s) ∧ no .cbnzInIT (exec (.cbnz rn imm6) s) ∧
    no .cpsInIT (exec (.cpsid a i f) s) ∧ no .cpsInIT (exec (.cpsie a i f) s) ∧ no .setendInIT (exec (.setend e) s) ∧
    no .bCondInIT (exec (.bCond c imm8) s) ∧ no .movsRegInIT (exec (.movsReg rd rm) s) ∧
    exec (.bkpt imm8) s = .fault (.breakpoint imm8) ∧
    (s.lastInIT = false →
      no .branchNotLastInIT (exec (.b imm11) s) ∧ no .branchNotLastInIT (exec (.bl far) s) ∧
      no .branchNotLastInIT (exec (.blxLabel farX) s) ∧ no .branchNotLastInIT (exec (.bx hm) s) ∧
      no .branchNotLastInIT (exec (.movHi PC hm) s) ∧ no .branchNotLastInIT (exec (.pop true imm8) s) ∧
      (hm ≠ PC → no .branchNotLastInIT (exec (.blxReg hm) s) ∧ no .branchNotLastInIT (exec (.addHi PC hm) s)))

/-- R123, R133, R132, R146, R161, R210, R227, R240, R241, R250, R260, R262, R291: the operands an instruction must not have. -/
def Obligations.OperandRestrictions : Prop :=
  ∀ (s : State) (d m : Reg) (rd rn : LoReg) (mask : BitVec 4) (list : BitVec 8),
    let no (r : Unpredictable) (o : Result) : Prop := o = .fault (.unpredictable r)
    (d.val < 8 → m.val < 8 → s.params.arch.has6 = false → no .movLoToLoBeforeV6 (exec (.movHi d m) s)) ∧
    (d.val < 8 → m.val < 8 → s.params.arch.hasT2 = false → no .addLoToLoBeforeT2 (exec (.addHi d m) s)) ∧
    no .addPcPcPc (exec (.addHi PC PC) s) ∧
    (s.params.arch.has6 = false → no .mulsSameBeforeV6 (exec (.muls rd rd) s)) ∧
    (d.val < 8 → m.val < 8 → no .cmpHiTwoLo (exec (.cmpHi d m) s)) ∧
    no .cmpWithPc (exec (.cmpHi PC m) s) ∧ no .cmpWithPc (exec (.cmpHi d PC) s) ∧
    no .ldmEmpty (exec (.ldm rn 0#8) s) ∧ no .stmEmpty (exec (.stm rn 0#8) s) ∧
    (rn ∈ listed list → (∃ r ∈ listed list, r < rn) → no .stmBaseNotLowest (exec (.stm rn list) s)) ∧
    no .pushEmpty (exec (.push false 0#8) s) ∧ no .popEmpty (exec (.pop false 0#8) s) ∧ no .blxPc (exec (.blxReg PC) s) ∧
    (s.inIT = false →
      (s.pc.getLsbD 1 = true → no .bxPcUnaligned (exec (.bx PC) s)) ∧ no .itCond1111 (exec (.it 15#4 mask) s) ∧
      (mask ≠ 1#4 → mask ≠ 2#4 → mask ≠ 4#4 → mask ≠ 8#4 → no .itAlWithElse (exec (.it 14#4 mask) s)) ∧
      no .cpsNoFlag (exec (.cpsid false false false) s) ∧ no .cpsNoFlag (exec (.cpsie false false false) s))

/-- R27, R24: an instruction that completes advances by its length inside the address space, or is one that may write the PC; and an
instruction that never writes the PC and has no other decode-time check, loads, stores, WFE and WFI among them, is Unpredictable where its
successor would pass the top of the space, before any effect, wait or fault of an access (U8). -/
def Obligations.SequentialAdvance : Prop :=
  (∀ (i : Instr) (s t : State), exec i s = .next t →
    (t.pc = s.pc + BitVec.ofNat 32 i.len ∧ s.pc.toNat + i.len < 2 ^ 32) ∨ (match i with
      | .movHi d _ => d = PC
      | .addHi d _ => d = PC
      | .bx _ | .blxReg _ | .pop true _ | .bCond _ _ | .cbz _ _ | .cbnz _ _ | .b _ | .bl _ => True
      | _ => False)) ∧
  (∀ (i : Instr) (s : State), 2 ^ 32 ≤ s.pc.toNat + 2 → (match i with
      | .movsImm _ _ | .addsImm3 _ _ _ | .addsReg _ _ _ | .addsImm8 _ _ | .adcs _ _ | .subsReg _ _ _ | .subsImm3 _ _ _
      | .subsImm8 _ _ | .sbcs _ _ | .rsbs _ _ | .addSp _ | .subSp _ | .addRdSp _ _ | .adr _ _ | .cmpLo _ _ | .cmpImm _ _
      | .cmn _ _ | .tst _ _ | .ands _ _ | .eors _ _ | .orrs _ _ | .bics _ _ | .mvns _ _ | .lslsImm _ _ _ | .lsrsImm _ _ _
      | .asrsImm _ _ _ | .lslsReg _ _ | .lsrsReg _ _ | .asrsReg _ _ | .rorsReg _ _ | .sxth _ _ | .sxtb _ _ | .uxth _ _
      | .uxtb _ _ | .rev _ _ | .rev16 _ _ | .revsh _ _ | .ldrImm _ _ _ | .ldrhImm _ _ _ | .ldrbImm _ _ _ | .ldrReg _ _ _
      | .ldrhReg _ _ _ | .ldrshReg _ _ _ | .ldrbReg _ _ _ | .ldrsbReg _ _ _ | .ldrLit _ _ | .ldrSp _ _ | .strImm _ _ _
      | .strhImm _ _ _ | .strbImm _ _ _ | .strReg _ _ _ | .strhReg _ _ _ | .strbReg _ _ _ | .strSp _ _ | .nop | .yield | .sev
      | .wfe | .wfi | .hint _ => True
      | _ => False) → exec i s = .fault (.unpredictable .pcWrap))

/-! ## Processor state change, hints, stops -/

/-- R291, R292, R293: CPSID and CPSIE set and clear the named masks if privileged and do nothing otherwise; SETEND sets E. -/
def Obligations.ProcessorStateChanges : Prop :=
  ∀ (s : State) (a i f : Bool) (e : Endian), s.inIT = false → s.pc.toNat + 2 < 2 ^ 32 →
    let quiet (t : State) : Prop :=
      SameRegs s t [] ∧ SameMem s t ∧ t.flags = s.flags ∧ NoDevice s t ∧ t.params = s.params ∧ t.t = s.t ∧ t.ev = s.ev ∧
        t.fetched = s.fetched ∧ t.stepIndex = s.stepIndex ∧ t.pending = s.pending ∧ Advances 2 s t
    let masks (named value : Bool) (o : Bool) : Bool := if s.params.priv && named then value else o
    let changes (value : Bool) (o : Result) : Prop := Gives o fun t => quiet t ∧ t.e = s.e ∧ t.maskA = masks a value s.maskA ∧
      t.maskI = masks i value s.maskI ∧ t.maskF = masks f value s.maskF
    (a = true ∨ i = true ∨ f = true → changes true (exec (.cpsid a i f) s) ∧ changes false (exec (.cpsie a i f) s)) ∧
    Gives (exec (.setend e) s) fun t =>
      quiet t ∧ t.e = e ∧ t.maskA = s.maskA ∧ t.maskI = s.maskI ∧ t.maskF = s.maskF

/-- R295 to R300: NOP, YIELD and the unallocated hints only advance, and so do SEV, WFE and WFI before V7.  On V7, SEV sets EV, WFE
consumes the event or waits, and WFI completes if one of its four causes is pending, masked or not, and waits otherwise (`s.pending` is
`IrqOracle(k)` of the step, as StepDeliversInterrupts says). -/
def Obligations.HintResults : Prop :=
  ∀ (s : State) (number : BitVec 4), Runs 2 s →
    let wakes := s.pending.irq = true ∨ s.pending.fiq = true ∨ s.pending.impreciseAbort = true ∨ s.pending.debugRequest = true
    let onlyEvent (ev : Bool) (o : Result) : Prop := Gives o fun t => t.ev = ev ∧ t.flags = s.flags ∧ SameRegs s t [] ∧
      SameMem s t ∧ SameControl s { t with ev := s.ev } ∧ NoDevice s t ∧ Advances 2 s t
    WritesFlags s s.flags (exec .nop s) ∧ WritesFlags s s.flags (exec .yield s) ∧
    WritesFlags s s.flags (exec (.hint number) s) ∧
    (s.params.arch ≠ .v7 →
      WritesFlags s s.flags (exec .sev s) ∧ WritesFlags s s.flags (exec .wfe s) ∧ WritesFlags s s.flags (exec .wfi s)) ∧
    (s.params.arch = .v7 →
      onlyEvent true (exec .sev s) ∧ (s.ev = true → onlyEvent false (exec .wfe s)) ∧
      (s.ev = false → exec .wfe s = .fault (.wait .wfe)) ∧
      (wakes → WritesFlags s s.flags (exec .wfi s)) ∧ (¬wakes → exec .wfi s = .fault (.wait .wfi)))

/-- R290, R294, R101, R315: SVC raises SupervisorCall where its condition passes and is skipped where it fails; BKPT raises Breakpoint
and `0xDExx` Undefined in every state; which exception BKPT stands for is `BKPT_TO_DEBUG`. -/
def Obligations.StoppingInstructions : Prop :=
  ∀ (s : State) (imm8 : BitVec 8) (p : Params),
    (s.passed = true → exec (.svc imm8) s = .fault (.supervisorCall imm8)) ∧
    (s.passed = false → s.pc.toNat + 2 < 2 ^ 32 →
      exec (.svc imm8) s = .next { s with pc := s.pc + 2#32, itstate := itAdvance s.itstate }) ∧
    exec (.bkpt imm8) s = .fault (.breakpoint imm8) ∧
    exec (.udf imm8) s = .fault (.undefined (0xDE#8 ++ imm8)) ∧
    hardwareException p (.breakpoint imm8) = some (if p.bkptToDebug then .debugState else .prefetchAbort)

/-- R12, R314, R311: under any `IrqOracle` and any `EnvResume`, a step that stops goes on exactly where the environment gives a state for
the stop and the state it carries: the one before the step, but for `LeftThumbState` the one after the instruction's other effects.  That
the resumed run keeps the parameters (R39) and takes the next step index is the model's choice (log 8). -/
def Obligations.EnvironmentResumes : Prop :=
  ∀ (irq : IrqOracle) (env : EnvResume) (s : State),
    let resumed (stop : Stop) (carried : State) (o : Result) : Result :=
      match env stop carried with
      | some t => .next { t with params := s.params, stepIndex := s.stepIndex + 1 }
      | none => o
    stepUnder irq env s =
      match stepUnder irq neverResumes s with
      | .next t => .next t
      | .fault f => resumed (.fault f) s (.fault f)
      | .refused (.leftThumbState target t) =>
        resumed (.refused (.leftThumbState target t)) t (.refused (.leftThumbState target t))
      | .refused r => resumed (.refused r) s (.refused r)
end

