-- ==== Sys2Proof/Laws/State.lean ====
section
/-! SUPPORT. What each update of the state leaves alone, field by field, and what reading a register gives after each update. -/

namespace Sys2Proof.Machine

/-! ## `State.setX` -/

@[simp] theorem State.setX_params (s : State) (r : Reg) (v : Word) : (s.setX r v).params = s.params := by unfold State.setX; split <;> rfl
@[simp] theorem State.setX_pc (s : State) (r : Reg) (v : Word) : (s.setX r v).pc = s.pc := by unfold State.setX; split <;> rfl
@[simp] theorem State.setX_flags (s : State) (r : Reg) (v : Word) : (s.setX r v).flags = s.flags := by unfold State.setX; split <;> rfl
@[simp] theorem State.setX_t (s : State) (r : Reg) (v : Word) : (s.setX r v).t = s.t := by unfold State.setX; split <;> rfl
@[simp] theorem State.setX_e (s : State) (r : Reg) (v : Word) : (s.setX r v).e = s.e := by unfold State.setX; split <;> rfl
@[simp] theorem State.setX_maskA (s : State) (r : Reg) (v : Word) : (s.setX r v).maskA = s.maskA := by unfold State.setX; split <;> rfl
@[simp] theorem State.setX_maskI (s : State) (r : Reg) (v : Word) : (s.setX r v).maskI = s.maskI := by unfold State.setX; split <;> rfl
@[simp] theorem State.setX_maskF (s : State) (r : Reg) (v : Word) : (s.setX r v).maskF = s.maskF := by unfold State.setX; split <;> rfl
@[simp] theorem State.setX_itstate (s : State) (r : Reg) (v : Word) : (s.setX r v).itstate = s.itstate := by unfold State.setX; split <;> rfl
@[simp] theorem State.setX_ev (s : State) (r : Reg) (v : Word) : (s.setX r v).ev = s.ev := by unfold State.setX; split <;> rfl
@[simp] theorem State.setX_mem (s : State) (r : Reg) (v : Word) : (s.setX r v).mem = s.mem := by unfold State.setX; split <;> rfl
@[simp] theorem State.setX_fetched (s : State) (r : Reg) (v : Word) : (s.setX r v).fetched = s.fetched := by unfold State.setX; split <;> rfl
@[simp] theorem State.setX_deviceTrace (s : State) (r : Reg) (v : Word) : (s.setX r v).deviceTrace = s.deviceTrace := by unfold State.setX; split <;> rfl
@[simp] theorem State.setX_stepIndex (s : State) (r : Reg) (v : Word) : (s.setX r v).stepIndex = s.stepIndex := by unfold State.setX; split <;> rfl
@[simp] theorem State.setX_pending (s : State) (r : Reg) (v : Word) : (s.setX r v).pending = s.pending := by unfold State.setX; split <;> rfl
@[simp] theorem State.setX_draws (s : State) (r : Reg) (v : Word) : (s.setX r v).draws = s.draws := by unfold State.setX; split <;> rfl

/-! ## `State.writeFlags` -/

@[simp] theorem State.writeFlags_params (s : State) (f : Flags) : (s.writeFlags f).params = s.params := rfl
@[simp] theorem State.writeFlags_regs (s : State) (f : Flags) : (s.writeFlags f).regs = s.regs := rfl
@[simp] theorem State.writeFlags_pc (s : State) (f : Flags) : (s.writeFlags f).pc = s.pc := rfl
@[simp] theorem State.writeFlags_t (s : State) (f : Flags) : (s.writeFlags f).t = s.t := rfl
@[simp] theorem State.writeFlags_e (s : State) (f : Flags) : (s.writeFlags f).e = s.e := rfl
@[simp] theorem State.writeFlags_maskA (s : State) (f : Flags) : (s.writeFlags f).maskA = s.maskA := rfl
@[simp] theorem State.writeFlags_maskI (s : State) (f : Flags) : (s.writeFlags f).maskI = s.maskI := rfl
@[simp] theorem State.writeFlags_maskF (s : State) (f : Flags) : (s.writeFlags f).maskF = s.maskF := rfl
@[simp] theorem State.writeFlags_itstate (s : State) (f : Flags) : (s.writeFlags f).itstate = s.itstate := rfl
@[simp] theorem State.writeFlags_ev (s : State) (f : Flags) : (s.writeFlags f).ev = s.ev := rfl
@[simp] theorem State.writeFlags_mem (s : State) (f : Flags) : (s.writeFlags f).mem = s.mem := rfl
@[simp] theorem State.writeFlags_fetched (s : State) (f : Flags) : (s.writeFlags f).fetched = s.fetched := rfl
@[simp] theorem State.writeFlags_deviceTrace (s : State) (f : Flags) : (s.writeFlags f).deviceTrace = s.deviceTrace := rfl
@[simp] theorem State.writeFlags_stepIndex (s : State) (f : Flags) : (s.writeFlags f).stepIndex = s.stepIndex := rfl
@[simp] theorem State.writeFlags_pending (s : State) (f : Flags) : (s.writeFlags f).pending = s.pending := rfl
@[simp] theorem State.writeFlags_draws (s : State) (f : Flags) : (s.writeFlags f).draws = s.draws := rfl

/-! ## `State.writeFlagsOutsideIT` -/

@[simp] theorem State.writeFlagsOutsideIT_params (s : State) (f : Flags) : (s.writeFlagsOutsideIT f).params = s.params := by unfold State.writeFlagsOutsideIT; split <;> rfl
@[simp] theorem State.writeFlagsOutsideIT_regs (s : State) (f : Flags) : (s.writeFlagsOutsideIT f).regs = s.regs := by unfold State.writeFlagsOutsideIT; split <;> rfl
@[simp] theorem State.writeFlagsOutsideIT_pc (s : State) (f : Flags) : (s.writeFlagsOutsideIT f).pc = s.pc := by unfold State.writeFlagsOutsideIT; split <;> rfl
@[simp] theorem State.writeFlagsOutsideIT_t (s : State) (f : Flags) : (s.writeFlagsOutsideIT f).t = s.t := by unfold State.writeFlagsOutsideIT; split <;> rfl
@[simp] theorem State.writeFlagsOutsideIT_e (s : State) (f : Flags) : (s.writeFlagsOutsideIT f).e = s.e := by unfold State.writeFlagsOutsideIT; split <;> rfl
@[simp] theorem State.writeFlagsOutsideIT_maskA (s : State) (f : Flags) : (s.writeFlagsOutsideIT f).maskA = s.maskA := by unfold State.writeFlagsOutsideIT; split <;> rfl
@[simp] theorem State.writeFlagsOutsideIT_maskI (s : State) (f : Flags) : (s.writeFlagsOutsideIT f).maskI = s.maskI := by unfold State.writeFlagsOutsideIT; split <;> rfl
@[simp] theorem State.writeFlagsOutsideIT_maskF (s : State) (f : Flags) : (s.writeFlagsOutsideIT f).maskF = s.maskF := by unfold State.writeFlagsOutsideIT; split <;> rfl
@[simp] theorem State.writeFlagsOutsideIT_itstate (s : State) (f : Flags) : (s.writeFlagsOutsideIT f).itstate = s.itstate := by unfold State.writeFlagsOutsideIT; split <;> rfl
@[simp] theorem State.writeFlagsOutsideIT_ev (s : State) (f : Flags) : (s.writeFlagsOutsideIT f).ev = s.ev := by unfold State.writeFlagsOutsideIT; split <;> rfl
@[simp] theorem State.writeFlagsOutsideIT_mem (s : State) (f : Flags) : (s.writeFlagsOutsideIT f).mem = s.mem := by unfold State.writeFlagsOutsideIT; split <;> rfl
@[simp] theorem State.writeFlagsOutsideIT_fetched (s : State) (f : Flags) : (s.writeFlagsOutsideIT f).fetched = s.fetched := by unfold State.writeFlagsOutsideIT; split <;> rfl
@[simp] theorem State.writeFlagsOutsideIT_deviceTrace (s : State) (f : Flags) : (s.writeFlagsOutsideIT f).deviceTrace = s.deviceTrace := by unfold State.writeFlagsOutsideIT; split <;> rfl
@[simp] theorem State.writeFlagsOutsideIT_stepIndex (s : State) (f : Flags) : (s.writeFlagsOutsideIT f).stepIndex = s.stepIndex := by unfold State.writeFlagsOutsideIT; split <;> rfl
@[simp] theorem State.writeFlagsOutsideIT_pending (s : State) (f : Flags) : (s.writeFlagsOutsideIT f).pending = s.pending := by unfold State.writeFlagsOutsideIT; split <;> rfl
@[simp] theorem State.writeFlagsOutsideIT_draws (s : State) (f : Flags) : (s.writeFlagsOutsideIT f).draws = s.draws := by unfold State.writeFlagsOutsideIT; split <;> rfl

/-! ## `State.advanceIT` -/

@[simp] theorem State.advanceIT_params (s : State) (it : BitVec 8) : (s.advanceIT it).params = s.params := by unfold State.advanceIT; split <;> rfl
@[simp] theorem State.advanceIT_regs (s : State) (it : BitVec 8) : (s.advanceIT it).regs = s.regs := by unfold State.advanceIT; split <;> rfl
@[simp] theorem State.advanceIT_pc (s : State) (it : BitVec 8) : (s.advanceIT it).pc = s.pc := by unfold State.advanceIT; split <;> rfl
@[simp] theorem State.advanceIT_flags (s : State) (it : BitVec 8) : (s.advanceIT it).flags = s.flags := by unfold State.advanceIT; split <;> rfl
@[simp] theorem State.advanceIT_t (s : State) (it : BitVec 8) : (s.advanceIT it).t = s.t := by unfold State.advanceIT; split <;> rfl
@[simp] theorem State.advanceIT_e (s : State) (it : BitVec 8) : (s.advanceIT it).e = s.e := by unfold State.advanceIT; split <;> rfl
@[simp] theorem State.advanceIT_maskA (s : State) (it : BitVec 8) : (s.advanceIT it).maskA = s.maskA := by unfold State.advanceIT; split <;> rfl
@[simp] theorem State.advanceIT_maskI (s : State) (it : BitVec 8) : (s.advanceIT it).maskI = s.maskI := by unfold State.advanceIT; split <;> rfl
@[simp] theorem State.advanceIT_maskF (s : State) (it : BitVec 8) : (s.advanceIT it).maskF = s.maskF := by unfold State.advanceIT; split <;> rfl
@[simp] theorem State.advanceIT_ev (s : State) (it : BitVec 8) : (s.advanceIT it).ev = s.ev := by unfold State.advanceIT; split <;> rfl
@[simp] theorem State.advanceIT_mem (s : State) (it : BitVec 8) : (s.advanceIT it).mem = s.mem := by unfold State.advanceIT; split <;> rfl
@[simp] theorem State.advanceIT_fetched (s : State) (it : BitVec 8) : (s.advanceIT it).fetched = s.fetched := by unfold State.advanceIT; split <;> rfl
@[simp] theorem State.advanceIT_deviceTrace (s : State) (it : BitVec 8) : (s.advanceIT it).deviceTrace = s.deviceTrace := by unfold State.advanceIT; split <;> rfl
@[simp] theorem State.advanceIT_stepIndex (s : State) (it : BitVec 8) : (s.advanceIT it).stepIndex = s.stepIndex := by unfold State.advanceIT; split <;> rfl
@[simp] theorem State.advanceIT_pending (s : State) (it : BitVec 8) : (s.advanceIT it).pending = s.pending := by unfold State.advanceIT; split <;> rfl
@[simp] theorem State.advanceIT_draws (s : State) (it : BitVec 8) : (s.advanceIT it).draws = s.draws := by unfold State.advanceIT; split <;> rfl

/-! ## `State.branchWritePC` -/

@[simp] theorem State.branchWritePC_params (s : State) (v : Word) : (s.branchWritePC v).params = s.params := rfl
@[simp] theorem State.branchWritePC_regs (s : State) (v : Word) : (s.branchWritePC v).regs = s.regs := rfl
@[simp] theorem State.branchWritePC_flags (s : State) (v : Word) : (s.branchWritePC v).flags = s.flags := rfl
@[simp] theorem State.branchWritePC_t (s : State) (v : Word) : (s.branchWritePC v).t = s.t := rfl
@[simp] theorem State.branchWritePC_e (s : State) (v : Word) : (s.branchWritePC v).e = s.e := rfl
@[simp] theorem State.branchWritePC_maskA (s : State) (v : Word) : (s.branchWritePC v).maskA = s.maskA := rfl
@[simp] theorem State.branchWritePC_maskI (s : State) (v : Word) : (s.branchWritePC v).maskI = s.maskI := rfl
@[simp] theorem State.branchWritePC_maskF (s : State) (v : Word) : (s.branchWritePC v).maskF = s.maskF := rfl
@[simp] theorem State.branchWritePC_itstate (s : State) (v : Word) : (s.branchWritePC v).itstate = s.itstate := rfl
@[simp] theorem State.branchWritePC_ev (s : State) (v : Word) : (s.branchWritePC v).ev = s.ev := rfl
@[simp] theorem State.branchWritePC_mem (s : State) (v : Word) : (s.branchWritePC v).mem = s.mem := rfl
@[simp] theorem State.branchWritePC_fetched (s : State) (v : Word) : (s.branchWritePC v).fetched = s.fetched := rfl
@[simp] theorem State.branchWritePC_deviceTrace (s : State) (v : Word) : (s.branchWritePC v).deviceTrace = s.deviceTrace := rfl
@[simp] theorem State.branchWritePC_stepIndex (s : State) (v : Word) : (s.branchWritePC v).stepIndex = s.stepIndex := rfl
@[simp] theorem State.branchWritePC_pending (s : State) (v : Word) : (s.branchWritePC v).pending = s.pending := rfl
@[simp] theorem State.branchWritePC_draws (s : State) (v : Word) : (s.branchWritePC v).draws = s.draws := rfl

/-! ## `State.noteDevice` -/

@[simp] theorem State.noteDevice_params (s : State) (b : Bool) (ev : DeviceEvent) : (s.noteDevice b ev).params = s.params := by unfold State.noteDevice; split <;> rfl
@[simp] theorem State.noteDevice_regs (s : State) (b : Bool) (ev : DeviceEvent) : (s.noteDevice b ev).regs = s.regs := by unfold State.noteDevice; split <;> rfl
@[simp] theorem State.noteDevice_pc (s : State) (b : Bool) (ev : DeviceEvent) : (s.noteDevice b ev).pc = s.pc := by unfold State.noteDevice; split <;> rfl
@[simp] theorem State.noteDevice_flags (s : State) (b : Bool) (ev : DeviceEvent) : (s.noteDevice b ev).flags = s.flags := by unfold State.noteDevice; split <;> rfl
@[simp] theorem State.noteDevice_t (s : State) (b : Bool) (ev : DeviceEvent) : (s.noteDevice b ev).t = s.t := by unfold State.noteDevice; split <;> rfl
@[simp] theorem State.noteDevice_e (s : State) (b : Bool) (ev : DeviceEvent) : (s.noteDevice b ev).e = s.e := by unfold State.noteDevice; split <;> rfl
@[simp] theorem State.noteDevice_maskA (s : State) (b : Bool) (ev : DeviceEvent) : (s.noteDevice b ev).maskA = s.maskA := by unfold State.noteDevice; split <;> rfl
@[simp] theorem State.noteDevice_maskI (s : State) (b : Bool) (ev : DeviceEvent) : (s.noteDevice b ev).maskI = s.maskI := by unfold State.noteDevice; split <;> rfl
@[simp] theorem State.noteDevice_maskF (s : State) (b : Bool) (ev : DeviceEvent) : (s.noteDevice b ev).maskF = s.maskF := by unfold State.noteDevice; split <;> rfl
@[simp] theorem State.noteDevice_itstate (s : State) (b : Bool) (ev : DeviceEvent) : (s.noteDevice b ev).itstate = s.itstate := by unfold State.noteDevice; split <;> rfl
@[simp] theorem State.noteDevice_ev (s : State) (b : Bool) (ev : DeviceEvent) : (s.noteDevice b ev).ev = s.ev := by unfold State.noteDevice; split <;> rfl
@[simp] theorem State.noteDevice_mem (s : State) (b : Bool) (ev : DeviceEvent) : (s.noteDevice b ev).mem = s.mem := by unfold State.noteDevice; split <;> rfl
@[simp] theorem State.noteDevice_fetched (s : State) (b : Bool) (ev : DeviceEvent) : (s.noteDevice b ev).fetched = s.fetched := by unfold State.noteDevice; split <;> rfl
@[simp] theorem State.noteDevice_stepIndex (s : State) (b : Bool) (ev : DeviceEvent) : (s.noteDevice b ev).stepIndex = s.stepIndex := by unfold State.noteDevice; split <;> rfl
@[simp] theorem State.noteDevice_pending (s : State) (b : Bool) (ev : DeviceEvent) : (s.noteDevice b ev).pending = s.pending := by unfold State.noteDevice; split <;> rfl

/-! ## `State.markFetched` -/

@[simp] theorem State.markFetched_params (s : State) (a : Word) : (s.markFetched a).params = s.params := rfl
@[simp] theorem State.markFetched_regs (s : State) (a : Word) : (s.markFetched a).regs = s.regs := rfl
@[simp] theorem State.markFetched_pc (s : State) (a : Word) : (s.markFetched a).pc = s.pc := rfl
@[simp] theorem State.markFetched_flags (s : State) (a : Word) : (s.markFetched a).flags = s.flags := rfl
@[simp] theorem State.markFetched_t (s : State) (a : Word) : (s.markFetched a).t = s.t := rfl
@[simp] theorem State.markFetched_e (s : State) (a : Word) : (s.markFetched a).e = s.e := rfl
@[simp] theorem State.markFetched_maskA (s : State) (a : Word) : (s.markFetched a).maskA = s.maskA := rfl
@[simp] theorem State.markFetched_maskI (s : State) (a : Word) : (s.markFetched a).maskI = s.maskI := rfl
@[simp] theorem State.markFetched_maskF (s : State) (a : Word) : (s.markFetched a).maskF = s.maskF := rfl
@[simp] theorem State.markFetched_itstate (s : State) (a : Word) : (s.markFetched a).itstate = s.itstate := rfl
@[simp] theorem State.markFetched_ev (s : State) (a : Word) : (s.markFetched a).ev = s.ev := rfl
@[simp] theorem State.markFetched_mem (s : State) (a : Word) : (s.markFetched a).mem = s.mem := rfl
@[simp] theorem State.markFetched_deviceTrace (s : State) (a : Word) : (s.markFetched a).deviceTrace = s.deviceTrace := rfl
@[simp] theorem State.markFetched_stepIndex (s : State) (a : Word) : (s.markFetched a).stepIndex = s.stepIndex := rfl
@[simp] theorem State.markFetched_pending (s : State) (a : Word) : (s.markFetched a).pending = s.pending := rfl
@[simp] theorem State.markFetched_draws (s : State) (a : Word) : (s.markFetched a).draws = s.draws := rfl

/-! ## `State.nextStep` -/

@[simp] theorem State.nextStep_params (s : State) : (s.nextStep).params = s.params := rfl
@[simp] theorem State.nextStep_regs (s : State) : (s.nextStep).regs = s.regs := rfl
@[simp] theorem State.nextStep_pc (s : State) : (s.nextStep).pc = s.pc := rfl
@[simp] theorem State.nextStep_flags (s : State) : (s.nextStep).flags = s.flags := rfl
@[simp] theorem State.nextStep_t (s : State) : (s.nextStep).t = s.t := rfl
@[simp] theorem State.nextStep_e (s : State) : (s.nextStep).e = s.e := rfl
@[simp] theorem State.nextStep_maskA (s : State) : (s.nextStep).maskA = s.maskA := rfl
@[simp] theorem State.nextStep_maskI (s : State) : (s.nextStep).maskI = s.maskI := rfl
@[simp] theorem State.nextStep_maskF (s : State) : (s.nextStep).maskF = s.maskF := rfl
@[simp] theorem State.nextStep_itstate (s : State) : (s.nextStep).itstate = s.itstate := rfl
@[simp] theorem State.nextStep_ev (s : State) : (s.nextStep).ev = s.ev := rfl
@[simp] theorem State.nextStep_mem (s : State) : (s.nextStep).mem = s.mem := rfl
@[simp] theorem State.nextStep_fetched (s : State) : (s.nextStep).fetched = s.fetched := rfl
@[simp] theorem State.nextStep_deviceTrace (s : State) : (s.nextStep).deviceTrace = s.deviceTrace := rfl
@[simp] theorem State.nextStep_pending (s : State) : (s.nextStep).pending = s.pending := rfl
@[simp] theorem State.nextStep_draws (s : State) : (s.nextStep).draws = s.draws := rfl

/-! ## `State.receiveEvent` -/

@[simp] theorem State.receiveEvent_params (s : State) : (s.receiveEvent).params = s.params := by unfold State.receiveEvent; split <;> rfl
@[simp] theorem State.receiveEvent_regs (s : State) : (s.receiveEvent).regs = s.regs := by unfold State.receiveEvent; split <;> rfl
@[simp] theorem State.receiveEvent_pc (s : State) : (s.receiveEvent).pc = s.pc := by unfold State.receiveEvent; split <;> rfl
@[simp] theorem State.receiveEvent_flags (s : State) : (s.receiveEvent).flags = s.flags := by unfold State.receiveEvent; split <;> rfl
@[simp] theorem State.receiveEvent_t (s : State) : (s.receiveEvent).t = s.t := by unfold State.receiveEvent; split <;> rfl
@[simp] theorem State.receiveEvent_e (s : State) : (s.receiveEvent).e = s.e := by unfold State.receiveEvent; split <;> rfl
@[simp] theorem State.receiveEvent_maskA (s : State) : (s.receiveEvent).maskA = s.maskA := by unfold State.receiveEvent; split <;> rfl
@[simp] theorem State.receiveEvent_maskI (s : State) : (s.receiveEvent).maskI = s.maskI := by unfold State.receiveEvent; split <;> rfl
@[simp] theorem State.receiveEvent_maskF (s : State) : (s.receiveEvent).maskF = s.maskF := by unfold State.receiveEvent; split <;> rfl
@[simp] theorem State.receiveEvent_itstate (s : State) : (s.receiveEvent).itstate = s.itstate := by unfold State.receiveEvent; split <;> rfl
@[simp] theorem State.receiveEvent_mem (s : State) : (s.receiveEvent).mem = s.mem := by unfold State.receiveEvent; split <;> rfl
@[simp] theorem State.receiveEvent_fetched (s : State) : (s.receiveEvent).fetched = s.fetched := by unfold State.receiveEvent; split <;> rfl
@[simp] theorem State.receiveEvent_deviceTrace (s : State) : (s.receiveEvent).deviceTrace = s.deviceTrace := by unfold State.receiveEvent; split <;> rfl
@[simp] theorem State.receiveEvent_stepIndex (s : State) : (s.receiveEvent).stepIndex = s.stepIndex := by unfold State.receiveEvent; split <;> rfl
@[simp] theorem State.receiveEvent_pending (s : State) : (s.receiveEvent).pending = s.pending := by unfold State.receiveEvent; split <;> rfl
@[simp] theorem State.receiveEvent_draws (s : State) : (s.receiveEvent).draws = s.draws := by unfold State.receiveEvent; split <;> rfl

/-! ## `State.beginStep` -/

@[simp] theorem State.beginStep_params (s : State) (p : EventSet) : (s.beginStep p).params = s.params := by simp [State.beginStep]
@[simp] theorem State.beginStep_regs (s : State) (p : EventSet) : (s.beginStep p).regs = s.regs := by simp [State.beginStep]
@[simp] theorem State.beginStep_pc (s : State) (p : EventSet) : (s.beginStep p).pc = s.pc := by simp [State.beginStep]
@[simp] theorem State.beginStep_flags (s : State) (p : EventSet) : (s.beginStep p).flags = s.flags := by simp [State.beginStep]
@[simp] theorem State.beginStep_t (s : State) (p : EventSet) : (s.beginStep p).t = s.t := by simp [State.beginStep]
@[simp] theorem State.beginStep_e (s : State) (p : EventSet) : (s.beginStep p).e = s.e := by simp [State.beginStep]
@[simp] theorem State.beginStep_maskA (s : State) (p : EventSet) : (s.beginStep p).maskA = s.maskA := by simp [State.beginStep]
@[simp] theorem State.beginStep_maskI (s : State) (p : EventSet) : (s.beginStep p).maskI = s.maskI := by simp [State.beginStep]
@[simp] theorem State.beginStep_maskF (s : State) (p : EventSet) : (s.beginStep p).maskF = s.maskF := by simp [State.beginStep]
@[simp] theorem State.beginStep_itstate (s : State) (p : EventSet) : (s.beginStep p).itstate = s.itstate := by simp [State.beginStep]
@[simp] theorem State.beginStep_mem (s : State) (p : EventSet) : (s.beginStep p).mem = s.mem := by simp [State.beginStep]
@[simp] theorem State.beginStep_fetched (s : State) (p : EventSet) : (s.beginStep p).fetched = s.fetched := by simp [State.beginStep]
@[simp] theorem State.beginStep_deviceTrace (s : State) (p : EventSet) : (s.beginStep p).deviceTrace = s.deviceTrace := by simp [State.beginStep]
@[simp] theorem State.beginStep_stepIndex (s : State) (p : EventSet) : (s.beginStep p).stepIndex = s.stepIndex := by simp [State.beginStep]
@[simp] theorem State.beginStep_draws (s : State) (p : EventSet) : (s.beginStep p).draws = s.draws := by simp [State.beginStep]

/-! ## `State.setMasks` -/

@[simp] theorem State.setMasks_params (s : State) (a i f v : Bool) : (s.setMasks a i f v).params = s.params := by unfold State.setMasks; split <;> rfl
@[simp] theorem State.setMasks_regs (s : State) (a i f v : Bool) : (s.setMasks a i f v).regs = s.regs := by unfold State.setMasks; split <;> rfl
@[simp] theorem State.setMasks_pc (s : State) (a i f v : Bool) : (s.setMasks a i f v).pc = s.pc := by unfold State.setMasks; split <;> rfl
@[simp] theorem State.setMasks_flags (s : State) (a i f v : Bool) : (s.setMasks a i f v).flags = s.flags := by unfold State.setMasks; split <;> rfl
@[simp] theorem State.setMasks_t (s : State) (a i f v : Bool) : (s.setMasks a i f v).t = s.t := by unfold State.setMasks; split <;> rfl
@[simp] theorem State.setMasks_e (s : State) (a i f v : Bool) : (s.setMasks a i f v).e = s.e := by unfold State.setMasks; split <;> rfl
@[simp] theorem State.setMasks_itstate (s : State) (a i f v : Bool) : (s.setMasks a i f v).itstate = s.itstate := by unfold State.setMasks; split <;> rfl
@[simp] theorem State.setMasks_ev (s : State) (a i f v : Bool) : (s.setMasks a i f v).ev = s.ev := by unfold State.setMasks; split <;> rfl
@[simp] theorem State.setMasks_mem (s : State) (a i f v : Bool) : (s.setMasks a i f v).mem = s.mem := by unfold State.setMasks; split <;> rfl
@[simp] theorem State.setMasks_fetched (s : State) (a i f v : Bool) : (s.setMasks a i f v).fetched = s.fetched := by unfold State.setMasks; split <;> rfl
@[simp] theorem State.setMasks_deviceTrace (s : State) (a i f v : Bool) : (s.setMasks a i f v).deviceTrace = s.deviceTrace := by unfold State.setMasks; split <;> rfl
@[simp] theorem State.setMasks_stepIndex (s : State) (a i f v : Bool) : (s.setMasks a i f v).stepIndex = s.stepIndex := by unfold State.setMasks; split <;> rfl
@[simp] theorem State.setMasks_pending (s : State) (a i f v : Bool) : (s.setMasks a i f v).pending = s.pending := by unfold State.setMasks; split <;> rfl
@[simp] theorem State.setMasks_draws (s : State) (a i f v : Bool) : (s.setMasks a i f v).draws = s.draws := by unfold State.setMasks; split <;> rfl

/-! ## `State.useMulDraw` -/

@[simp] theorem State.useMulDraw_params (s : State) : (s.useMulDraw).params = s.params := by unfold State.useMulDraw; split <;> rfl
@[simp] theorem State.useMulDraw_regs (s : State) : (s.useMulDraw).regs = s.regs := by unfold State.useMulDraw; split <;> rfl
@[simp] theorem State.useMulDraw_pc (s : State) : (s.useMulDraw).pc = s.pc := by unfold State.useMulDraw; split <;> rfl
@[simp] theorem State.useMulDraw_flags (s : State) : (s.useMulDraw).flags = s.flags := by unfold State.useMulDraw; split <;> rfl
@[simp] theorem State.useMulDraw_t (s : State) : (s.useMulDraw).t = s.t := by unfold State.useMulDraw; split <;> rfl
@[simp] theorem State.useMulDraw_e (s : State) : (s.useMulDraw).e = s.e := by unfold State.useMulDraw; split <;> rfl
@[simp] theorem State.useMulDraw_maskA (s : State) : (s.useMulDraw).maskA = s.maskA := by unfold State.useMulDraw; split <;> rfl
@[simp] theorem State.useMulDraw_maskI (s : State) : (s.useMulDraw).maskI = s.maskI := by unfold State.useMulDraw; split <;> rfl
@[simp] theorem State.useMulDraw_maskF (s : State) : (s.useMulDraw).maskF = s.maskF := by unfold State.useMulDraw; split <;> rfl
@[simp] theorem State.useMulDraw_itstate (s : State) : (s.useMulDraw).itstate = s.itstate := by unfold State.useMulDraw; split <;> rfl
@[simp] theorem State.useMulDraw_ev (s : State) : (s.useMulDraw).ev = s.ev := by unfold State.useMulDraw; split <;> rfl
@[simp] theorem State.useMulDraw_mem (s : State) : (s.useMulDraw).mem = s.mem := by unfold State.useMulDraw; split <;> rfl
@[simp] theorem State.useMulDraw_fetched (s : State) : (s.useMulDraw).fetched = s.fetched := by unfold State.useMulDraw; split <;> rfl
@[simp] theorem State.useMulDraw_deviceTrace (s : State) : (s.useMulDraw).deviceTrace = s.deviceTrace := by unfold State.useMulDraw; split <;> rfl
@[simp] theorem State.useMulDraw_stepIndex (s : State) : (s.useMulDraw).stepIndex = s.stepIndex := by unfold State.useMulDraw; split <;> rfl
@[simp] theorem State.useMulDraw_pending (s : State) : (s.useMulDraw).pending = s.pending := by unfold State.useMulDraw; split <;> rfl

/-! ## `State.putSum` -/

@[simp] theorem State.putSum_params (s : State) (d : LoReg) (r : Sum) : (s.putSum d r).params = s.params := by simp [State.putSum]
@[simp] theorem State.putSum_pc (s : State) (d : LoReg) (r : Sum) : (s.putSum d r).pc = s.pc := by simp [State.putSum]
@[simp] theorem State.putSum_t (s : State) (d : LoReg) (r : Sum) : (s.putSum d r).t = s.t := by simp [State.putSum]
@[simp] theorem State.putSum_e (s : State) (d : LoReg) (r : Sum) : (s.putSum d r).e = s.e := by simp [State.putSum]
@[simp] theorem State.putSum_maskA (s : State) (d : LoReg) (r : Sum) : (s.putSum d r).maskA = s.maskA := by simp [State.putSum]
@[simp] theorem State.putSum_maskI (s : State) (d : LoReg) (r : Sum) : (s.putSum d r).maskI = s.maskI := by simp [State.putSum]
@[simp] theorem State.putSum_maskF (s : State) (d : LoReg) (r : Sum) : (s.putSum d r).maskF = s.maskF := by simp [State.putSum]
@[simp] theorem State.putSum_itstate (s : State) (d : LoReg) (r : Sum) : (s.putSum d r).itstate = s.itstate := by simp [State.putSum]
@[simp] theorem State.putSum_ev (s : State) (d : LoReg) (r : Sum) : (s.putSum d r).ev = s.ev := by simp [State.putSum]
@[simp] theorem State.putSum_mem (s : State) (d : LoReg) (r : Sum) : (s.putSum d r).mem = s.mem := by simp [State.putSum]
@[simp] theorem State.putSum_fetched (s : State) (d : LoReg) (r : Sum) : (s.putSum d r).fetched = s.fetched := by simp [State.putSum]
@[simp] theorem State.putSum_deviceTrace (s : State) (d : LoReg) (r : Sum) : (s.putSum d r).deviceTrace = s.deviceTrace := by simp [State.putSum]
@[simp] theorem State.putSum_stepIndex (s : State) (d : LoReg) (r : Sum) : (s.putSum d r).stepIndex = s.stepIndex := by simp [State.putSum]
@[simp] theorem State.putSum_pending (s : State) (d : LoReg) (r : Sum) : (s.putSum d r).pending = s.pending := by simp [State.putSum]
@[simp] theorem State.putSum_draws (s : State) (d : LoReg) (r : Sum) : (s.putSum d r).draws = s.draws := by simp [State.putSum]

/-! ## `State.putNZ` -/

@[simp] theorem State.putNZ_params (s : State) (d : LoReg) (v : Word) : (s.putNZ d v).params = s.params := by simp [State.putNZ]
@[simp] theorem State.putNZ_pc (s : State) (d : LoReg) (v : Word) : (s.putNZ d v).pc = s.pc := by simp [State.putNZ]
@[simp] theorem State.putNZ_t (s : State) (d : LoReg) (v : Word) : (s.putNZ d v).t = s.t := by simp [State.putNZ]
@[simp] theorem State.putNZ_e (s : State) (d : LoReg) (v : Word) : (s.putNZ d v).e = s.e := by simp [State.putNZ]
@[simp] theorem State.putNZ_maskA (s : State) (d : LoReg) (v : Word) : (s.putNZ d v).maskA = s.maskA := by simp [State.putNZ]
@[simp] theorem State.putNZ_maskI (s : State) (d : LoReg) (v : Word) : (s.putNZ d v).maskI = s.maskI := by simp [State.putNZ]
@[simp] theorem State.putNZ_maskF (s : State) (d : LoReg) (v : Word) : (s.putNZ d v).maskF = s.maskF := by simp [State.putNZ]
@[simp] theorem State.putNZ_itstate (s : State) (d : LoReg) (v : Word) : (s.putNZ d v).itstate = s.itstate := by simp [State.putNZ]
@[simp] theorem State.putNZ_ev (s : State) (d : LoReg) (v : Word) : (s.putNZ d v).ev = s.ev := by simp [State.putNZ]
@[simp] theorem State.putNZ_mem (s : State) (d : LoReg) (v : Word) : (s.putNZ d v).mem = s.mem := by simp [State.putNZ]
@[simp] theorem State.putNZ_fetched (s : State) (d : LoReg) (v : Word) : (s.putNZ d v).fetched = s.fetched := by simp [State.putNZ]
@[simp] theorem State.putNZ_deviceTrace (s : State) (d : LoReg) (v : Word) : (s.putNZ d v).deviceTrace = s.deviceTrace := by simp [State.putNZ]
@[simp] theorem State.putNZ_stepIndex (s : State) (d : LoReg) (v : Word) : (s.putNZ d v).stepIndex = s.stepIndex := by simp [State.putNZ]
@[simp] theorem State.putNZ_pending (s : State) (d : LoReg) (v : Word) : (s.putNZ d v).pending = s.pending := by simp [State.putNZ]
@[simp] theorem State.putNZ_draws (s : State) (d : LoReg) (v : Word) : (s.putNZ d v).draws = s.draws := by simp [State.putNZ]

/-! ## `State.putShifted` -/

@[simp] theorem State.putShifted_params (s : State) (d : LoReg) (r : Shifted) : (s.putShifted d r).params = s.params := by simp [State.putShifted]
@[simp] theorem State.putShifted_pc (s : State) (d : LoReg) (r : Shifted) : (s.putShifted d r).pc = s.pc := by simp [State.putShifted]
@[simp] theorem State.putShifted_t (s : State) (d : LoReg) (r : Shifted) : (s.putShifted d r).t = s.t := by simp [State.putShifted]
@[simp] theorem State.putShifted_e (s : State) (d : LoReg) (r : Shifted) : (s.putShifted d r).e = s.e := by simp [State.putShifted]
@[simp] theorem State.putShifted_maskA (s : State) (d : LoReg) (r : Shifted) : (s.putShifted d r).maskA = s.maskA := by simp [State.putShifted]
@[simp] theorem State.putShifted_maskI (s : State) (d : LoReg) (r : Shifted) : (s.putShifted d r).maskI = s.maskI := by simp [State.putShifted]
@[simp] theorem State.putShifted_maskF (s : State) (d : LoReg) (r : Shifted) : (s.putShifted d r).maskF = s.maskF := by simp [State.putShifted]
@[simp] theorem State.putShifted_itstate (s : State) (d : LoReg) (r : Shifted) : (s.putShifted d r).itstate = s.itstate := by simp [State.putShifted]
@[simp] theorem State.putShifted_ev (s : State) (d : LoReg) (r : Shifted) : (s.putShifted d r).ev = s.ev := by simp [State.putShifted]
@[simp] theorem State.putShifted_mem (s : State) (d : LoReg) (r : Shifted) : (s.putShifted d r).mem = s.mem := by simp [State.putShifted]
@[simp] theorem State.putShifted_fetched (s : State) (d : LoReg) (r : Shifted) : (s.putShifted d r).fetched = s.fetched := by simp [State.putShifted]
@[simp] theorem State.putShifted_deviceTrace (s : State) (d : LoReg) (r : Shifted) : (s.putShifted d r).deviceTrace = s.deviceTrace := by simp [State.putShifted]
@[simp] theorem State.putShifted_stepIndex (s : State) (d : LoReg) (r : Shifted) : (s.putShifted d r).stepIndex = s.stepIndex := by simp [State.putShifted]
@[simp] theorem State.putShifted_pending (s : State) (d : LoReg) (r : Shifted) : (s.putShifted d r).pending = s.pending := by simp [State.putShifted]
@[simp] theorem State.putShifted_draws (s : State) (d : LoReg) (r : Shifted) : (s.putShifted d r).draws = s.draws := by simp [State.putShifted]

/-! ## What the updates write -/

@[simp] theorem State.writeFlags_flags (s : State) (f : Flags) : (s.writeFlags f).flags = f := rfl

theorem State.writeFlagsOutsideIT_flags (s : State) (f : Flags) :
    (s.writeFlagsOutsideIT f).flags = if s.inIT then s.flags else f := by
  unfold State.writeFlagsOutsideIT; split <;> rfl

theorem State.advanceIT_itstate (s : State) (it : BitVec 8) :
    (s.advanceIT it).itstate = if inBlock it then itAdvance it else s.itstate := by
  unfold State.advanceIT; split <;> rfl

@[simp] theorem State.branchWritePC_pc (s : State) (v : Word) : (s.branchWritePC v).pc = clearBit0 v := rfl

@[simp] theorem State.nextStep_stepIndex (s : State) : s.nextStep.stepIndex = s.stepIndex + 1 := rfl

@[simp] theorem State.beginStep_pending (s : State) (p : EventSet) : (s.beginStep p).pending = p := by simp [State.beginStep]

/-- R316: on V7 an event sets EV, and nothing else does at the start of a step. -/
theorem State.beginStep_ev (s : State) (p : EventSet) : (s.beginStep p).ev = ((s.params.arch.hasV7 && p.event) || s.ev) := by
  unfold State.beginStep State.receiveEvent
  cases s.params.arch.hasV7 && p.event <;> simp

/-! ## Registers -/

theorem State.x_of_lt (s : State) {r : Reg} (h : r.val < 15) : s.x r = s.regs[r.val] := by simp [State.x, h]

@[simp] theorem State.x_PC (s : State) : s.x PC = s.pc + 4#32 := rfl

theorem State.x_congr {s t : State} (hr : t.regs = s.regs) (hp : t.pc = s.pc) (r : Reg) : t.x r = s.x r := by
  unfold State.x; rw [hr, hp]

theorem State.x_congr_of_lt {s t : State} (hr : t.regs = s.regs) {r : Reg} (h : r.val < 15) : t.x r = s.x r := by
  rw [State.x_of_lt _ h, State.x_of_lt _ h]; simp [hr]

theorem State.x_setX_same (s : State) {r : Reg} (v : Word) (h : r.val < 15) : (s.setX r v).x r = v := by
  simp [State.x, State.setX, h]

theorem State.x_setX_other (s : State) {r q : Reg} (v : Word) (h : q ≠ r) : (s.setX r v).x q = s.x q := by
  unfold State.x State.setX
  by_cases hr : r.val < 15
  · by_cases hq : q.val < 15
    · have : r.val ≠ q.val := fun e => h (Fin.ext e.symm)
      simp [hr, hq, Vector.getElem_set_ne, this]
    · simp [hr, hq]
  · simp [hr]

@[simp] theorem State.setX_PC (s : State) (v : Word) : s.setX PC v = s := rfl

@[simp] theorem lo_val (r : LoReg) : (lo r).val = r.val := rfl

theorem lo_lt (r : LoReg) : (lo r).val < 15 := Nat.lt_of_lt_of_le r.isLt (by decide)

theorem lo_inj {r q : LoReg} : lo r = lo q ↔ r = q := by
  constructor
  · intro h; exact Fin.ext (congrArg (fun x : Reg => x.val) h)
  · intro h; rw [h]

theorem lo_ne_SP (r : LoReg) : lo r ≠ SP := by revert r; decide

theorem lo_ne_LR (r : LoReg) : lo r ≠ LR := by revert r; decide

theorem lo_ne_PC (r : LoReg) : lo r ≠ PC := by revert r; decide

@[simp] theorem State.x_setX_lo (s : State) (r : LoReg) (v : Word) : (s.setX (lo r) v).x (lo r) = v :=
  State.x_setX_same s v (lo_lt r)

@[simp] theorem State.x_writeFlags (s : State) (f : Flags) (r : Reg) : (s.writeFlags f).x r = s.x r := State.x_congr (by simp) (by simp) r

@[simp] theorem State.x_writeFlagsOutsideIT (s : State) (f : Flags) (r : Reg) : (s.writeFlagsOutsideIT f).x r = s.x r := State.x_congr (by simp) (by simp) r

@[simp] theorem State.x_advanceIT (s : State) (it : BitVec 8) (r : Reg) : (s.advanceIT it).x r = s.x r := State.x_congr (by simp) (by simp) r

@[simp] theorem State.x_noteDevice (s : State) (b : Bool) (ev : DeviceEvent) (r : Reg) : (s.noteDevice b ev).x r = s.x r := State.x_congr (by simp) (by simp) r

@[simp] theorem State.x_markFetched (s : State) (a : Word) (r : Reg) : (s.markFetched a).x r = s.x r := State.x_congr (by simp) (by simp) r

@[simp] theorem State.x_nextStep (s : State) (r : Reg) : (s.nextStep).x r = s.x r := State.x_congr (by simp) (by simp) r

@[simp] theorem State.x_receiveEvent (s : State) (r : Reg) : (s.receiveEvent).x r = s.x r := State.x_congr (by simp) (by simp) r

@[simp] theorem State.x_beginStep (s : State) (p : EventSet) (r : Reg) : (s.beginStep p).x r = s.x r := State.x_congr (by simp) (by simp) r

@[simp] theorem State.x_setMasks (s : State) (a i f v : Bool) (r : Reg) : (s.setMasks a i f v).x r = s.x r := State.x_congr (by simp) (by simp) r

@[simp] theorem State.x_useMulDraw (s : State) (r : Reg) : (s.useMulDraw).x r = s.x r := State.x_congr (by simp) (by simp) r

@[simp] theorem State.x_putSum_same (s : State) (d : LoReg) (v : Sum) : (s.putSum d v).x (lo d) = v.result := by simp [State.putSum]

theorem State.x_putSum_other (s : State) (d : LoReg) (v : Sum) {q : Reg} (h : q ≠ lo d) : (s.putSum d v).x q = s.x q := by
  simp [State.putSum, State.x_setX_other s _ h]

@[simp] theorem State.x_putNZ_same (s : State) (d : LoReg) (v : Word) : (s.putNZ d v).x (lo d) = v := by simp [State.putNZ]

theorem State.x_putNZ_other (s : State) (d : LoReg) (v : Word) {q : Reg} (h : q ≠ lo d) : (s.putNZ d v).x q = s.x q := by
  simp [State.putNZ, State.x_setX_other s _ h]

@[simp] theorem State.x_putShifted_same (s : State) (d : LoReg) (v : Shifted) : (s.putShifted d v).x (lo d) = v.result := by simp [State.putShifted]

theorem State.x_putShifted_other (s : State) (d : LoReg) (v : Shifted) {q : Reg} (h : q ≠ lo d) : (s.putShifted d v).x q = s.x q := by
  simp [State.putShifted, State.x_setX_other s _ h]

@[simp] theorem State.inIT_setX (s : State) (r : Reg) (v : Word) : (s.setX r v).inIT = s.inIT := by simp [State.inIT]

theorem State.putSum_flags (s : State) (d : LoReg) (r : Sum) :
    (s.putSum d r).flags = if s.inIT then s.flags else Flags.ofSum r := by
  simp [State.putSum, State.writeFlagsOutsideIT_flags]

theorem State.putNZ_flags (s : State) (d : LoReg) (v : Word) :
    (s.putNZ d v).flags = if s.inIT then s.flags else s.flags.setNZ v := by
  simp [State.putNZ, State.writeFlagsOutsideIT_flags]

theorem State.putShifted_flags (s : State) (d : LoReg) (r : Shifted) :
    (s.putShifted d r).flags = if s.inIT then s.flags else s.flags.setNZC r := by
  simp [State.putShifted, State.writeFlagsOutsideIT_flags]

end Sys2Proof.Machine
end

