-- ==== Sys2Proof/Laws/Memory.lean ====
section
/-! SUPPORT. Memory: reading after writing, the canonical form, and what each access primitive can do. -/

namespace Sys2Proof.Machine

/-! ## One byte -/

theorem Memory.read_filter_other {m : Memory} {a b : Nat} (h : b ≠ a) :
    Memory.read (m.filter (fun c => c.1 != a)) b = Memory.read m b := by
  induction m with
  | nil => rfl
  | cons c m ih =>
    obtain ⟨k, v⟩ := c
    by_cases hk : k = a
    · subst hk
      have : k ≠ b := fun e => h e.symm
      simp [Memory.read, this, ih]
    · simp [Memory.read, hk, ih]

theorem Memory.read_filter_same (m : Memory) (a : Nat) :
    Memory.read (m.filter (fun c => c.1 != a)) a = unlistedByte := by
  induction m with
  | nil => rfl
  | cons c m ih =>
    obtain ⟨k, v⟩ := c
    by_cases hk : k = a
    · simp [hk, ih]
    · simp [Memory.read, hk, ih]

theorem Memory.read_insertCell_other {m : Memory} {a b : Nat} (v : Byte) (h : b ≠ a) :
    Memory.read (Memory.insertCell (a, v) m) b = Memory.read m b := by
  have h' : a ≠ b := fun e => h e.symm
  induction m with
  | nil => simp [Memory.insertCell, Memory.read, h']
  | cons c m ih =>
    unfold Memory.insertCell
    split
    · simp [Memory.read, h']
    · simp [Memory.read, ih]

theorem Memory.read_insertCell_same {m : Memory} {a : Nat} (v : Byte) (h : ∀ c ∈ m, c.1 ≠ a) :
    Memory.read (Memory.insertCell (a, v) m) a = v := by
  induction m with
  | nil => simp [Memory.insertCell, Memory.read]
  | cons c m ih =>
    have hc : c.1 ≠ a := h c (by simp)
    unfold Memory.insertCell
    split
    · simp [Memory.read]
    · simp only [Memory.read, hc, if_false]
      exact ih fun d hd => h d (by simp [hd])

/-- A byte reads as what was written to it last. -/
@[simp] theorem Memory.read_write_same (m : Memory) (a : Nat) (v : Byte) : (m.write a v).read a = v := by
  unfold Memory.write
  simp only
  split
  · next h => rw [Memory.read_filter_same, h]
  · apply Memory.read_insertCell_same
    intro c hc
    simpa using (List.mem_filter.1 hc).2

/-- A write leaves every other byte alone. -/
theorem Memory.read_write_other (m : Memory) {a b : Nat} (v : Byte) (h : b ≠ a) : (m.write a v).read b = m.read b := by
  unfold Memory.write
  simp only
  split
  · exact Memory.read_filter_other h
  · rw [Memory.read_insertCell_other v h, Memory.read_filter_other h]

/-! ## The canonical form -/

theorem Memory.mem_insertCell {c d : Host.Cell} {m : Memory} : d ∈ Memory.insertCell c m ↔ d = c ∨ d ∈ m := by
  induction m with
  | nil => simp [Memory.insertCell]
  | cons e m ih =>
    unfold Memory.insertCell
    split
    · simp
    · simp only [List.mem_cons, ih]; tauto

theorem Memory.pairwise_insertCell {c : Host.Cell} {m : Memory} (hm : m.Pairwise (fun x y => x.1 < y.1))
    (hc : ∀ d ∈ m, d.1 ≠ c.1) : (Memory.insertCell c m).Pairwise (fun x y => x.1 < y.1) := by
  induction m with
  | nil => simp [Memory.insertCell]
  | cons e m ih =>
    rw [List.pairwise_cons] at hm
    unfold Memory.insertCell
    split
    · next h =>
      refine List.pairwise_cons.2 ⟨?_, List.pairwise_cons.2 hm⟩
      intro d hd
      rcases List.mem_cons.1 hd with rfl | hd
      · exact h
      · exact lt_trans h (hm.1 d hd)
    · next h =>
      refine List.pairwise_cons.2 ⟨?_, ih hm.2 fun d hd => hc d (by simp [hd])⟩
      intro d hd
      rcases Memory.mem_insertCell.1 hd with rfl | hd
      · have := hc e (by simp); omega
      · exact hm.1 d hd

/-- Every write of a byte of the address space keeps the canonical form. -/
theorem Memory.wf_write {m : Memory} (h : m.wf) {a : Nat} (ha : a < 2 ^ 32) (v : Byte) : (m.write a v).wf := by
  have hf : (m.filter (fun c => c.1 != a)).Pairwise (fun x y => x.1 < y.1) := h.1.filter _
  have hm : ∀ c ∈ m.filter (fun c => c.1 != a), c.1 < 2 ^ 32 ∧ c.2 ≠ unlistedByte := fun c hc =>
    h.2 c (List.mem_filter.1 hc).1
  unfold Memory.write
  simp only
  split
  · exact ⟨hf, hm⟩
  · next hv =>
    refine ⟨Memory.pairwise_insertCell hf fun d hd => by simpa using (List.mem_filter.1 hd).2, ?_⟩
    intro c hc
    rcases Memory.mem_insertCell.1 hc with rfl | hc
    · exact ⟨ha, hv⟩
    · exact hm c hc

theorem byteAddr_lt (addr : Word) (i : Nat) : byteAddr addr i < 2 ^ 32 := Nat.mod_lt _ (by decide)

/-- Storing bytes keeps the canonical form. -/
theorem Memory.wf_storeBytes (p : Params) (addr : Word) (bs : List Byte) (i : Nat) {m : Memory} (h : m.wf) :
    (storeBytes p addr i bs m).wf := by
  induction bs generalizing i m with
  | nil => exact h
  | cons b bs ih =>
    unfold storeBytes
    apply ih
    split
    · exact h
    · exact Memory.wf_write h (byteAddr_lt _ _) _

theorem Memory.wf_placeHalf (be : Bool) (addr : Word) (hw : Half) {m : Memory} (h : m.wf) :
    (Memory.placeHalf be addr hw m).wf :=
  Memory.wf_write (Memory.wf_write h (byteAddr_lt _ _) _) (byteAddr_lt _ _) _

theorem Memory.wf_empty : Memory.wf [] := ⟨List.Pairwise.nil, fun _ h => nomatch h⟩

theorem State.reset_mem_wf : Memory.wf State.reset.mem := Memory.wf_empty

theorem State.withFetchWord_mem_wf {s : State} (h : s.mem.wf) (nbits w : Nat) : (s.withFetchWord nbits w).mem.wf :=
  Memory.wf_placeHalf _ _ _ (Memory.wf_placeHalf _ _ _ h)

/-! ## The bytes of one access -/

/-- The bytes of an access lie at different addresses. -/
theorem byteAddr_inj {addr : Word} {i j : Nat} (hi : i < 2 ^ 32) (hj : j < 2 ^ 32) (h : byteAddr addr i = byteAddr addr j) :
    i = j := by
  unfold byteAddr at h
  have := addr.isLt
  omega

theorem read_storeBytes_outside (p : Params) (addr : Word) (bs : List Byte) (i : Nat) (m : Memory) {a : Nat}
    (h : ∀ j, i ≤ j → j < i + bs.length → a ≠ byteAddr addr j) : (storeBytes p addr i bs m).read a = m.read a := by
  induction bs generalizing i m with
  | nil => rfl
  | cons b bs ih =>
    unfold storeBytes
    rw [ih]
    · split
      · rfl
      · exact Memory.read_write_other _ _ (h i le_rfl (by simp))
    · intro j hj hj'
      exact h j (by omega) (by simp; omega)

theorem read_storeBytes_device (p : Params) (addr : Word) (bs : List Byte) (i : Nat) (m : Memory) {a : Nat}
    (ha : kindOf p a = .device) : (storeBytes p addr i bs m).read a = m.read a := by
  induction bs generalizing i m with
  | nil => rfl
  | cons b bs ih =>
    unfold storeBytes
    rw [ih]
    split
    · rfl
    · next h => exact Memory.read_write_other _ _ (fun e => h (e ▸ ha))

theorem read_storeBytes_inside (p : Params) (addr : Word) (bs : List Byte) (i : Nat) (m : Memory) {k : Nat}
    (hk : k < bs.length) (hlen : i + bs.length ≤ 2 ^ 32) (hd : kindOf p (byteAddr addr (i + k)) ≠ .device) :
    (storeBytes p addr i bs m).read (byteAddr addr (i + k)) = bs[k] := by
  induction bs generalizing i m k with
  | nil => simp at hk
  | cons b bs ih =>
    simp only [List.length_cons] at hk hlen
    unfold storeBytes
    cases k with
    | zero =>
      rw [read_storeBytes_outside]
      · simp only [Nat.add_zero] at hd
        simp [hd]
      · intro j hj hj' e
        have := byteAddr_inj (by omega) (by omega) e
        omega
    | succ k =>
      have e : i + (k + 1) = i + 1 + k := by omega
      rw [e] at hd ⊢
      simpa using ih (i + 1) _ (by omega) (by omega) hd

@[simp] theorem length_toLittle (n : Nat) (v : Word) : (toLittle n v).length = n := by
  induction n generalizing v with
  | zero => rfl
  | succ n ih => simp [toLittle, ih]

@[simp] theorem length_toBytes (e : Endian) (n : Nat) (v : Word) : (toBytes e n v).length = n := by
  cases e <;> simp [toBytes]

/-! ## What one access can do -/

@[simp] theorem writeNow_regs (w : Width) (addr v : Word) (s : State) : (writeNow w addr v s).regs = s.regs := by simp [writeNow]
@[simp] theorem writeNow_params (w : Width) (addr v : Word) (s : State) : (writeNow w addr v s).params = s.params := by simp [writeNow]
@[simp] theorem writeNow_pc (w : Width) (addr v : Word) (s : State) : (writeNow w addr v s).pc = s.pc := by simp [writeNow]
@[simp] theorem writeNow_flags (w : Width) (addr v : Word) (s : State) : (writeNow w addr v s).flags = s.flags := by simp [writeNow]
@[simp] theorem writeNow_t (w : Width) (addr v : Word) (s : State) : (writeNow w addr v s).t = s.t := by simp [writeNow]
@[simp] theorem writeNow_e (w : Width) (addr v : Word) (s : State) : (writeNow w addr v s).e = s.e := by simp [writeNow]
@[simp] theorem writeNow_maskA (w : Width) (addr v : Word) (s : State) : (writeNow w addr v s).maskA = s.maskA := by simp [writeNow]
@[simp] theorem writeNow_maskI (w : Width) (addr v : Word) (s : State) : (writeNow w addr v s).maskI = s.maskI := by simp [writeNow]
@[simp] theorem writeNow_maskF (w : Width) (addr v : Word) (s : State) : (writeNow w addr v s).maskF = s.maskF := by simp [writeNow]
@[simp] theorem writeNow_itstate (w : Width) (addr v : Word) (s : State) : (writeNow w addr v s).itstate = s.itstate := by simp [writeNow]
@[simp] theorem writeNow_ev (w : Width) (addr v : Word) (s : State) : (writeNow w addr v s).ev = s.ev := by simp [writeNow]
@[simp] theorem writeNow_fetched (w : Width) (addr v : Word) (s : State) : (writeNow w addr v s).fetched = s.fetched := by simp [writeNow]
@[simp] theorem writeNow_stepIndex (w : Width) (addr v : Word) (s : State) : (writeNow w addr v s).stepIndex = s.stepIndex := by simp [writeNow]
@[simp] theorem writeNow_pending (w : Width) (addr v : Word) (s : State) : (writeNow w addr v s).pending = s.pending := by simp [writeNow]
@[simp] theorem writeNow_mem (w : Width) (addr v : Word) (s : State) :
    (writeNow w addr v s).mem = storeBytes s.params addr 0 (toBytes s.e w.bytes v) s.mem := by simp [writeNow]
@[simp] theorem writeNow_x (w : Width) (addr v : Word) (s : State) (r : Reg) : (writeNow w addr v s).x r = s.x r :=
  State.x_congr (by simp) (by simp) r

/-- A read changes at most the device trace and the count of draws. -/
theorem readNow_state (w : Width) (addr : Word) (s : State) :
    (readNow w addr s).2 = s.noteDevice (s.touchesDevice w addr) (.read addr w.bytes) := rfl

/-- A read that succeeds has passed its checks and returns `readNow`. -/
theorem memRead_ok {w : Width} {addr : Word} {s : State} {r : Word × State} :
    memRead w addr s = .ok r ↔ readCheck w addr s = none ∧ r = readNow w addr s := by
  unfold memRead
  split
  · next h => simp [h]
  · next h => simp [h, eq_comm]

/-- A write that succeeds has passed its checks and returns `writeNow`. -/
theorem memWrite_ok {w : Width} {addr v : Word} {s t : State} :
    memWrite w addr v s = .ok t ↔ writeCheck w addr s = none ∧ t = writeNow w addr v s := by
  unfold memWrite
  split
  · next h => simp [h]
  · next h => simp [h, eq_comm]

theorem allBytes_iff {w : Width} {addr : Word} {ok : Nat → Bool} :
    allBytes w addr ok = true ↔ ∀ i < w.bytes, ok (byteAddr addr i) = true := by
  simp [allBytes]

/-- The checks of a read pass exactly when it is aligned and no byte is unmapped. -/
theorem readCheck_none {w : Width} {addr : Word} {s : State} :
    readCheck w addr s = none ↔ addr.toNat % w.bytes = 0 ∧ ∀ i < w.bytes, s.readable (byteAddr addr i) = true := by
  rw [← allBytes_iff]
  unfold readCheck alignmentCheck abortCheck
  cases s.params.unaligned
  by_cases h : addr.toNat % w.bytes = 0 <;> by_cases h' : allBytes w addr s.readable = true <;> simp [h, h']

/-- The checks of a write pass exactly when it is aligned and every byte admits a store. -/
theorem writeCheck_none {w : Width} {addr : Word} {s : State} :
    writeCheck w addr s = none ↔ addr.toNat % w.bytes = 0 ∧ ∀ i < w.bytes, s.writable (byteAddr addr i) = true := by
  rw [← allBytes_iff]
  unfold writeCheck alignmentCheck abortCheck
  cases s.params.unaligned
  by_cases h : addr.toNat % w.bytes = 0 <;> by_cases h' : allBytes w addr s.writable = true <;> simp [h, h']

/-! ## The set of fetched bytes -/

theorem mem_markByte {a b : Nat} {l : List Nat} : b ∈ markByte a l ↔ b = a ∨ b ∈ l := by
  induction l with
  | nil => simp [markByte]
  | cons c l ih =>
    unfold markByte
    split
    · simp
    · split
      · next h => subst h; simp
      · simp only [List.mem_cons, ih]; tauto

theorem pairwise_markByte {a : Nat} {l : List Nat} (h : l.Pairwise (· < ·)) : (markByte a l).Pairwise (· < ·) := by
  induction l with
  | nil => simp [markByte]
  | cons c l ih =>
    have hc := List.pairwise_cons.1 h
    unfold markByte
    split
    · next hlt =>
      refine List.pairwise_cons.2 ⟨?_, h⟩
      intro d hd
      rcases List.mem_cons.1 hd with rfl | hd
      · exact hlt
      · exact lt_trans hlt (hc.1 d hd)
    · split
      · exact h
      · refine List.pairwise_cons.2 ⟨?_, ih hc.2⟩
        intro d hd
        rcases mem_markByte.1 hd with rfl | hd
        · omega
        · exact hc.1 d hd

end Sys2Proof.Machine
end

