-- ==== Sys2Proof/Laws/Ops.lean ====
section
/-! SUPPORT. One lemma for each shared operation that says once what it can do; later proofs cite these and do not unfold the operations. -/

namespace Sys2Proof.Machine

/-! ## Sequencing -/

theorem andThen_next {o : Result} {k : State → Result} {t : State} :
    andThen o k = .next t ↔ ∃ u, o = .next u ∧ k u = .next t := by
  cases o <;> simp [andThen]

@[simp] theorem andThen_of_next (s : State) (k : State → Result) : andThen (.next s) k = k s := rfl

@[simp] theorem andThen_fault (f : Fault) (k : State → Result) : andThen (.fault f) k = .fault f := rfl

@[simp] theorem andThen_refused (r : Refusal) (k : State → Result) : andThen (.refused r) k = .refused r := rfl

theorem wraps_eq_false {s : State} {len : Nat} : s.wraps len = false ↔ s.pc.toNat + len < 2 ^ 32 := by
  simp [State.wraps]

/-- Sequential advance gives a next state only inside the address space, and changes only the pc. -/
theorem seqAdvance_next {s t : State} {len : Nat} :
    s.seqAdvance len = .next t ↔ s.pc.toNat + len < 2 ^ 32 ∧ t = { s with pc := s.pc + BitVec.ofNat 32 len } := by
  rw [← wraps_eq_false]
  unfold State.seqAdvance raiseUnpredictable raise State.nextPc
  cases s.wraps len <;> simp [eq_comm]

/-- The state in which a sequential instruction ends: the effect's state, with the pc and ITSTATE advanced. -/
def finished (s t : State) : State := { t with pc := s.nextPc 2 }.advanceIT s.itstate

/-- Everything a sequential instruction can do when it gives a next state. -/
theorem sequential_next {why : Option Unpredictable} {act : State → Result} {s u : State} :
    sequential why act s = .next u ↔
      why = none ∧ s.pc.toNat + 2 < 2 ^ 32 ∧ ∃ t, (if s.passed then act s else .next s) = .next t ∧ u = finished s t := by
  rw [← wraps_eq_false]
  unfold sequential raiseUnpredictable raise finished
  cases why with
  | some r => simp
  | none =>
    cases s.wraps 2
    · simp only [Bool.false_eq_true, if_false, andThen_next, true_and]
      constructor
      · rintro ⟨t, h, e⟩; exact ⟨t, h, (Host.Outcome.next.inj e).symm⟩
      · rintro ⟨t, h, e⟩; exact ⟨t, h, congrArg _ e.symm⟩
    · simp

/-- A sequential instruction whose checks pass runs its effect, then advances. -/
theorem sequential_runs {act : State → Result} {s : State} (h : Runs 2 s) :
    sequential none act s = andThen (act s) (fun t => .next (finished s t)) := by
  simp [sequential, wraps_eq_false.2 h.2, h.1, finished]

/-- Everything an instruction that may branch can do when it gives a next state. -/
theorem branching_next {len : Nat} {why : Option Unpredictable} {act : State → Result} {s u : State} :
    branching len why act s = .next u ↔
      why = none ∧ ∃ t, (if s.passed then act s else s.seqAdvance len) = .next t ∧ u = t.advanceIT s.itstate := by
  unfold branching raiseUnpredictable raise
  cases why with
  | some r => simp
  | none =>
    simp only [andThen_next, true_and]
    constructor
    · rintro ⟨t, h, e⟩; exact ⟨t, h, (Host.Outcome.next.inj e).symm⟩
    · rintro ⟨t, h, e⟩; exact ⟨t, h, congrArg _ e.symm⟩

theorem branching_runs {len : Nat} {act : State → Result} {s : State} (h : s.passed = true) :
    branching len none act s = andThen (act s) (fun t => .next (t.advanceIT s.itstate)) := by
  simp [branching, h]

theorem check_none {test : Bool} {r : Unpredictable} : check test r = none ↔ test = false := by
  cases test <;> simp [check]

/-! ## Writing the PC with a change of state (R26) -/

/-- `BXWritePC` goes on exactly where bit 0 is set, and then only the pc changes. -/
theorem bxWritePC_next {s t : State} {v : Word} :
    s.bxWritePC v = .next t ↔ v.getLsbD 0 = true ∧ t = s.branchWritePC v := by
  unfold State.bxWritePC leaveThumb
  cases v.getLsbD 0 <;> simp [eq_comm]

/-- `LoadWritePC` goes on where the version ignores bit 0 or it is set, and then only the pc changes. -/
theorem loadWritePC_next {s t : State} {v : Word} :
    s.loadWritePC v = .next t ↔ (s.params.arch.has5T = true → v.getLsbD 0 = true) ∧ t = s.branchWritePC v := by
  unfold State.loadWritePC
  cases s.params.arch.has5T
  · exact ⟨fun h => ⟨nofun, (Host.Outcome.next.inj h).symm⟩, fun h => congrArg Host.Outcome.next h.2.symm⟩
  · rw [if_pos rfl, bxWritePC_next]
    simp only [true_implies]

/-- `BXWritePC` with bit 0 clear leaves Thumb state, carrying the state as it stands. -/
theorem bxWritePC_leaves {s : State} {v : Word} (h : v.getLsbD 0 = false) : s.bxWritePC v = leaveThumb v s := by
  rw [State.bxWritePC, h]
  rfl

@[simp] theorem andThen_leaveThumb (v : Word) (s : State) (k : State → Result) : andThen (leaveThumb v s) k = leaveThumb v s := rfl

/-! ## What `finished` leaves -/

@[simp] theorem finished_params (s t : State) : (finished s t).params = t.params := by simp [finished]
@[simp] theorem finished_regs (s t : State) : (finished s t).regs = t.regs := by simp [finished]
@[simp] theorem finished_pc (s t : State) : (finished s t).pc = s.pc + 2#32 := by simp [finished, State.nextPc]
@[simp] theorem finished_flags (s t : State) : (finished s t).flags = t.flags := by simp [finished]
@[simp] theorem finished_t (s t : State) : (finished s t).t = t.t := by simp [finished]
@[simp] theorem finished_e (s t : State) : (finished s t).e = t.e := by simp [finished]
@[simp] theorem finished_maskA (s t : State) : (finished s t).maskA = t.maskA := by simp [finished]
@[simp] theorem finished_maskI (s t : State) : (finished s t).maskI = t.maskI := by simp [finished]
@[simp] theorem finished_maskF (s t : State) : (finished s t).maskF = t.maskF := by simp [finished]
@[simp] theorem finished_ev (s t : State) : (finished s t).ev = t.ev := by simp [finished]
@[simp] theorem finished_mem (s t : State) : (finished s t).mem = t.mem := by simp [finished]
@[simp] theorem finished_fetched (s t : State) : (finished s t).fetched = t.fetched := by simp [finished]
@[simp] theorem finished_deviceTrace (s t : State) : (finished s t).deviceTrace = t.deviceTrace := by simp [finished]
@[simp] theorem finished_stepIndex (s t : State) : (finished s t).stepIndex = t.stepIndex := by simp [finished]
@[simp] theorem finished_pending (s t : State) : (finished s t).pending = t.pending := by simp [finished]
@[simp] theorem finished_draws (s t : State) : (finished s t).draws = t.draws := by simp [finished]
theorem finished_itstate (s t : State) :
    (finished s t).itstate = if s.inIT then itAdvance s.itstate else t.itstate := by
  rw [finished, State.advanceIT_itstate]; rfl

theorem finished_x (s t : State) {r : Reg} (h : r.val < 15) : (finished s t).x r = t.x r :=
  State.x_congr_of_lt (by simp) h

@[simp] theorem finished_x_lo (s t : State) (r : LoReg) : (finished s t).x (lo r) = t.x (lo r) := finished_x s t (lo_lt r)

@[simp] theorem finished_byteAt (s t : State) (a : Nat) : (finished s t).byteAt a = t.byteAt a := by simp [State.byteAt]

/-- What advancing leaves of the control state. -/
theorem finished_control {s t : State} (h : SameControl s t) : SameControl s (finished s t) := by
  constructor <;> simp [h.params, h.thumb, h.endian, h.maskA, h.maskI, h.maskF, h.event, h.fetched, h.stepIndex, h.pending]

theorem finished_advances {s t : State} (h : t.itstate = s.itstate) : Advances 2 s (finished s t) := by
  refine ⟨by simp, ?_⟩
  rw [finished_itstate, h]

theorem SameControl.refl (s : State) : SameControl s s := by constructor <;> rfl

theorem SameControl.setX {s t : State} (h : SameControl s t) (r : Reg) (v : Word) : SameControl s (t.setX r v) := by
  constructor <;> simp [h.params, h.thumb, h.endian, h.maskA, h.maskI, h.maskF, h.event, h.fetched, h.stepIndex, h.pending]

theorem SameControl.noteDevice {s t : State} (h : SameControl s t) (b : Bool) (ev : DeviceEvent) :
    SameControl s (t.noteDevice b ev) := by
  constructor <;> simp [h.params, h.thumb, h.endian, h.maskA, h.maskI, h.maskF, h.event, h.fetched, h.stepIndex, h.pending]

/-! ## Loads and stores -/

/-- Everything a load can do when it gives a next state. -/
theorem loadTo_next {w : Width} {ext : Word → Word} {rt : LoReg} {addr : Word} {s t : State} :
    loadTo w ext rt addr s = .next t ↔
      readCheck w addr s = none ∧
        t = ((s.noteDevice (s.touchesDevice w addr) (.read addr w.bytes)).setX (lo rt)
              (ext (fromBytes s.e (s.sampleBytes addr w.bytes)))) := by
  unfold loadTo memRead raise readNow
  cases readCheck w addr s <;> simp [eq_comm]

/-- Everything a store can do when it gives a next state. -/
theorem storeFrom_next {w : Width} {v addr : Word} {s t : State} :
    storeFrom w v addr s = .next t ↔ writeCheck w addr s = none ∧ t = writeNow w addr v s := by
  unfold storeFrom memWrite raise
  cases writeCheck w addr s <;> simp [eq_comm]

/-- Everything a multiple store can do when it gives a next state. -/
theorem storeMultiple_next {vs : List Word} {base : Word} {s t : State} :
    storeMultiple vs base s = .next t ↔ writeChecks vs.length base s = none ∧ t = storeWords vs base s := by
  unfold storeMultiple raise
  cases writeChecks vs.length base s <;> simp [eq_comm]

theorem abortCheck_none {w : Width} {addr : Word} {ok : Nat → Bool} :
    abortCheck w addr ok = none ↔ ∀ i < w.bytes, ok (byteAddr addr i) = true := by
  rw [← allBytes_iff]
  unfold abortCheck
  cases allBytes w addr ok <;> simp

theorem abortChecks_none {ok : Nat → Bool} {n : Nat} {addr : Word} :
    abortChecks ok n addr = none ↔ ∀ j < n, ∀ i < 4, ok (byteAddr (addr + words j) i) = true := by
  induction n generalizing addr with
  | zero => simp [abortChecks]
  | succ n ih =>
    have hw : ∀ j, addr + 4#32 + words j = addr + words (j + 1) := by
      intro j
      apply BitVec.eq_of_toNat_eq
      simp only [words, BitVec.toNat_add, BitVec.toNat_ofNat]
      omega
    have h0 : addr + words 0 = addr := by simp [words]
    have hb : Width.word.bytes = 4 := rfl
    rw [abortChecks, Option.or_eq_none_iff, abortCheck_none, ih, hb]
    constructor
    · rintro ⟨h1, h2⟩ j hj
      cases j with
      | zero => rw [h0]; exact h1
      | succ j => rw [← hw]; exact h2 j (by omega)
    · intro h
      refine ⟨?_, fun j hj => ?_⟩
      · have := h 0 (by omega); rwa [h0] at this
      · rw [hw]; exact h (j + 1) (by omega)

/-- The checks of a multiple read pass exactly when the base is word-aligned and no byte of it is unmapped. -/
theorem readChecks_none {n : Nat} {base : Word} {s : State} :
    readChecks n base s = none ↔
      base.toNat % 4 = 0 ∧ ∀ j < n, ∀ i < 4, s.readable (byteAddr (base + words j) i) = true := by
  rw [← abortChecks_none]
  unfold readChecks alignmentCheck
  cases s.params.unaligned
  have hb : Width.word.bytes = 4 := rfl
  by_cases h : base.toNat % 4 = 0 <;> simp [h, hb]

/-- The checks of a multiple write pass exactly when the base is word-aligned and every byte of it admits a store. -/
theorem writeChecks_none {n : Nat} {base : Word} {s : State} :
    writeChecks n base s = none ↔
      base.toNat % 4 = 0 ∧ ∀ j < n, ∀ i < 4, s.writable (byteAddr (base + words j) i) = true := by
  rw [← abortChecks_none]
  unfold writeChecks alignmentCheck
  cases s.params.unaligned
  have hb : Width.word.bytes = 4 := rfl
  by_cases h : base.toNat % 4 = 0 <;> simp [h, hb]

/-- A multiple load changes registers, the device trace and the draws, and nothing else. -/
theorem loadRegs_fields (rs : List LoReg) (addr : Word) (s : State) :
    SameControl s (loadRegs rs addr s) ∧ (loadRegs rs addr s).pc = s.pc ∧ (loadRegs rs addr s).flags = s.flags ∧
      (loadRegs rs addr s).itstate = s.itstate ∧ (loadRegs rs addr s).mem = s.mem := by
  induction rs generalizing addr s with
  | nil => exact ⟨SameControl.refl s, rfl, rfl, rfl, rfl⟩
  | cons r rs ih =>
    obtain ⟨hc, h1, h2, h3, h4⟩ := ih (addr + 4#32) ((readNow .word addr s).2.setX (lo r) (readNow .word addr s).1)
    rw [readNow_state] at *
    refine ⟨?_, ?_, ?_, ?_, ?_⟩
    · simp only [loadRegs, readNow_state]
      constructor
      · simpa using hc.params
      · simpa using hc.thumb
      · simpa using hc.endian
      · simpa using hc.maskA
      · simpa using hc.maskI
      · simpa using hc.maskF
      · simpa using hc.event
      · simpa using hc.fetched
      · simpa using hc.stepIndex
      · simpa using hc.pending
    · simpa [loadRegs, readNow_state] using h1
    · simpa [loadRegs, readNow_state] using h2
    · simpa [loadRegs, readNow_state] using h3
    · simpa [loadRegs, readNow_state] using h4

/-- A multiple load leaves every register that is not listed. -/
theorem loadRegs_x_other (rs : List LoReg) (addr : Word) (s : State) {q : Reg} (h : ∀ r ∈ rs, q ≠ lo r) :
    (loadRegs rs addr s).x q = s.x q := by
  induction rs generalizing addr s with
  | nil => rfl
  | cons r rs ih =>
    simp only [loadRegs, readNow_state]
    rw [ih _ _ fun r' hr' => h r' (by simp [hr']), State.x_setX_other _ _ (h r (by simp))]
    simp

/-- A multiple store changes memory, the device trace and the draws, and nothing else. -/
theorem storeWords_fields (vs : List Word) (addr : Word) (s : State) :
    SameControl s (storeWords vs addr s) ∧ (storeWords vs addr s).regs = s.regs ∧ (storeWords vs addr s).pc = s.pc ∧
      (storeWords vs addr s).flags = s.flags ∧ (storeWords vs addr s).itstate = s.itstate := by
  induction vs generalizing addr s with
  | nil => exact ⟨SameControl.refl s, rfl, rfl, rfl, rfl⟩
  | cons v vs ih =>
    obtain ⟨hc, h1, h2, h3, h4⟩ := ih (addr + 4#32) (writeNow .word addr v s)
    simp only [storeWords]
    refine ⟨?_, by simpa using h1, by simpa using h2, by simpa using h3, by simpa using h4⟩
    constructor
    · simpa using hc.params
    · simpa using hc.thumb
    · simpa using hc.endian
    · simpa using hc.maskA
    · simpa using hc.maskI
    · simpa using hc.maskF
    · simpa using hc.event
    · simpa using hc.fetched
    · simpa using hc.stepIndex
    · simpa using hc.pending

/-- A multiple store keeps the canonical form of memory. -/
theorem storeWords_wf (vs : List Word) (addr : Word) {s : State} (h : s.mem.wf) : (storeWords vs addr s).mem.wf := by
  induction vs generalizing addr s with
  | nil => exact h
  | cons v vs ih => exact ih _ (by rw [writeNow_mem]; exact Memory.wf_storeBytes _ _ _ _ h)

/-- A multiple store leaves every byte outside the stored words. -/
theorem storeWords_outside (vs : List Word) (addr : Word) (s : State) {a : Nat}
    (h : ∀ j < vs.length, ∀ i < 4, a ≠ byteAddr (addr + words j) i) : (storeWords vs addr s).mem.read a = s.mem.read a := by
  induction vs generalizing addr s with
  | nil => rfl
  | cons v vs ih =>
    have hw : ∀ j, addr + 4#32 + words j = addr + words (j + 1) := by
      intro j
      apply BitVec.eq_of_toNat_eq
      simp only [words, BitVec.toNat_add, BitVec.toNat_ofNat]
      omega
    have h0 : addr + words 0 = addr := by simp [words]
    simp only [List.length_cons] at h
    simp only [storeWords]
    rw [ih, writeNow_mem, read_storeBytes_outside]
    · intro j _ hj
      have := h 0 (by omega) j (by simpa [Width.bytes] using hj)
      rwa [h0] at this
    · intro j hj i hi
      rw [hw]
      exact h (j + 1) (by omega) i hi

end Sys2Proof.Machine
end

