-- ==== Sys2Proof/Laws/Shapes.lean ====
section
/-! SUPPORT. From what an instruction's effect does to the state, the shape of the whole instruction. -/

namespace Sys2Proof.Machine

/-- What an effect leaves alone that only writes registers and flags. -/
structure Effect (s t : State) (f : Flags) : Prop where
  flags : t.flags = f
  mem : t.mem = s.mem
  control : SameControl s t
  device : NoDevice s t
  itstate : t.itstate = s.itstate

/-- A sequential instruction whose effect writes one register completes as `WritesRegister` says. -/
theorem writesRegister_sequential {s t : State} {act : State → Result} {d : Reg} {v : Word} {f : Flags} (h : Runs 2 s)
    (ha : act s = .next t) (hd : d.val < 15) (hx : t.x d = v) (hr : ∀ q : Reg, q ≠ d → t.x q = s.x q) (e : Effect s t f) :
    WritesRegister s d v f (sequential none act s) := by
  refine ⟨finished s t, by rw [sequential_runs h, ha]; rfl, ?_, ?_, ?_, ?_, ?_, ?_, ?_⟩
  · rw [finished_x s t hd, hx]
  · simp [e.flags]
  · intro q hq hqd
    rw [finished_x s t hq]
    exact hr q (by simpa using hqd)
  · intro a; simp [State.byteAt, e.mem]
  · exact finished_control e.control
  · exact ⟨by simp [e.device.1], by simp [e.device.2]⟩
  · exact finished_advances e.itstate

/-- A sequential instruction whose effect writes only flags completes as `WritesFlags` says. -/
theorem writesFlags_sequential {s t : State} {act : State → Result} {f : Flags} (h : Runs 2 s)
    (ha : act s = .next t) (hr : ∀ q : Reg, t.x q = s.x q) (e : Effect s t f) : WritesFlags s f (sequential none act s) := by
  refine ⟨finished s t, by rw [sequential_runs h, ha]; rfl, ?_, ?_, ?_, ?_, ?_, ?_⟩
  · simp [e.flags]
  · intro q hq _
    rw [finished_x s t hq]
    exact hr q
  · intro a; simp [State.byteAt, e.mem]
  · exact finished_control e.control
  · exact ⟨by simp [e.device.1], by simp [e.device.2]⟩
  · exact finished_advances e.itstate

theorem putSum_effect (s : State) (d : LoReg) (r : Sum) : Effect s (s.putSum d r) (outsideBlock s (Flags.ofSum r)) := by
  constructor
  · rw [State.putSum_flags]; rfl
  · simp
  · constructor <;> simp
  · exact ⟨by simp, by simp⟩
  · simp

theorem putNZ_effect (s : State) (d : LoReg) (v : Word) : Effect s (s.putNZ d v) (outsideBlock s (s.flags.setNZ v)) := by
  constructor
  · rw [State.putNZ_flags]; rfl
  · simp
  · constructor <;> simp
  · exact ⟨by simp, by simp⟩
  · simp

theorem putShifted_effect (s : State) (d : LoReg) (r : Shifted) :
    Effect s (s.putShifted d r) (outsideBlock s (s.flags.setNZC r)) := by
  constructor
  · rw [State.putShifted_flags]; rfl
  · simp
  · constructor <;> simp
  · exact ⟨by simp, by simp⟩
  · simp

theorem setX_effect (s : State) (d : Reg) (v : Word) : Effect s (s.setX d v) s.flags := by
  constructor
  · simp
  · simp
  · constructor <;> simp
  · exact ⟨by simp, by simp⟩
  · simp

theorem writeFlags_effect (s : State) (f : Flags) : Effect s (s.writeFlags f) f := by
  constructor
  · simp
  · simp
  · constructor <;> simp
  · exact ⟨by simp, by simp⟩
  · simp

theorem noEffect (s : State) : Effect s s s.flags := ⟨rfl, rfl, SameControl.refl s, ⟨rfl, rfl⟩, rfl⟩

/-- The shape of the instructions that write a sum. -/
theorem putSum_writes {s : State} (h : Runs 2 s) (d : LoReg) (r : State → Sum) :
    WritesRegister s (lo d) (r s).result (outsideBlock s (Flags.ofSum (r s))) (sequential none (fun s => .next (s.putSum d (r s))) s) :=
  writesRegister_sequential h rfl (lo_lt d) (by simp) (fun _ hq => State.x_putSum_other s d _ hq) (putSum_effect s d _)

/-- The shape of the instructions that write a result, N and Z. -/
theorem putNZ_writes {s : State} (h : Runs 2 s) (d : LoReg) (v : State → Word) :
    WritesRegister s (lo d) (v s) (outsideBlock s (s.flags.setNZ (v s))) (sequential none (fun s => .next (s.putNZ d (v s))) s) :=
  writesRegister_sequential h rfl (lo_lt d) (by simp) (fun _ hq => State.x_putNZ_other s d _ hq) (putNZ_effect s d _)

/-- The shape of the instructions that write a shifted value. -/
theorem putShifted_writes {s : State} (h : Runs 2 s) (d : LoReg) (r : State → Shifted) :
    WritesRegister s (lo d) (r s).result (outsideBlock s (s.flags.setNZC (r s)))
      (sequential none (fun s => .next (s.putShifted d (r s))) s) :=
  writesRegister_sequential h rfl (lo_lt d) (by simp) (fun _ hq => State.x_putShifted_other s d _ hq) (putShifted_effect s d _)

/-- The shape of the instructions that write a register and no flag. -/
theorem setX_writes {s : State} (h : Runs 2 s) {d : Reg} (hd : d.val < 15) (v : State → Word) :
    WritesRegister s d (v s) s.flags (sequential none (fun s => .next (s.setX d (v s))) s) :=
  writesRegister_sequential h rfl hd (State.x_setX_same s _ hd) (fun _ hq => State.x_setX_other s _ hq) (setX_effect s d _)

/-- The shape of the compares. -/
theorem writeFlags_writes {s : State} (h : Runs 2 s) (f : State → Flags) :
    WritesFlags s (f s) (sequential none (fun s => .next (s.writeFlags (f s))) s) :=
  writesFlags_sequential h rfl (fun _ => by simp) (writeFlags_effect s _)

/-- The shape of an instruction that only advances. -/
theorem nothing_writes {s : State} (h : Runs 2 s) : WritesFlags s s.flags (sequential none (fun s => .next s) s) :=
  writesFlags_sequential h rfl (fun _ => rfl) (noEffect s)

theorem msb_eq_getLsbD (v : Word) : v.msb = v.getLsbD 31 := by simp [BitVec.msb_eq_getLsbD_last]

end Sys2Proof.Machine
end

