-- ==== Sys2Proof/Laws/Access.lean ====
section
/-! SUPPORT. What the accesses of memory do, in the words of Safety: values, stored bytes, traces, the order of aborts, the fetch. -/

namespace Sys2Proof.Machine

set_option linter.unusedSimpArgs false

theorem State.sampleByte_eq (s : State) (a : Nat) : s.sampleByte a = byteRead s s.draws a := rfl

theorem range_one : List.range 1 = [0] := rfl

theorem range_two : List.range 2 = [0,1] := rfl

theorem range_four : List.range 4 = [0,1,2,3] := rfl

theorem fromLittle_one (a : Byte) : fromLittle [a] = a.zeroExtend 32 := by simp [fromLittle]

theorem fromLittle_two (a b : Byte) : fromLittle [a,b] = (b ++ a : BitVec 16).zeroExtend 32 := by
  simp only [fromLittle]
  ext i hi
  simp [BitVec.getElem_append, BitVec.getLsbD_append]
  grind

theorem fromLittle_four (a b c d : Byte) : fromLittle [a,b,c,d] = (d ++ c ++ b ++ a : BitVec 32) := by
  simp only [fromLittle]
  ext i hi
  simp [BitVec.getElem_append, BitVec.getLsbD_append]
  grind

/-- The value a read returns is that of R52. -/
theorem fromBytes_sampleBytes (s : State) (w : Width) (addr : Word) :
    fromBytes s.e (s.sampleBytes addr w.bytes) = readValue s s.draws w addr := by
  cases w <;> cases h : s.e <;>
    simp [fromBytes, State.sampleBytes, Width.bytes, range_one, range_two, range_four, readValue, h, State.sampleByte_eq, fromLittle_one, fromLittle_two, fromLittle_four, -BitVec.truncate_eq_setWidth, -BitVec.zeroExtend_eq_setWidth]

theorem readable_iff {s : State} {addr : Word} {n : Nat} : (∀ i < n, s.readable (byteAddr addr i) = true) ↔ Readable s addr n := by
  simp [Readable, State.readable]

/-- The bytes that are code, as R53 and R69 say it. -/
theorem isCode_iff {s : State} {a : Nat} : s.isCode a = true ↔ IsCodeByte s a := by
  simp [State.isCode, IsCodeByte]

/-- The byte admits a store, as R53 says it. -/
theorem writable_byte_iff {s : State} {a : Nat} : s.writable a = true ↔
    kindOf s.params a ≠ .unmapped ∧ kindOf s.params a ≠ .readOnly ∧ (s.params.codeRO = true → ¬IsCodeByte s a) := by
  rw [← isCode_iff]
  cases h : s.params.codeRO <;> simp [State.writable, h, and_assoc]

theorem writable_iff {s : State} {addr : Word} {n : Nat} : (∀ i < n, s.writable (byteAddr addr i) = true) ↔ Storable s addr n := by
  simp only [Storable, writable_byte_iff]

/-- The checks of a read pass exactly when it is aligned and no byte is unmapped (R52). -/
theorem readCheck_none_iff {s : State} {w : Width} {addr : Word} :
    readCheck w addr s = none ↔ addr.toNat % w.bytes = 0 ∧ Readable s addr w.bytes := by
  rw [readCheck_none, readable_iff]

theorem readCheck_misaligned {s : State} {w : Width} {addr : Word} (h : addr.toNat % w.bytes ≠ 0) :
    readCheck w addr s = some (.alignmentFault addr) := by
  unfold readCheck alignmentCheck; cases s.params.unaligned; simp [h]

theorem readCheck_unmapped {s : State} {w : Width} {addr : Word} (h : addr.toNat % w.bytes = 0) (h2 : ¬ Readable s addr w.bytes) :
    readCheck w addr s = some (.dataAbort addr) := by
  rw [← readable_iff, ← allBytes_iff] at h2
  unfold readCheck alignmentCheck abortCheck; cases s.params.unaligned; simp [h, h2]

/-- The checks of a write pass exactly when it is aligned and every byte admits a store (R53). -/
theorem writeCheck_none_iff {s : State} {w : Width} {addr : Word} :
    writeCheck w addr s = none ↔ addr.toNat % w.bytes = 0 ∧ Storable s addr w.bytes := by
  rw [writeCheck_none, writable_iff]

theorem writeCheck_misaligned {s : State} {w : Width} {addr : Word} (h : addr.toNat % w.bytes ≠ 0) :
    writeCheck w addr s = some (.alignmentFault addr) := by
  unfold writeCheck alignmentCheck; cases s.params.unaligned; simp [h]

theorem writeCheck_denied {s : State} {w : Width} {addr : Word} (h : addr.toNat % w.bytes = 0) (h2 : ¬ Storable s addr w.bytes) :
    writeCheck w addr s = some (.dataAbort addr) := by
  rw [← writable_iff, ← allBytes_iff] at h2
  unfold writeCheck alignmentCheck abortCheck; cases s.params.unaligned; simp [h, h2]

theorem State.noteDevice_traces (s : State) (b : Bool) (ev : DeviceEvent) :
    Traces s (s.noteDevice b ev) (if b then [ev] else []) := by
  cases b <;> simp [State.noteDevice, Traces]

theorem getElem_toBytes (e : Endian) (w : Width) (v : Word) (i : Nat) (s : State) (he : s.e = e) (h : i < (toBytes e w.bytes v).length) :
    (toBytes e w.bytes v)[i] = storedByte s w v i := by
  simp at h
  cases w <;> cases e <;> simp [Width.bytes] at h <;> simp [toBytes, Width.bytes, toLittle, storedByte, he]
  all_goals
    (try subst h)
    (try interval_cases i)
  all_goals (try ext k hk); (try simp)

theorem writeNow_traces (s : State) (w addr v) :
    Traces s (writeNow w addr v s) (if s.touchesDevice w addr then [.write addr w.bytes v] else []) := by
  unfold writeNow
  cases h : s.touchesDevice w addr <;> simp [State.noteDevice, Traces]

/-- A write puts the bytes of R53. -/
theorem writeNow_inside (s : State) (w addr v) (i : Nat) (hi : i < w.bytes) (hd : kindOf s.params (byteAddr addr i) ≠ .device) :
    (writeNow w addr v s).byteAt (byteAddr addr i) = storedByte s w v i := by
  simp only [State.byteAt, writeNow_mem]
  have := read_storeBytes_inside s.params addr (toBytes s.e w.bytes v) 0 s.mem (k := i) (by simpa using hi) (by cases w <;> simp [Width.bytes]) (by simpa using hd)
  simp only [Nat.zero_add] at this
  rw [this, getElem_toBytes s.e w v i s rfl]

theorem writeNow_device (s : State) (w addr v) (a : Nat) (hd : kindOf s.params a = .device) :
    (writeNow w addr v s).byteAt a = s.byteAt a := by
  simp only [State.byteAt, writeNow_mem]
  exact read_storeBytes_device _ _ _ _ _ hd

theorem writeNow_outside (s : State) (w addr v) : SameMemOutside s (writeNow w addr v s) addr w.bytes := by
  intro a h
  simp only [State.byteAt, writeNow_mem]
  exact read_storeBytes_outside _ _ _ _ _ (fun j _ h2 => h j (by simpa using h2))

theorem writeNow_control (s : State) (w addr v) : SameControl s (writeNow w addr v s) := by constructor <;> simp

theorem add_four_add_words (addr : Word) (j : Nat) : addr + 4#32 + words j = addr + words (j+1) := by
  apply BitVec.eq_of_toNat_eq; simp [words]; omega

theorem deviceWords_succ (s : State) (base : Word) (n : Nat) :
    deviceWords s base (n+1) = deviceWords s base n ++ (if s.touchesDevice .word (base + words n) then [n] else []) := by
  simp [deviceWords, List.range_succ, List.filter_append]
  by_cases h : s.touchesDevice .word (base + words n) = true <;> simp [h]

theorem deviceWords_cons (s : State) (base : Word) (n : Nat) :
    deviceWords s base (n+1) = (if s.touchesDevice .word base then [0] else []) ++ (deviceWords s (base + 4#32) n).map (·+1) := by
  have h0 : base + words 0 = base := by simp [words]
  simp only [deviceWords, List.range_succ_eq_map, List.filter_cons, h0, List.filter_map, add_four_add_words]
  have : ((fun j => s.touchesDevice Width.word (base + words j)) ∘ Nat.succ) = (fun j => s.touchesDevice Width.word (base + words (j+1))) := rfl
  rw [this]
  split <;> simp

theorem deviceWords_one (s : State) (base : Word) : deviceWords s base 1 = if s.touchesDevice .word base then [0] else [] := by
  rw [deviceWords_cons]; simp [deviceWords]

theorem length_deviceWords_succ (s : State) (base : Word) (n : Nat) :
    (deviceWords s base (n+1)).length = (deviceWords s base 1).length + (deviceWords s (base + 4#32) n).length := by
  rw [deviceWords_cons, deviceWords_one]; simp

theorem deviceWords_congr {s t : State} (h : t.params = s.params) (base n) : deviceWords t base n = deviceWords s base n := by
  simp [deviceWords, State.touchesDevice, h]

theorem readValue_congr {s t : State} (h : t.params = s.params) (he : t.e = s.e) (hm : t.mem = s.mem) (d w addr) :
    readValue t d w addr = readValue s d w addr := by
  simp only [readValue, byteRead, State.byteAt, h, he, hm]

/-- Everything a multiple load does to registers and trace: each register gets its word, and the accesses to a device are traced in order. -/
theorem loadRegs_spec (rs : List LoReg) (base : Word) (s : State) (hnd : rs.Nodup) :
    (∀ (j : Nat) (h : j < rs.length), (loadRegs rs base s).x (lo rs[j]) = readValue s (s.draws + (deviceWords s base j).length) .word (base + words j)) ∧
    Traces s (loadRegs rs base s) ((deviceWords s base rs.length).map (fun j => .read (base + words j) 4)) := by
  induction rs generalizing base s with
  | nil => exact ⟨fun j h => by simp at h, by simp [Traces, loadRegs, deviceWords]⟩
  | cons r rs ih =>
    obtain ⟨hr, hnd⟩ := List.nodup_cons.1 hnd
    simp only [loadRegs, readNow_state]
    generalize hT : (s.noteDevice (s.touchesDevice .word base) (.read base Width.word.bytes)).setX (lo r) (readNow .word base s).1 = T
    obtain ⟨h1, h2, h3⟩ := ih (base + 4#32) T hnd
    have hp : T.params = s.params := by rw [← hT]; simp
    have he : T.e = s.e := by rw [← hT]; simp
    have hm : T.mem = s.mem := by rw [← hT]; simp
    have htr := State.noteDevice_traces s (s.touchesDevice .word base) (.read base Width.word.bytes)
    have hd : T.draws = s.draws + (deviceWords s base 1).length := by
      have := htr.2
      rw [← hT, deviceWords_one]; simp only [State.setX_draws]; rw [this]; split <;> rfl
    refine ⟨?_, ?_, ?_⟩
    · intro j hj
      cases j with
      | zero =>
        rw [List.getElem_cons_zero, loadRegs_x_other rs _ T, ← hT, State.x_setX_same _ _ (lo_lt r)]
        · have : words 0 = 0#32 := rfl
          simp only [readNow, fromBytes_sampleBytes, deviceWords, List.range_zero, List.filter_nil, List.length_nil, Nat.add_zero, this, BitVec.add_zero]
        · intro q hq e
          have : r = q := by ext; have := congrArg Fin.val e; simpa [lo] using this
          exact hr (this ▸ hq)
      | succ j =>
        have := h1 j (by simpa using hj)
        rw [List.getElem_cons_succ, this, readValue_congr hp he hm, deviceWords_congr hp, hd, add_four_add_words]
        rw [length_deviceWords_succ s base j, Nat.add_assoc]
    · rw [h2, deviceWords_congr hp, List.length_cons, deviceWords_cons, ← hT]
      have : words 0 = 0#32 := rfl
      simp [Function.comp_def, add_four_add_words, Width.bytes]
      have := htr.1
      simp only [Width.bytes] at this
      rw [this, List.append_assoc]
      split <;> simp [words]
    · rw [h3, hd]; simp; rw [length_deviceWords_succ s base rs.length, deviceWords_congr hp, Nat.add_assoc]

theorem nodup_listed (l : BitVec 8) : (listed l).Nodup := by
  unfold listed; exact (List.nodup_finRange 8).filter _

theorem readChecks_pass {s : State} {n base} (h : base.toNat % 4 = 0) (h2 : ∀ j < n, Readable s (base + words j) 4) :
    readChecks n base s = none :=
  readChecks_none.2 ⟨h, fun j hj => readable_iff.2 (h2 j hj)⟩

theorem writeChecks_pass {s : State} {n base} (h : base.toNat % 4 = 0) (h2 : ∀ j < n, Storable s (base + words j) 4) :
    writeChecks n base s = none :=
  writeChecks_none.2 ⟨h, fun j hj => writable_iff.2 (h2 j hj)⟩

theorem lo_injective {a b : LoReg} (h : lo a = lo b) : a = b := by
  ext; have := congrArg Fin.val h; simpa [lo] using this

theorem byteAddr_words (addr : Word) (j i : Nat) : byteAddr (addr + words j) i = byteAddr addr (4*j+i) := by
  simp [byteAddr, words]; omega

theorem storedByte_congr {s t : State} (h : t.e = s.e) (w v i) : storedByte t w v i = storedByte s w v i := by
  simp [storedByte, h]

/-- Everything a multiple store does to memory and trace. -/
theorem storeWords_spec (vs : List Word) (base : Word) (s : State) (hlen : 4 * vs.length ≤ 2^32) :
    HoldsWords s base vs (storeWords vs base s) ∧
    Traces s (storeWords vs base s) ((deviceWords s base vs.length).map (fun j => .write (base + words j) 4 (vs.getD j 0#32))) := by
  induction vs generalizing base s with
  | nil => refine ⟨⟨fun j h => by simp at h, fun _ _ => rfl, fun _ _ => rfl⟩, by simp [Traces, storeWords, deviceWords]⟩
  | cons v vs ih =>
    simp only [storeWords]
    have hC := writeNow_control s .word base v
    have htr := writeNow_traces s .word base v
    generalize hT : writeNow .word base v s = T at *
    have hp := hC.params
    obtain ⟨⟨h1, h2, h3⟩, h4, h5⟩ := ih (base + 4#32) T (by simp at hlen; omega)
    refine ⟨⟨?_, ?_, ?_⟩, ?_, ?_⟩
    · intro j hj i hi hd
      cases j with
      | zero =>
        have w0 : base + words 0 = base := by simp [words]
        rw [w0] at hd ⊢
        rw [h3, ← hT]
        · exact writeNow_inside s .word base v i hi hd
        · intro k hk e
          have : byteAddr (base + 4#32) k = byteAddr base (4 + k) := by
            have := byteAddr_words base 1 k; simpa [words] using this
          rw [this] at e
          have := byteAddr_inj (by omega) (by simp at hlen; omega) e
          omega
      | succ j =>
        have := h1 j (by simpa using hj) i hi (by rw [hp, add_four_add_words]; exact hd)
        rw [add_four_add_words] at this
        rw [this, storedByte_congr hC.endian]; rfl
    · intro a ha; rw [h2 a (by rw [hp]; exact ha), ← hT]; exact writeNow_device _ _ _ _ _ ha
    · intro a ha
      rw [h3, ← hT]
      · apply writeNow_outside; intro i hi; apply ha; simp [Width.bytes] at hi ⊢; omega
      · intro i hi
        have : byteAddr (base + 4#32) i = byteAddr base (4 + i) := by
            have := byteAddr_words base 1 i; simpa [words] using this
        rw [this]; apply ha; simp; omega
    · rw [h4, deviceWords_congr hp, List.length_cons, deviceWords_cons]
      simp [Function.comp_def, add_four_add_words, Width.bytes]
      have := htr.1
      simp only [Width.bytes] at this
      rw [this, List.append_assoc]
      split <;> simp [words]
    · rw [h5, htr.2]; simp; rw [length_deviceWords_succ s base vs.length, deviceWords_congr hp, deviceWords_one, Nat.add_assoc]; congr 2; split <;> rfl

theorem mem_listed {list : BitVec 8} {r : LoReg} : r ∈ listed list ↔ list.getLsbD r.val = true := by simp [listed]

theorem length_listed_le (list : BitVec 8) : (listed list).length ≤ 8 := by
  have : (listed list).length ≤ (List.finRange 8).length := List.length_filter_le _ _
  simpa using this

/-- The first word that fails its check is the one reported (R60, R64). -/
theorem abortChecks_first {ok : Nat → Bool} :
    ∀ (n : Nat) (base : Word) (j : Nat), j < n → ¬ (∀ i < 4, ok (byteAddr (base + words j) i) = true) →
    (∀ k < j, ∀ i < 4, ok (byteAddr (base + words k) i) = true) → abortChecks ok n base = some (.dataAbort (base + words j)) := by
  intro n
  induction n with
  | zero => intro _ _ h; omega
  | succ n ih =>
    intro base j hj hbad hgood
    have w0 : base + words 0 = base := by simp [words]
    cases j with
    | zero =>
      rw [w0] at hbad ⊢
      have : allBytes .word base ok = false := by
        rw [← Bool.not_eq_true, allBytes_iff]; exact hbad
      simp [abortChecks, abortCheck, this]
    | succ j =>
      have : allBytes .word base ok = true := by
        rw [allBytes_iff]; have := hgood 0 (by omega); rw [w0] at this; exact this
      simp only [abortChecks, abortCheck, this]
      simp
      rw [ih (base + 4#32) j (by omega) (by rw [add_four_add_words]; exact hbad) (by intro k hk; rw [add_four_add_words]; exact hgood (k+1) (by omega)), add_four_add_words]

theorem readChecks_misaligned {s : State} {n base} (h : base.toNat % 4 ≠ 0) :
    readChecks n base s = some (.alignmentFault base) := by
  unfold readChecks alignmentCheck; cases s.params.unaligned; simp [Width.bytes, h]

theorem writeChecks_misaligned {s : State} {n base} (h : base.toNat % 4 ≠ 0) :
    writeChecks n base s = some (.alignmentFault base) := by
  unfold writeChecks alignmentCheck; cases s.params.unaligned; simp [Width.bytes, h]

theorem readChecks_unmapped {s : State} {n base} (h : base.toNat % 4 = 0) (j) (hj : j < n) (hb : ¬ Readable s (base + words j) 4) (hg : ∀ k < j, Readable s (base + words k) 4) :
    readChecks n base s = some (.dataAbort (base + words j)) := by
  unfold readChecks alignmentCheck; cases s.params.unaligned; simp [Width.bytes, h]
  apply abortChecks_first n base j hj
  · rw [readable_iff]; exact hb
  · intro k hk; rw [readable_iff]; exact hg k hk

theorem writeChecks_denied {s : State} {n base} (h : base.toNat % 4 = 0) (j) (hj : j < n) (hb : ¬ Storable s (base + words j) 4) (hg : ∀ k < j, Storable s (base + words k) 4) :
    writeChecks n base s = some (.dataAbort (base + words j)) := by
  unfold writeChecks alignmentCheck; cases s.params.unaligned; simp [Width.bytes, h]
  apply abortChecks_first n base j hj
  · rw [writable_iff]; exact hb
  · intro k hk; rw [writable_iff]; exact hg k hk

/-- A stop ends the run where the environment gives no state, and otherwise the run goes on from the state it gives, with the parameters
of before and the next step index. -/
theorem resumeAt_eq (env : EnvResume) (s : State) (stop : Stop) (o : Result) :
    resumeAt env s stop o = match env stop (carriedState s stop) with
      | some t => .next { t with params := s.params, stepIndex := s.stepIndex + 1 }
      | none => o := rfl

theorem resumeUnder_neverResumes (s : State) (o : Result) : resumeUnder neverResumes s o = o := by cases o <;> rfl

/-- A fetch from an even, mapped address (R56). -/
theorem fetchHalfword_ok {s : State} {addr : Word} (h0 : addr.getLsbD 0 = false) (h : Readable s addr 2) :
    fetchHalfword addr s = .ok (halfAt s addr, fetchedFrom s addr) := by
  have hb : allBytes .half addr s.readable = true := by rw [allBytes_iff]; exact readable_iff.2 h
  unfold fetchHalfword; rw [h0, hb]
  simp [halfAt, joinInstr, State.sampleByte_eq, fetchedFrom, State.markFetched, State.noteDevice]
  cases s.touchesDevice .half addr <;> simp

theorem zimm4_eq {n} (h : n ≤ 30) (i : BitVec n) : zimm4 i = BitVec.ofNat 32 (4 * i.toNat) := by
  apply BitVec.eq_of_toNat_eq
  have := i.isLt
  have h2 : 2^n ≤ 2^30 := Nat.pow_le_pow_right (by decide) h
  simp only [zimm4, BitVec.zeroExtend_eq_setWidth, BitVec.toNat_shiftLeft, BitVec.toNat_setWidth, BitVec.toNat_ofNat, Nat.shiftLeft_eq]
  rw [Nat.mod_eq_of_lt (by omega : i.toNat < 2^32)]
  omega

theorem zimm2_eq {n} (h : n ≤ 30) (i : BitVec n) : zimm2 i = BitVec.ofNat 32 (2 * i.toNat) := by
  apply BitVec.eq_of_toNat_eq
  have := i.isLt
  have h2 : 2^n ≤ 2^30 := Nat.pow_le_pow_right (by decide) h
  simp only [zimm2, BitVec.zeroExtend_eq_setWidth, BitVec.toNat_shiftLeft, BitVec.toNat_setWidth, BitVec.toNat_ofNat, Nat.shiftLeft_eq]
  rw [Nat.mod_eq_of_lt (by omega : i.toNat < 2^32)]
  omega

theorem zimm_eq {n} (i : BitVec n) : zimm i = BitVec.ofNat 32 i.toNat := by
  apply BitVec.eq_of_toNat_eq; simp [zimm]

end Sys2Proof.Machine
end

