-- ==== Sys2Proof/Laws/Step.lean ====
section
/-! SUPPORT. What one step can do when it completes, and what the environment can make of one that stops. -/

namespace Sys2Proof.Machine

/-- A stop becomes a next state exactly where the environment gives one, under the parameters of before and with the next step index. -/
theorem resumeAt_next {env : EnvResume} {s t : State} {stop : Stop} {o : Result} (ho : o ≠ .next t) :
    resumeAt env s stop o = .next t ↔
      ∃ u, env stop (carriedState s stop) = some u ∧ t = { u with params := s.params, stepIndex := s.stepIndex + 1 } := by
  unfold resumeAt
  cases env stop (carriedState s stop) <;> simp [ho, eq_comm]

theorem runDecoded_next {d : Decoded} {s t : State} :
    runDecoded d s = .next t ↔ ∃ i v, d = .instr i ∧ exec i s = .next v ∧ t = v.nextStep := by
  cases d with
  | instr i =>
    rw [runDecoded, andThen_next]
    exact ⟨fun ⟨v, h, e⟩ => ⟨i, v, rfl, h, (Host.Outcome.next.inj e).symm⟩,
      fun ⟨_, v, hd, h, e⟩ => ⟨v, (Decoded.instr.inj hd) ▸ h, congrArg Host.Outcome.next e.symm⟩⟩
  | _ => simp [runDecoded, raise, raiseUnpredictable]

/-- Everything a completed step has done: it began in Thumb state, took no interrupt, fetched halfwords that decode to an instruction, and
that instruction completed. -/
theorem stepUnder_next {irq : IrqOracle} {s t : State} :
    stepUnder irq neverResumes s = .next t ↔
      s.t = .thumb ∧ (s.beginStep (irq s.stepIndex)).interruptTaken = none ∧
        ∃ hw1 hw2 u i v, fetchInstr (s.beginStep (irq s.stepIndex)) = .ok (hw1, hw2, u) ∧
          decode s.params.arch hw1 hw2 = .instr i ∧ exec i u = .next v ∧ t = v.nextStep := by
  unfold stepUnder cycle
  rw [resumeUnder_neverResumes]
  cases s.t with
  | arm => simp [leaveThumb]
  | thumb =>
    cases (s.beginStep (irq s.stepIndex)).interruptTaken with
    | some k => simp [raise]
    | none =>
      simp only [fetchAndRun, true_and]
      cases fetchInstr (s.beginStep (irq s.stepIndex)) with
      | error f => simp [raise]
      | ok p =>
        obtain ⟨hw1, hw2, u⟩ := p
        simp only [runDecoded_next, State.beginStep_params]
        constructor
        · rintro ⟨i, v, h1, h2, h3⟩
          exact ⟨hw1, hw2, u, i, v, rfl, h1, h2, h3⟩
        · rintro ⟨a, b, c, i, v, h0, h1, h2, h3⟩
          cases h0
          exact ⟨i, v, h1, h2, h3⟩

theorem step_eq (s : State) : step s = stepUnder s.params.irqOracle neverResumes s := rfl

end Sys2Proof.Machine
end

