-- ==== Sys2Proof/Tests/Slice0.lean ====
section
/-! SUPPORT. Tests: ill-formed terms, one word of each row decoded and encoded, one step of each instruction, and for each statement with hypotheses a state that meets them.  Expected results come from 95_test_vectors.md and from the rules, by hand. -/

namespace Sys2Proof.Tests

/- One theorem at a time: a thread for each of these small theorems runs out of threads. -/
set_option Elab.async false

open Sys2Proof.Machine

/-! ## Well-formedness: a term that each check refuses, beside one at the edge that passes -/

theorem test_wf_lsls_shift : Instr.wf (.lslsImm 0 1 0#5) = false ∧ Instr.wf (.lslsImm 0 1 1#5) = true := by decide

theorem test_wf_hint_number : Instr.wf (.hint 4#4) = false ∧ Instr.wf (.hint 5#4) = true := by decide

theorem test_wf_it_mask : Instr.wf (.it 0#4 0#4) = false ∧ Instr.wf (.it 0#4 1#4) = true := by decide

theorem test_wf_bcond_condition : Instr.wf (.bCond 14#4 0#8) = false ∧ Instr.wf (.bCond 13#4 0#8) = true := by decide

theorem test_since_cbz : Instr.availableAt .v6 (.cbz 0 0#6) = false ∧ Instr.availableAt .v6T2 (.cbz 0 0#6) = true := by decide

theorem test_since_far_bl :
    Instr.availableAt .v6 (.bl 0x200000#24) = false ∧ Instr.availableAt .v6 (.bl 0x1FFFFF#24) = true ∧
      Instr.availableAt .v6T2 (.bl 0x200000#24) = true := by decide

/-! ## Decoding: one word of every row, its bits written out in the fields of R82, decoded on V7 and encoded back -/

/-- The halfword decodes to the instruction on V7, and is the instruction's encoding. -/
def codes (p : Half × Instr) : Bool := decode .v7 p.1 0#16 == .instr p.2 && encode p.2 == [p.1]

theorem test_decode_shift_immediate :
    ([(0b000_00_00000_010_001, .movsReg 1 2), (0b000_00_11111_010_001, .lslsImm 1 2 31),
      (0b000_01_00000_010_001, .lsrsImm 1 2 0),
      (0b000_10_10000_010_001, .asrsImm 1 2 16)] : List (Half × Instr)).all codes = true := by decide +kernel

theorem test_decode_add_subtract :
    ([(0b00011_0_0_110_101_011, .addsReg 3 5 6), (0b00011_0_1_110_101_011, .subsReg 3 5 6),
      (0b00011_1_0_110_101_011, .addsImm3 3 5 6),
      (0b00011_1_1_110_101_011, .subsImm3 3 5 6)] : List (Half × Instr)).all codes = true := by decide +kernel

theorem test_decode_immediate_8 :
    ([(0b001_00_110_10000001, .movsImm 6 0x81), (0b001_01_110_10000001, .cmpImm 6 0x81),
      (0b001_10_110_10000001, .addsImm8 6 0x81),
      (0b001_11_110_10000001, .subsImm8 6 0x81)] : List (Half × Instr)).all codes = true := by decide +kernel

theorem test_decode_data_processing :
    ([(0b010000_0000_110_011, .ands 3 6), (0b010000_0001_110_011, .eors 3 6), (0b010000_0010_110_011, .lslsReg 3 6),
      (0b010000_0011_110_011, .lsrsReg 3 6), (0b010000_0100_110_011, .asrsReg 3 6), (0b010000_0101_110_011, .adcs 3 6),
      (0b010000_0110_110_011, .sbcs 3 6), (0b010000_0111_110_011, .rorsReg 3 6), (0b010000_1000_110_011, .tst 3 6),
      (0b010000_1001_110_011, .rsbs 3 6), (0b010000_1010_110_011, .cmpLo 3 6), (0b010000_1011_110_011, .cmn 3 6),
      (0b010000_1100_110_011, .orrs 3 6), (0b010000_1101_110_011, .muls 3 6), (0b010000_1110_110_011, .bics 3 6),
      (0b010000_1111_110_011, .mvns 3 6)] : List (Half × Instr)).all codes = true := by decide +kernel

theorem test_decode_high_register :
    ([(0b010001_00_1_0011_010, .addHi 10 3), (0b010001_01_0_1100_010, .cmpHi 2 12), (0b010001_10_1_1110_111, .movHi 15 14),
      (0b01000111_0_1110_000, .bx 14),
      (0b01000111_1_1001_000, .blxReg 9)] : List (Half × Instr)).all codes = true := by decide +kernel

theorem test_decode_load_store :
    ([(0b01001_101_11000011, .ldrLit 5 0xC3), (0b0101_000_110_101_011, .strReg 3 5 6),
      (0b0101_001_110_101_011, .strhReg 3 5 6), (0b0101_010_110_101_011, .strbReg 3 5 6),
      (0b0101_011_110_101_011, .ldrsbReg 3 5 6), (0b0101_100_110_101_011, .ldrReg 3 5 6),
      (0b0101_101_110_101_011, .ldrhReg 3 5 6), (0b0101_110_110_101_011, .ldrbReg 3 5 6),
      (0b0101_111_110_101_011, .ldrshReg 3 5 6), (0b011_0_0_10001_101_011, .strImm 3 5 17),
      (0b011_0_1_10001_101_011, .ldrImm 3 5 17), (0b011_1_0_10001_101_011, .strbImm 3 5 17),
      (0b011_1_1_10001_101_011, .ldrbImm 3 5 17), (0b1000_0_10001_101_011, .strhImm 3 5 17),
      (0b1000_1_10001_101_011, .ldrhImm 3 5 17), (0b1001_0_101_11000011, .strSp 5 0xC3),
      (0b1001_1_101_11000011, .ldrSp 5 0xC3), (0b1100_0_101_11000011, .stm 5 0xC3),
      (0b1100_1_101_11000011, .ldm 5 0xC3)] : List (Half × Instr)).all codes = true := by decide +kernel

theorem test_decode_address_and_stack :
    ([(0b1010_0_101_11000011, .adr 5 0xC3), (0b1010_1_101_11000011, .addRdSp 5 0xC3), (0b10110000_0_1000011, .addSp 0x43),
      (0b10110000_1_1000011, .subSp 0x43), (0b1011_0_10_1_11000011, .push true 0xC3),
      (0b1011_0_10_0_11000011, .push false 0xC3), (0b1011_1_10_1_11000011, .pop true 0xC3),
      (0b1011_1_10_0_11000011, .pop false 0xC3)] : List (Half × Instr)).all codes = true := by decide +kernel

theorem test_decode_branch :
    ([(0b1011_0_0_1_1_10001_101, .cbz 5 0b110001), (0b1011_1_0_0_1_10001_101, .cbnz 5 0b010001),
      (0b1101_1101_10000001, .bCond 13 0x81), (0b11100_10000000001, .b 0x401),
      (0b10111111_0001_0101, .it 1 5)] : List (Half × Instr)).all codes = true := by decide +kernel

theorem test_decode_extend_reverse :
    ([(0b10110010_00_110_011, .sxth 3 6), (0b10110010_01_110_011, .sxtb 3 6), (0b10110010_10_110_011, .uxth 3 6),
      (0b10110010_11_110_011, .uxtb 3 6), (0b10111010_00_110_011, .rev 3 6), (0b10111010_01_110_011, .rev16 3 6),
      (0b10111010_11_110_011, .revsh 3 6)] : List (Half × Instr)).all codes = true := by decide +kernel

theorem test_decode_state_hint_stop :
    ([(0b10110110_0101_0_000, .setend .little), (0b10110110_0101_1_000, .setend .big),
      (0b10110110_011_0_0_1_0_1, .cpsie true false true), (0b10110110_011_1_0_0_1_0, .cpsid false true false),
      (0b10111110_10000001, .bkpt 0x81), (0b10111111_0000_0000, .nop), (0b10111111_0001_0000, .yield),
      (0b10111111_0010_0000, .wfe), (0b10111111_0011_0000, .wfi), (0b10111111_0100_0000, .sev),
      (0b10111111_0101_0000, .hint 5), (0b11011110_10000001, .udf 0x81),
      (0b11011111_10000001, .svc 0x81)] : List (Half × Instr)).all codes = true := by decide +kernel

theorem test_decode_long_branch :
    decode .v7 0b11110_1_1111111111 0b11_1_1_1_11111111110 = .instr (.bl 0xFFFFFE) ∧
      encode (.bl 0xFFFFFE) = [0b11110_1_1111111111, 0b11_1_1_1_11111111110] ∧
      decode .v7 0b11110_0_0000000101 0b11_0_0_1_0000000011_0 = .instr (.blxLabel 0x201403) ∧
      encode (.blxLabel 0x201403) = [0b11110_0_0000000101, 0b11_0_0_1_0000000011_0] := by decide +kernel

theorem test_decode_rejects :
    decode .v7 0xBA80 0 = .undefined 0xBA80 ∧ decode .v7 0x4701 0 = .bxShouldBeZero ∧
      decode .v7 0xE800 0 = .notOnCard 0xE800 0 ∧ decode .v6 0xE800 0 = .unpairedHalf ∧
      decode .v7 0xF000 0xE801 = .undefinedPair 0xF000 0xE801 ∧ decode .v6 0xF3FF 0xD7FF = .unpairedHalf ∧
      decode .v5T 0xB208 0 = .undefined 0xB208 := by decide +kernel

theorem test_table_words :
    decodeTableWord 16 0x1888 = some (.addsReg 0 1 2) ∧ decodeTableWord 32 0xF000F802 = some (.bl 2) ∧
      decodeTableWord 32 0xF802F000 = some (.bl 2) := by decide +kernel

/-! ## One step of each instruction -/

/-- The result is a next state that passes the test. -/
def gives (o : Result) (p : State → Bool) : Bool :=
  match o with
  | .next t => p t
  | .fault _ => false
  | .refused _ => false

/-- The result is this fault. -/
def faults (o : Result) (f : Fault) : Bool :=
  match o with
  | .next _ => false
  | .fault g => g == f
  | .refused _ => false

theorem gives_next {o : Result} {p : State → Bool} (h : gives o p = true) : ∃ t, o = .next t ∧ p t = true := by
  cases o with
  | next t => exact ⟨t, rfl, h⟩
  | fault f => cases h
  | refused r => cases h

/-- Flags written as NZCV. -/
def nzcv (f : BitVec 4) : Flags := ⟨f.getLsbD 3, f.getLsbD 2, f.getLsbD 1, f.getLsbD 0⟩

/-- The reset state, at 0x8000 on V7, with registers, flags and bytes of memory given. -/
def start (rs : List (Reg × Word)) (f : BitVec 4) (bytes : List (Nat × Byte)) : State :=
  let s := rs.foldl (fun s p => s.setX p.1 p.2) State.reset
  { s with flags := nzcv f, mem := bytes.foldl (fun m p => m.write p.1 p.2) [] }

/-- The same at another version. -/
def onArch (a : Arch) (s : State) : State := { s with params := { s.params with arch := a } }

/-- The bytes of section 2.5 of the vectors. -/
def table : List (Nat × Byte) :=
  [(0x20000000, 0x11), (0x20000001, 0x22), (0x20000002, 0x33), (0x20000003, 0x44), (0x20000004, 0x55), (0x20000005, 0x66),
   (0x20000006, 0x77), (0x20000007, 0x88), (0x20000008, 0x99), (0x20000009, 0xAA), (0x2000000A, 0xBB), (0x2000000B, 0xCC)]

/-- A register result, the flags after, and the pc after. -/
def regTest (i : Instr) (rs : List (Reg × Word)) (f : BitVec 4) (d : Reg) (v : Word) (g : BitVec 4) : Bool :=
  gives (exec i (start rs f [])) (fun t => t.x d == v && t.flags == nzcv g && t.pc == 0x8002)

/-- The pc and LR after a branch, in Thumb state. -/
def pcTest (i : Instr) (s : State) (pc : Word) (lr : Word) : Bool :=
  gives (exec i s) (fun t => t.pc == pc && t.x LR == lr && t.t == .thumb)

/-- The result is `LeftThumbState(target)`, and the state it carries passes the test. -/
def leaves (o : Result) (target : Word) (p : State → Bool) : Bool :=
  match o with
  | .refused (.leftThumbState v t) => v == target && p t
  | _ => false

/-- Consecutive bytes of memory. -/
def bytesAt (t : State) (a : Nat) (bs : List Byte) : Bool :=
  (List.range bs.length).all (fun i => t.byteAt (a + i) == bs.getD i 0)

theorem test_movs_imm_zero : regTest (.movsImm 0 0) [(0, 5)] 0b1011 0 0 0b0111 = true := by decide +kernel

theorem test_movs_imm_flags : regTest (.movsImm 3 255) [] 0b1100 3 0xFF 0b0000 = true := by decide +kernel

theorem test_movs_reg : regTest (.movsReg 1 2) [(2, 0x80000000)] 0b0111 1 0x80000000 0b1011 = true := by decide +kernel

theorem test_mov_hi_no_flags : regTest (.movHi 0 9) [(0, 3)] 0b0000 0 0 0b0000 = true := by decide +kernel

theorem test_mov_reads_pc : regTest (.movHi 0 15) [] 0b0000 0 0x8004 0b0000 = true := by decide +kernel

theorem test_adds_imm3_wraps : regTest (.addsImm3 0 1 7) [(1, 0xFFFFFFFC)] 0b0000 0 3 0b0010 = true := by decide +kernel

theorem test_adds_reg_overflow :
    regTest (.addsReg 0 1 2) [(1, 0x7FFFFFFF), (2, 1)] 0b0000 0 0x80000000 0b1001 = true := by decide +kernel

theorem test_adds_reg_carry_and_overflow :
    regTest (.addsReg 0 1 2) [(1, 0x80000000), (2, 0x80000000)] 0b0000 0 0 0b0111 = true := by decide +kernel

theorem test_adds_imm8_zero : regTest (.addsImm8 0 255) [(0, 0xFFFFFF01)] 0b0000 0 0 0b0110 = true := by decide +kernel

theorem test_adcs_carry_in :
    regTest (.adcs 0 1) [(0, 0xFFFFFFFF), (1, 0xFFFFFFFF)] 0b0010 0 0xFFFFFFFF 0b1010 = true := by decide +kernel

theorem test_adcs_no_carry_in : regTest (.adcs 0 1) [(0, 1), (1, 2)] 0b0000 0 3 0b0000 = true := by decide +kernel

theorem test_add_hi_keeps_flags : regTest (.addHi 0 8) [(0, 1), (8, 0xFFFFFFFF)] 0b1001 0 0 0b1001 = true := by decide +kernel

theorem test_add_hi_pc_operand : regTest (.addHi 0 15) [(0, 0x10)] 0b0000 0 0x8014 0b0000 = true := by decide +kernel

theorem test_add_sp : regTest (.addSp 127) [(13, 0x20001000)] 0b0000 13 0x200011FC 0b0000 = true := by decide +kernel

theorem test_add_rd_sp : regTest (.addRdSp 0 255) [(13, 0x20001000)] 0b0000 0 0x200013FC 0b0000 = true := by decide +kernel

theorem test_adr : regTest (.adr 0 1) [] 0b0000 0 0x8008 0b0000 = true := by decide +kernel

theorem test_adr_aligns :
    gives (exec (.adr 0 1) { start [] 0 [] with pc := 0x8002 }) (fun t => t.x 0 == 0x8008) = true := by decide +kernel

theorem test_subs_reg_borrow : regTest (.subsReg 0 1 2) [(1, 3), (2, 5)] 0b0000 0 0xFFFFFFFE 0b1000 = true := by decide +kernel

theorem test_subs_reg_overflow :
    regTest (.subsReg 0 1 2) [(1, 0x80000000), (2, 1)] 0b0000 0 0x7FFFFFFF 0b0011 = true := by decide +kernel

theorem test_subs_imm3 : regTest (.subsImm3 0 1 1) [(1, 0)] 0b0000 0 0xFFFFFFFF 0b1000 = true := by decide +kernel

theorem test_subs_imm8 : regTest (.subsImm8 0 1) [(0, 1)] 0b0000 0 0 0b0110 = true := by decide +kernel

theorem test_sbcs_borrow_in : regTest (.sbcs 0 1) [(0, 5), (1, 3)] 0b0000 0 1 0b0010 = true := by decide +kernel

theorem test_sbcs_overflow : regTest (.sbcs 0 1) [(0, 0x80000000), (1, 0)] 0b0000 0 0x7FFFFFFF 0b0011 = true := by decide +kernel

theorem test_sub_sp : regTest (.subSp 2) [(13, 0x20001000)] 0b0000 13 0x20000FF8 0b0000 = true := by decide +kernel

theorem test_rsbs_most_negative : regTest (.rsbs 0 1) [(1, 0x80000000)] 0b0000 0 0x80000000 0b1001 = true := by decide +kernel

theorem test_rsbs_zero : regTest (.rsbs 0 1) [(1, 0)] 0b0000 0 0 0b0110 = true := by decide +kernel

theorem test_muls_keeps_cv :
    regTest (.muls 0 1) [(0, 0x9ABCDEF0), (1, 0x12345678)] 0b0011 0 0x242D2080 0b0011 = true := by decide +kernel

theorem test_muls_same_register :
    faults (exec (.muls 0 0) (onArch .v5T (start [] 0 []))) (.unpredictable .mulsSameBeforeV6) = true := by decide +kernel

theorem test_cmp_lo_overflow :
    regTest (.cmpLo 0 1) [(0, 0x7FFFFFFF), (1, 0xFFFFFFFF)] 0b0000 0 0x7FFFFFFF 0b1001 = true := by decide +kernel

theorem test_cmp_lo_sets_flags_in_block : gives (exec (.cmpLo 0 1) { start [(0, 1), (1, 2)] 0b0100 [] with itstate := 0x08 })
      (fun t => t.flags == nzcv 0b1000 && t.itstate == 0) = true := by decide +kernel

theorem test_cmp_hi : regTest (.cmpHi 8 1) [(8, 1), (1, 2)] 0b0000 8 1 0b1000 = true := by decide +kernel

theorem test_cmp_hi_two_lo : faults (exec (.cmpHi 0 1) (start [] 0 [])) (.unpredictable .cmpHiTwoLo) = true := by decide +kernel

theorem test_cmp_imm : regTest (.cmpImm 0 1) [(0, 0)] 0b0000 0 0 0b1000 = true := by decide +kernel

theorem test_cmn : regTest (.cmn 0 1) [(0, 0x7FFFFFFF), (1, 1)] 0b0000 0 0x7FFFFFFF 0b1001 = true := by decide +kernel

theorem test_ands : regTest (.ands 0 1) [(0, 0xF0F0F0F0), (1, 0x0FF00FF0)] 0b0011 0 0x00F000F0 0b0011 = true := by decide +kernel

theorem test_eors : regTest (.eors 0 1) [(0, 0xFFFF0000), (1, 0xFFFF0000)] 0b1011 0 0 0b0111 = true := by decide +kernel

theorem test_orrs : regTest (.orrs 0 1) [(0, 0x80000000), (1, 1)] 0b0100 0 0x80000001 0b1000 = true := by decide +kernel

theorem test_bics : regTest (.bics 0 1) [(0, 0xFFFFFFFF), (1, 0x0000FFFF)] 0b0000 0 0xFFFF0000 0b1000 = true := by decide +kernel

theorem test_mvns : regTest (.mvns 0 1) [(1, 0xFFFFFFFF)] 0b1011 0 0 0b0111 = true := by decide +kernel

theorem test_tst : regTest (.tst 0 1) [(0, 0x80000001), (1, 0x80000000)] 0b0111 0 0x80000001 0b1011 = true := by decide +kernel

theorem test_lsls_imm : regTest (.lslsImm 0 1 31) [(1, 0x80000001)] 0b0011 0 0x80000000 0b1001 = true := by decide +kernel

theorem test_lsls_imm_carry : regTest (.lslsImm 0 1 4) [(1, 0x12345678)] 0b0000 0 0x23456780 0b0010 = true := by decide +kernel

theorem test_lsrs_imm_32 : regTest (.lsrsImm 0 1 0) [(1, 0x80000001)] 0b0000 0 0 0b0110 = true := by decide +kernel

theorem test_lsrs_imm : regTest (.lsrsImm 0 1 4) [(1, 0x12345678)] 0b0000 0 0x01234567 0b0010 = true := by decide +kernel

theorem test_asrs_imm_32 : regTest (.asrsImm 0 1 0) [(1, 0x80000001)] 0b0000 0 0xFFFFFFFF 0b1010 = true := by decide +kernel

theorem test_asrs_imm : regTest (.asrsImm 0 1 1) [(1, 0x80000001)] 0b0000 0 0xC0000000 0b1010 = true := by decide +kernel

theorem test_lsls_reg_32 : regTest (.lslsReg 0 1) [(0, 0x80000001), (1, 32)] 0b0000 0 0 0b0110 = true := by decide +kernel

theorem test_lsls_reg_256 :
    regTest (.lslsReg 0 1) [(0, 0x80000001), (1, 256)] 0b0000 0 0x80000001 0b1000 = true := by decide +kernel

theorem test_lsrs_reg_32 : regTest (.lsrsReg 0 1) [(0, 0x80000001), (1, 0x120)] 0b0000 0 0 0b0110 = true := by decide +kernel

theorem test_lsrs_reg_0 : regTest (.lsrsReg 0 1) [(0, 0x80000001), (1, 0)] 0b0010 0 0x80000001 0b1010 = true := by decide +kernel

theorem test_asrs_reg_31 : regTest (.asrsReg 0 1) [(0, 0x80000001), (1, 31)] 0b0000 0 0xFFFFFFFF 0b1000 = true := by decide +kernel

theorem test_asrs_reg_255 :
    regTest (.asrsReg 0 1) [(0, 0x80000001), (1, 255)] 0b0000 0 0xFFFFFFFF 0b1010 = true := by decide +kernel

theorem test_rors_reg_32 : regTest (.rorsReg 0 1) [(0, 0x80000001), (1, 32)] 0b0000 0 0x80000001 0b1010 = true := by decide +kernel

theorem test_rors_reg_36 : regTest (.rorsReg 0 1) [(0, 0x12345678), (1, 36)] 0b0000 0 0x81234567 0b1010 = true := by decide +kernel

theorem test_sxth : regTest (.sxth 0 1) [(1, 0x12348000)] 0b0000 0 0xFFFF8000 0b0000 = true := by decide +kernel

theorem test_sxtb : regTest (.sxtb 0 1) [(1, 0x12345680)] 0b0000 0 0xFFFFFF80 0b0000 = true := by decide +kernel

theorem test_uxth : regTest (.uxth 0 1) [(1, 0x1234FFFF)] 0b0000 0 0xFFFF 0b0000 = true := by decide +kernel

theorem test_uxtb : regTest (.uxtb 0 1) [(1, 0x123456FF)] 0b0000 0 0xFF 0b0000 = true := by decide +kernel

theorem test_rev : regTest (.rev 0 1) [(1, 0x11223344)] 0b0000 0 0x44332211 0b0000 = true := by decide +kernel

theorem test_rev16 : regTest (.rev16 0 1) [(1, 0x11223344)] 0b0000 0 0x22114433 0b0000 = true := by decide +kernel

theorem test_revsh_negative : regTest (.revsh 0 1) [(1, 0x11223380)] 0b0000 0 0xFFFF8033 0b0000 = true := by decide +kernel

theorem test_revsh_positive : regTest (.revsh 0 1) [(1, 0x1122807F)] 0b0000 0 0x00007F80 0b0000 = true := by decide +kernel

theorem test_ldr_imm :
    gives (exec (.ldrImm 0 1 31) (start [(1, 0x1FFFFF88)] 0 table)) (fun t => t.x 0 == 0x88776655) = true := by decide +kernel

theorem test_ldr_imm_big_endian :
    gives (exec (.ldrImm 0 1 1) { start [(1, 0x20000000)] 0 table with e := .big })
      (fun t => t.x 0 == 0x55667788) = true := by decide +kernel

theorem test_ldrh_imm :
    gives (exec (.ldrhImm 0 1 1) (start [(1, 0x20000004)] 0 table)) (fun t => t.x 0 == 0x8877) = true := by decide +kernel

theorem test_ldrh_imm_big_endian :
    gives (exec (.ldrhImm 0 1 1) { start [(1, 0x20000004)] 0 table with e := .big })
      (fun t => t.x 0 == 0x7788) = true := by decide +kernel

theorem test_ldrb_imm :
    gives (exec (.ldrbImm 0 1 3) (start [(1, 0x20000004)] 0 table)) (fun t => t.x 0 == 0x88) = true := by decide +kernel

theorem test_ldr_reg_wraps :
    gives (exec (.ldrReg 0 1 2) (start [(1, 0x20000010), (2, 0xFFFFFFF8)] 0 table))
      (fun t => t.x 0 == 0xCCBBAA99) = true := by decide +kernel

theorem test_ldrh_reg :
    gives (exec (.ldrhReg 0 1 2) (start [(1, 0x20000000), (2, 6)] 0 table)) (fun t => t.x 0 == 0x8877) = true := by decide +kernel

theorem test_ldrsh_reg_negative :
    gives (exec (.ldrshReg 0 1 2) (start [(1, 0x20000000), (2, 6)] 0 table))
      (fun t => t.x 0 == 0xFFFF8877) = true := by decide +kernel

theorem test_ldrsh_reg_positive :
    gives (exec (.ldrshReg 0 1 2) (start [(1, 0x20000000), (2, 0)] 0 table)) (fun t => t.x 0 == 0x2211) = true := by decide +kernel

theorem test_ldrb_reg :
    gives (exec (.ldrbReg 0 1 2) (start [(1, 0x20000000), (2, 8)] 0 table)) (fun t => t.x 0 == 0x99) = true := by decide +kernel

theorem test_ldrsb_reg_negative :
    gives (exec (.ldrsbReg 0 1 2) (start [(1, 0x20000000), (2, 8)] 0 table))
      (fun t => t.x 0 == 0xFFFFFF99) = true := by decide +kernel

theorem test_ldrsb_reg_positive :
    gives (exec (.ldrsbReg 0 1 2) (start [(1, 0x20000000), (2, 0)] 0 table)) (fun t => t.x 0 == 0x11) = true := by decide +kernel

theorem test_ldr_sp :
    gives (exec (.ldrSp 0 1) (start [(13, 0x20000000)] 0 table)) (fun t => t.x 0 == 0x88776655) = true := by decide +kernel

theorem test_ldr_literal :
    gives (exec (.ldrLit 0 1) { start [] 0 table with pc := 0x1FFFFFFE }) (fun t => t.x 0 == 0x88776655) = true := by decide +kernel

theorem test_ldr_misaligned :
    faults (exec (.ldrImm 0 1 0) (start [(1, 0x20000002)] 0 table)) (.alignmentFault 0x20000002) = true := by decide +kernel

theorem test_ldm_write_back : gives (exec (.ldm 1 0b10000001) (start [(1, 0x20000000)] 0 table))
      (fun t => t.x 0 == 0x44332211 && t.x 7 == 0x88776655 && t.x 1 == 0x20000008) = true := by decide +kernel

theorem test_ldm_base_in_list : gives (exec (.ldm 0 0b00000011) (start [(0, 0x20000004)] 0 table))
      (fun t => t.x 0 == 0x88776655 && t.x 1 == 0xCCBBAA99) = true := by decide +kernel

theorem test_str_imm :
    gives (exec (.strImm 0 1 1) (start [(0, 0x11223344), (1, 0x20000000)] 0 []))
      (fun t => bytesAt t 0x20000004 [0x44, 0x33, 0x22, 0x11, 0x00]) = true := by decide +kernel

theorem test_str_imm_big_endian :
    gives (exec (.strImm 0 1 1) { start [(0, 0x11223344), (1, 0x20000000)] 0 [] with e := .big })
      (fun t => bytesAt t 0x20000004 [0x11, 0x22, 0x33, 0x44, 0x00]) = true := by decide +kernel

theorem test_strh_imm :
    gives (exec (.strhImm 0 1 1) (start [(0, 0x11223344), (1, 0x20000000)] 0 []))
      (fun t => bytesAt t 0x20000000 [0x00, 0x00, 0x44, 0x33, 0x00]) = true := by decide +kernel

theorem test_strh_imm_big_endian :
    gives (exec (.strhImm 0 1 1) { start [(0, 0x11223344), (1, 0x20000000)] 0 [] with e := .big })
      (fun t => bytesAt t 0x20000000 [0x00, 0x00, 0x33, 0x44, 0x00]) = true := by decide +kernel

theorem test_strb_imm :
    gives (exec (.strbImm 0 1 1) (start [(0, 0x11223344), (1, 0x20000000)] 0 []))
      (fun t => bytesAt t 0x20000000 [0x00, 0x44, 0x00, 0x00]) = true := by decide +kernel

theorem test_str_reg :
    gives (exec (.strReg 0 1 2) (start [(0, 0xDEADBEEF), (1, 0x20000000), (2, 8)] 0 []))
      (fun t => bytesAt t 0x20000008 [0xEF, 0xBE, 0xAD, 0xDE, 0x00]) = true := by decide +kernel

theorem test_strh_reg :
    gives (exec (.strhReg 0 1 2) (start [(0, 0xDEADBEEF), (1, 0x20000000), (2, 8)] 0 []))
      (fun t => bytesAt t 0x20000008 [0xEF, 0xBE, 0x00, 0x00]) = true := by decide +kernel

theorem test_strb_reg :
    gives (exec (.strbReg 0 1 2) (start [(0, 0xDEADBEEF), (1, 0x20000000), (2, 9)] 0 []))
      (fun t => bytesAt t 0x20000008 [0x00, 0xEF, 0x00, 0x00]) = true := by decide +kernel

theorem test_str_sp :
    gives (exec (.strSp 0 2) (start [(0, 0xCAFEF00D), (13, 0x20000000)] 0 []))
      (fun t => bytesAt t 0x20000008 [0x0D, 0xF0, 0xFE, 0xCA, 0x00]) = true := by decide +kernel

theorem test_stm_base_lowest : gives (exec (.stm 0 0b00000011) (start [(0, 0x20000000), (1, 0x11111111)] 0 []))
     
      (fun t => bytesAt t 0x20000000 [0x00, 0x00, 0x00, 0x20, 0x11, 0x11, 0x11, 0x11, 0x00] && t.x 0 == 0x20000008) = true := by decide +kernel

theorem test_stm_base_not_lowest :
    faults (exec (.stm 1 0b00000011) (start [] 0 [])) (.unpredictable .stmBaseNotLowest) = true := by decide +kernel

theorem test_push : gives (exec (.push true 0b00000011) (start [(0, 0xA0), (1, 0xA1), (13, 0x20001000), (14, 0x00008123)] 0 []))
     
      (fun t => t.x SP == 0x20000FF4 && bytesAt t 0x20000FF4 [0xA0, 0, 0, 0, 0xA1, 0, 0, 0, 0x23, 0x81, 0, 0]) = true := by decide +kernel

theorem test_push_misaligned :
    faults (exec (.push false 0b00000001) (start [(13, 0x20001002)] 0 [])) (.alignmentFault 0x20000FFE) = true := by decide +kernel

theorem test_pop_exchanges :
    leaves (exec (.pop true 0b00000011) (start [(13, 0x20000000)] 0 (table.map (fun c => (c.1, c.2 &&& 0xF0))))) 0xC0B0A090
      (fun t => t.x 0 == 0x40302010 && t.x 1 == 0x80706050 && t.x SP == 0x2000000C) = true := by decide +kernel

theorem test_pop_before_v5t : gives (exec (.pop true 0) (onArch .v4T (start [(13, 0x20000000)] 0 [(0x20000001, 0x90)])))
      (fun t => t.x SP == 0x20000004 && t.pc == 0x9000 && t.t == .thumb) = true := by decide +kernel

theorem test_mov_to_pc : pcTest (.movHi 15 14) (start [(14, 0x9001)] 0 []) 0x9000 0x9001 = true := by decide +kernel

theorem test_add_to_pc : pcTest (.addHi 15 0) (start [(0, 0x11)] 0 []) 0x8014 0 = true := by decide +kernel

theorem test_b_card_upper_limit : pcTest (.b 0x3FF) (start [] 0 []) 0x8802 0 = true := by decide +kernel

theorem test_b_card_lower_limit : pcTest (.b 0x400) (start [] 0 []) 0x7804 0 = true := by decide +kernel

theorem test_bcond_taken : pcTest (.bCond 1 0x80) (start [] 0 []) 0x7F04 0 = true := by decide +kernel

theorem test_bcond_not_taken : pcTest (.bCond 0 2) (start [] 0 []) 0x8002 0 = true := by decide +kernel

theorem test_cbz_taken : pcTest (.cbz 2 2) (start [] 0 []) 0x8008 0 = true := by decide +kernel

theorem test_cbz_not_taken : pcTest (.cbz 2 2) (start [(2, 1)] 0 []) 0x8002 0 = true := by decide +kernel

theorem test_cbnz_taken : pcTest (.cbnz 1 63) (start [(1, 5)] 0 []) 0x8082 0 = true := by decide +kernel

theorem test_cbnz_not_taken : pcTest (.cbnz 1 63) (start [] 0 []) 0x8002 0 = true := by decide +kernel

theorem test_bl_far_forward : pcTest (.bl 0x7FFFFF) (start [] 0 []) 0x01008002 0x8005 = true := by decide +kernel

theorem test_bl_far_backward :
    pcTest (.bl 0x800000) { start [] 0 [] with pc := 0x01000000 } 4 0x01000005 = true := by decide +kernel

theorem test_blx_label :
    leaves (exec (.blxLabel 1) { start [] 0 [] with pc := 0x8002 }) 0x8008 (fun t => t.x LR == 0x8007) = true := by decide +kernel

theorem test_bx_thumb : pcTest (.bx 14) (start [(14, 0x9001)] 0 []) 0x9000 0x9001 = true := by decide +kernel

theorem test_bx_pc : leaves (exec (.bx 15) (start [] 0 [])) 0x8004 (fun t => t == start [] 0 []) = true := by decide +kernel

theorem test_blx_reg : pcTest (.blxReg 3) (start [(3, 0x9001)] 0 []) 0x9000 0x8003 = true := by decide +kernel

theorem test_blx_lr :
    leaves (exec (.blxReg 14) (start [(14, 0x9000)] 0 [])) 0x9000 (fun t => t.x LR == 0x8003) = true := by decide +kernel

theorem test_it : gives (exec (.it 1 5) (start [] 0 [])) (fun t => t.itstate == 0x15 && t.pc == 0x8002) = true := by decide +kernel

theorem test_it_al_with_else : faults (exec (.it 14 12) (start [] 0 [])) (.unpredictable .itAlWithElse) = true := by decide +kernel

theorem test_cpsid : gives (exec (.cpsid true false true) { start [] 0 [] with maskA := false, maskI := false, maskF := false })
      (fun t => t.maskA && !t.maskI && t.maskF) = true := by decide +kernel

theorem test_cpsie :
    gives (exec (.cpsie false true false) (start [] 0 [])) (fun t => t.maskA && !t.maskI && t.maskF) = true := by decide +kernel

theorem test_setend : gives (exec (.setend .big) (start [] 0 [])) (fun t => t.e == .big) = true := by decide +kernel

theorem test_sev :
    gives (exec .sev (start [] 0 [])) (fun t => t.ev) && gives (exec .sev (onArch .v6T2 (start [] 0 [])))
      (fun t => !t.ev) = true := by decide +kernel

theorem test_wfe_consumes :
    gives (exec .wfe { start [] 0 [] with ev := true }) (fun t => !t.ev && t.pc == 0x8002) = true := by decide +kernel

theorem test_wfe_waits : faults (exec .wfe (start [] 0 [])) (.wait .wfe) = true := by decide +kernel

theorem test_wfi_waits : faults (exec .wfi (start [] 0 [])) (.wait .wfi) = true := by decide +kernel

theorem test_wfi_masked_irq :
    gives (exec .wfi { start [] 0 [] with pending := ⟨true, false, false, false, false⟩ })
      (fun t => t.pc == 0x8002) = true := by decide +kernel

theorem test_nop : gives (exec .nop (start [] 5 [])) (fun t => t == { start [] 5 [] with pc := 0x8002 }) = true := by decide +kernel

theorem test_yield :
    gives (exec .yield (start [] 5 [])) (fun t => t == { start [] 5 [] with pc := 0x8002 }) = true := by decide +kernel

theorem test_hint :
    gives (exec (.hint 5) (start [] 5 [])) (fun t => t == { start [] 5 [] with pc := 0x8002 }) = true := by decide +kernel

theorem test_svc : faults (exec (.svc 0xAB) (start [] 0 [])) (.supervisorCall 0xAB) = true := by decide +kernel

theorem test_svc_skipped :
    gives (exec (.svc 0xAB) { start [] 0 [] with itstate := 0x08 })
      (fun t => t.pc == 0x8002 && t.itstate == 0) = true := by decide +kernel

theorem test_bkpt_in_block :
    faults (exec (.bkpt 0xAB) { start [] 0 [] with itstate := 0x08 }) (.breakpoint 0xAB) = true := by decide +kernel

theorem test_udf : faults (exec (.udf 0x12) (start [] 0 [])) (.undefined 0xDE12) = true := by decide +kernel

/-! ## One whole step -/

/-- The start state under an `IrqOracle` whose first answers are listed. -/
def scheduled (l : List EventSet) : State := { start [] 0 [] with params := { Params.reset with irqSchedule := l } }

theorem test_step_adds : gives (step ((start [(1, 0x7FFFFFFF), (2, 1)] 0 []).withFetchWord 16 0x1888))
     
      (fun t => t.x 0 == 0x80000000 && t.flags == nzcv 0b1001 && t.pc == 0x8002 && t.fetched == [0x8000, 0x8001]) = true := by decide +kernel

theorem test_step_bl :
    gives (step ((start [] 0 []).withFetchWord 32 0xF000F802))
      (fun t => t.pc == 0x8008 && t.x LR == 0x8005) = true := by decide +kernel

theorem test_step_skips_in_block : gives (step ({ start [(0, 0x99)] 0 [] with itstate := 0x08 }.withFetchWord 16 0x1888))
      (fun t => t.x 0 == 0x99 && t.pc == 0x8002 && t.itstate == 0) = true := by decide +kernel

theorem test_step_wrap :
    faults (step ({ start [] 0 [] with pc := 0xFFFFFFFE }.withFetchWord 16 0xBF00)) (.unpredictable .pcWrap) = true := by decide +kernel

theorem test_step_store_to_code :
    faults (step ((start [(0, 1), (1, 0x8000)] 0 []).withFetchWord 16 0x6008)) (.dataAbort 0x8000) = true := by decide +kernel

theorem test_step_interrupt :
    faults (step { scheduled [⟨true, false, false, false, false⟩] with maskI := false }) (.interrupt .irq) = true := by decide +kernel

theorem test_step_interrupt_from_any_oracle :
    (let irq : IrqOracle := fun k => ⟨k % 3 == 2, false, false, false, false⟩
     let s : State := { (start [] 0 []).withFetchWord 16 0xBF00 with maskI := false }
     faults (stepUnder irq neverResumes { s with stepIndex := 302 }) (.interrupt .irq) &&
       gives (stepUnder irq neverResumes { s with stepIndex := 303 }) (fun t => t.stepIndex == 304)) = true := by decide +kernel

theorem test_step_leaves_thumb :
    leaves (step ((start [(0, 0x9000)] 0 []).withFetchWord 16 0x4700)) 0x9000
      (fun t => t.pc == 0x8000 && t.fetched == [0x8000, 0x8001]) = true := by decide +kernel

theorem test_step_resumes :
    (let env : EnvResume := fun _ t => some { t with pc := clearBit0 (t.x LR) }
     gives (stepUnder State.reset.params.irqOracle env ((start [] 0 []).withFetchWord 32 0xF000E800))
       (fun t => t.pc == 0x8004 && t.x LR == 0x8005 && t.stepIndex == 1)) = true := by decide +kernel

/-! ## Witnesses: states and operands that meet the hypotheses of each statement -/

theorem readable_of {s : State} {addr : Word} {n : Nat}
    (h : (List.range n).all (fun i => kindOf s.params (byteAddr addr i) != .unmapped) = true) : Readable s addr n := by
  simpa [Readable] using h

theorem not_readable_of {s : State} {addr : Word} {n i : Nat} (hi : i < n) (h : kindOf s.params (byteAddr addr i) = .unmapped) :
    ¬Readable s addr n := fun hr => hr i hi h

theorem storable_of {s : State} {addr : Word} {n : Nat}
    (h : (List.range n).all (fun i => s.writable (byteAddr addr i)) = true) : Storable s addr n := by
  intro i hi
  exact writable_byte_iff.1 (List.all_eq_true.1 h i (List.mem_range.2 hi))

theorem not_storable_of {s : State} {addr : Word} {n i : Nat} (hi : i < n) (h : s.writable (byteAddr addr i) = false) :
    ¬Storable s addr n := by
  intro hs
  rw [writable_byte_iff.2 (hs i hi)] at h
  cases h

/-- A state whose map is: ROM below 0x1000, RAM below 0x2000, a device below 0x3000, nothing above; code at 0x1800. -/
def mapped (rs : List (Reg × Word)) : State :=
  let s := start rs 0 []
  { s with
    pc := 0x1800
    params := { s.params with
      memMap := [⟨0, 0x1000, .readOnly⟩, ⟨0x1000, 0x1000, .normal⟩, ⟨0x2000, 0x1000, .device⟩]
      codeImage := [⟨0x1800, 4⟩] } }

/-- The last pc at which a 16-bit instruction that does not branch completes. -/
def edge (rs : List (Reg × Word)) : State := { start rs 0 [] with pc := 0xFFFFFFFC }

/-- In the last place of an IT block whose condition is EQ. -/
def inBlockEq (f : BitVec 4) : State := { start [] f [] with itstate := 0x08 }

/-- In the first place of an IT block of two whose condition is EQ. -/
def midBlock : State := { start [] 4 [] with itstate := 0x04 }

theorem runs_of {len : Nat} {s : State} (h : (s.passed && decide (s.pc.toNat + len < 2 ^ 32)) = true) : Runs len s := by
  simpa [Runs] using h

theorem witness_DecodeEncodeRoundTrip :
    (Instr.wf (.bl 0xFFFFFF) = true ∧ Instr.availableAt .v4T (.bl 0xFFFFFF) = true) ∧
      Instr.wf (.lslsImm 7 7 1) = true ∧ Instr.availableAt .v4T (.lslsImm 7 7 1) = true := by decide

theorem witness_EncodeInvertsDecode :
    decode .v6T2 0xF3FF 0xD7FF = .instr (.bl 0x7FFFFF) ∧ decode .v4T 0 0xFFFF = .instr (.movsReg 0 0) := by decide +kernel

theorem witness_WideFirstHalves :
    isWide 0xE7FF = false ∧ isWide 0xE800 = true ∧ isWide 0xFFFF = true ∧ isWide 0xF000 = true ∧
      decode .v7 0xF000 0xF800 = .instr (.bl 0) ∧ decode .v5T 0xF000 0xE800 = .instr (.blxLabel 0) := by decide +kernel

theorem witness_UnallocatedHalfwords :
    isWide 0xB600 = false ∧ isWide 0xBABF = false ∧ isWide 0x4701 = false ∧ (0xB600#16).toNat = 0xB600 ∧
      (0x4701#16).toNat % 8 ≠ 0 := by decide

theorem witness_RowsExistFromTheirVersion :
    Instr.wf (.blxReg 15) = true ∧ encode (.blxReg 15) = [0x47F8] ∧ Instr.wf (.it 15 1) = true ∧
      encode (.it 15 1) = [0xBFF1] ∧ encode (.bl 0x200000) = [0xF000, 0xF000] ∧
      encode (.blxLabel 0x100000) = [0xF000, 0xE000] ∧ encode (.blxLabel 0x7FFFFF) = [0xF7FF, 0xEFFE] := by decide +kernel

theorem witness_WideSpaceRefused :
    (isWide 0xE800 = true ∧ (0xE800#16).extractLsb' 11 5 ≠ 0b11110#5) ∧
      (isWide 0xF000 = true ∧ (0xF000#16).extractLsb' 11 5 = 0b11110#5) ∧
      ((0x8000#16).extractLsb' 14 2 ≠ 0b11#2) ∧
      ((0xD800#16).extractLsb' 14 2 = 0b11#2 ∧ (0xD800#16).getLsbD 12 = true ∧ (0xD800#16).getLsbD 13 = false) ∧
      ((0xE801#16).extractLsb' 14 2 = 0b11#2 ∧ (0xE801#16).getLsbD 12 = false ∧ (0xE801#16).getLsbD 0 = true) ∧
      ((0xC800#16).extractLsb' 14 2 = 0b11#2 ∧ (0xC800#16).getLsbD 12 = false ∧ (0xC800#16).getLsbD 0 = false ∧
        (0xC800#16).getLsbD 13 = false) ∧
      Arch.v5T.hasT2 = false ∧ Arch.v5T.has5T = true ∧ Arch.v4T.has5T = false := by decide

theorem witness_StepRunsDecodedInstruction :
    (let s := (start [] 0 []).withFetchWord 16 0x2001
     s.t = .thumb ∧ (s.beginStep (s.params.irqOracle 0)).interruptTaken = none ∧ s.pc.getLsbD 0 = false ∧ Readable s s.pc 2 ∧
       isWide (halfAt s s.pc) = false ∧ decode s.params.arch (halfAt s s.pc) 0 = .instr (.movsImm 0 1)) ∧
    (let s := (start [] 0 []).withFetchWord 32 0xF000F802
     isWide (halfAt s s.pc) = true ∧ Readable s (s.pc + 2#32) 2 ∧
       decode s.params.arch (halfAt s s.pc)
         (halfAt (fetchedFrom (s.beginStep (s.params.irqOracle 0)) s.pc) (s.pc + 2#32)) = .instr (.bl 2)) :=
  ⟨⟨by decide +kernel, by decide +kernel, by decide +kernel, readable_of (by decide +kernel), by decide +kernel,
    by decide +kernel⟩, by decide +kernel, readable_of (by decide +kernel), by decide +kernel⟩

theorem witness_StepDeliversInterrupts :
    (start [] 0 []).t = .thumb ∧
      gives (step ((scheduled [⟨true, true, true, false, true⟩]).withFetchWord 16 0xBF00))
        (fun t => t.ev && t.pending == ⟨true, true, true, false, true⟩) = true := by decide +kernel

theorem witness_ArmStateIsRefused : ({ start [] 0 [] with t := .arm } : State).t = .arm := rfl

theorem witness_FetchHalfwordCases :
    (0x8001#32).getLsbD 0 = true ∧ (0x2FFE#32).getLsbD 0 = false ∧ Readable (mapped []) 0x2FFE 2 ∧
      (0x3000#32).getLsbD 0 = false ∧ ¬Readable (mapped []) 0x3000 2 :=
  ⟨by decide, by decide, readable_of (by decide +kernel), by decide, not_readable_of (i := 0) (by decide) (by decide +kernel)⟩

theorem witness_StepKeepsInvariant :
    ({ (start [] 0 []).withFetchWord 16 0xBF00 with itstate := 0xE1 } : State).Inv ∧
      ∃ t, step { (start [] 0 []).withFetchWord 16 0xBF00 with itstate := 0xE1 } = .next t ∧ (t.itstate == 0xE2) = true := by
  refine ⟨?_, gives_next (by decide +kernel)⟩
  constructor <;> decide +kernel

theorem witness_StepKeepsParameters :
    (∃ t, step ((start [] 0 []).withFetchWord 16 0xBF00) = .next t ∧ (t.pc == 0x8002) = true) ∧
      ∃ t, stepUnder Params.reset.irqOracle (fun _ _ => some (onArch .v4T (start [] 0 []))) ((start [] 0 []).withFetchWord 16 0xDF00)
        = .next t ∧ (t.params.arch == .v7) = true := ⟨gives_next (by decide +kernel), gives_next (by decide +kernel)⟩

theorem witness_ControlStateWriters :
    leaves (exec (.bx 14) (start [] 0 [])) 0 (fun _ => true) = true ∧
      (∃ t, exec (.setend .big) (start [] 0 []) = .next t ∧ (t.e != .little) = true) ∧
      (∃ t, exec (.cpsie true false false) (start [] 0 []) = .next t ∧ (t.maskA != true) = true) ∧
      ∃ t, exec .sev (start [] 0 []) = .next t ∧ (t.ev != false) = true :=
  ⟨by decide +kernel, gives_next (by decide +kernel), gives_next (by decide +kernel), gives_next (by decide +kernel)⟩

theorem witness_PrivilegeOnlyAffectsCps : ∀ a m f, Instr.svc 0 ≠ .cpsid a m f ∧ Instr.svc 0 ≠ .cpsie a m f :=
  fun _ _ _ => ⟨nofun, nofun⟩

theorem witness_FlagWriters :
    (∃ t, exec (.cmpLo 0 1) (inBlockEq 5) = .next t ∧
      (t.flags.c != (inBlockEq 5).flags.c && t.flags.v != (inBlockEq 5).flags.v) = true) ∧ (inBlockEq 5).inIT = true :=
  ⟨gives_next (by decide +kernel), by decide +kernel⟩

theorem witness_MemoryWriters :
    ∃ t, exec (.strImm 0 1 31) (start [(0, 0xFF)] 0 []) = .next t ∧ (t.byteAt 124 != (start [(0, 0xFF)] 0 []).byteAt 124) = true :=
  gives_next (by decide +kernel)

theorem witness_FailedConditionSkips :
    (∃ t, exec (.movsImm 0 1) (inBlockEq 0) = .next t ∧ (t.pc == 0x8002) = true) ∧ (inBlockEq 0).passed = false ∧
      (inBlockEq 0).lastInIT = true ∧ (inBlockEq 0).pc.toNat + 4 < 2 ^ 32 :=
  ⟨gives_next (by decide +kernel), by decide +kernel, by decide +kernel, by decide +kernel⟩

theorem witness_ShiftPrimitivesExact : 1 ≤ 1 ∧ 1 ≤ 32 ∧ 1 ≤ 255 := by decide

theorem witness_ItBlockConditions : (1#4 ≠ 0#4 ∧ 0 ≤ 4) ∧ (8#4 ≠ 0#4 ∧ 4 ≤ 4) := by decide

theorem witness_MemReadCases :
    (0x1001#32).toNat % Width.word.bytes ≠ 0 ∧
      ((0x3000#32).toNat % Width.word.bytes = 0 ∧ ¬Readable (mapped []) 0x3000 Width.word.bytes) ∧
      (0x2FFC#32).toNat % Width.word.bytes = 0 ∧ Readable (mapped []) 0x2FFC Width.word.bytes :=
  ⟨by decide, ⟨by decide, not_readable_of (i := 0) (by decide) (by decide +kernel)⟩, by decide, readable_of (by decide +kernel)⟩

theorem witness_MemWriteCases :
    (0x1001#32).toNat % Width.word.bytes ≠ 0 ∧
      ((0x0FFC#32).toNat % Width.word.bytes = 0 ∧ ¬Storable (mapped []) 0x0FFC Width.word.bytes) ∧
      ((0x1800#32).toNat % Width.half.bytes = 0 ∧ ¬Storable (mapped []) 0x1800 Width.half.bytes) ∧
      (0x1000#32).toNat % Width.word.bytes = 0 ∧ Storable (mapped []) 0x1000 Width.word.bytes :=
  ⟨by decide, ⟨by decide, not_storable_of (i := 3) (by decide) (by decide +kernel)⟩,
    ⟨by decide, not_storable_of (i := 0) (by decide) (by decide +kernel)⟩, by decide, storable_of (by decide +kernel)⟩

/-- A write to RAM that succeeds. -/
theorem write_ok (w : Width) (v : Word) : ∃ t, memWrite w 0x1000 v (mapped []) = .ok t := by
  cases w <;> exact ⟨_, rfl⟩

theorem witness_StoreThenLoadReturnsValue (w : Width) :
    (∃ t, memWrite w 0x1000 0xFFFFFFFF (mapped []) = .ok t) ∧
      ∀ i < w.bytes, kindOf (mapped []).params (byteAddr 0x1000 i) = .normal :=
  ⟨write_ok w _, by cases w <;> decide +kernel⟩

theorem witness_MixedEndianAccess :
    ((mapped []).e = .little ∧ ∃ t, memWrite .word 0x1000 (0x44#8 ++ 0x33#8 ++ 0x22#8 ++ 0x11#8 : BitVec 32) (mapped []) = .ok t) ∧
      (∃ t, memWrite .word 0x1000 (0x44#8 ++ 0x33#8 ++ 0x22#8 ++ 0x11#8 : BitVec 32) { mapped [] with e := .big } = .ok t) ∧
      ∀ i < 4, kindOf (mapped []).params (byteAddr 0x1000 i) = .normal :=
  ⟨⟨by decide +kernel, write_ok .word _⟩, ⟨_, rfl⟩, by decide +kernel⟩

theorem witness_AdditionResults : Runs 2 (edge []) := runs_of (by decide +kernel)

theorem witness_SubtractionResults : Runs 2 (inBlockEq 4) := runs_of (by decide +kernel)

theorem witness_MultiplyResult :
    (Runs 2 (edge []) ∧ (edge []).params.arch ≠ .v4T ∧ (edge []).params.arch.has6 = true) ∧
      Runs 2 (onArch .v5T (edge [])) ∧ (onArch .v5T (edge [])).params.arch ≠ .v4T ∧ (0 : LoReg) ≠ 1 :=
  ⟨⟨runs_of (by decide +kernel), by decide +kernel, by decide +kernel⟩, runs_of (by decide +kernel), by decide +kernel, by decide⟩

theorem witness_MultiplyFreeFlags :
    Runs 2 (onArch .v4T (edge [])) ∧ (onArch .v4T (edge [])).params.arch = .v4T ∧ (0 : LoReg) ≠ 1 ∧
      (onArch .v4T (edge [])).inIT = false := ⟨runs_of (by decide +kernel), by decide +kernel, by decide, by decide +kernel⟩

theorem witness_CompareResults : Runs 2 (inBlockEq 4) ∧ (8 : Reg) ≠ PC ∧ 8 ≤ (8 : Reg).val ∧ (7 : Reg) ≠ PC :=
  ⟨runs_of (by decide +kernel), by decide, by decide, by decide⟩

theorem witness_LogicalAndMoveResults :
    (Runs 2 (edge []) ∧ (edge []).inIT = false) ∧ Runs 2 (inBlockEq 4) ∧ (inBlockEq 4).inIT = true :=
  ⟨⟨runs_of (by decide +kernel), by decide +kernel⟩, runs_of (by decide +kernel), by decide +kernel⟩

theorem witness_ShiftResults : Runs 2 (edge []) ∧ (1#5 ≠ 0#5) := ⟨runs_of (by decide +kernel), by decide⟩

theorem witness_HighRegisterResults :
    ((edge []).passed = true ∧ (14 : Reg) ≠ PC ∧ (edge []).pc.toNat + 2 < 2 ^ 32 ∧ (7 : Reg).val < 8 ∧
      (edge []).params.arch.hasT2 = true) ∧
      (inBlockEq 4).passed = true ∧ (inBlockEq 4).inIT = true ∧ (inBlockEq 4).lastInIT = true := by decide +kernel

theorem witness_AddressArithmeticResults : Runs 2 (edge []) := runs_of (by decide +kernel)

theorem witness_ExtendAndReverseResults : Runs 2 (edge []) := runs_of (by decide +kernel)

theorem witness_LoadResults :
    Runs 2 (mapped [(1, 0x2FFC)]) ∧ (0x2FFC#32).toNat % Width.word.bytes = 0 ∧
      Readable (mapped [(1, 0x2FFC)]) 0x2FFC Width.word.bytes :=
  ⟨runs_of (by decide +kernel), by decide, readable_of (by decide +kernel)⟩

theorem witness_StoreResults :
    Runs 2 (mapped [(1, 0x2FFC)]) ∧ (0x2FFC#32).toNat % Width.word.bytes = 0 ∧
      Storable (mapped [(1, 0x2FFC)]) 0x2FFC Width.word.bytes :=
  ⟨runs_of (by decide +kernel), by decide, storable_of (by decide +kernel)⟩

theorem witness_SingleAccessFaults :
    Runs 2 (mapped [(1, 0x2FFE)]) ∧ (0x2FFE#32).toNat % Width.word.bytes ≠ 0 ∧
      ((0x3000#32).toNat % Width.word.bytes = 0 ∧ ¬Readable (mapped [(1, 0x3000)]) 0x3000 Width.word.bytes) ∧
      (0x0FFC#32).toNat % Width.word.bytes = 0 ∧ ¬Storable (mapped [(1, 0x0FFC)]) 0x0FFC Width.word.bytes :=
  ⟨runs_of (by decide +kernel), by decide, ⟨by decide, not_readable_of (i := 0) (by decide) (by decide +kernel)⟩, by decide,
    not_storable_of (i := 0) (by decide) (by decide +kernel)⟩

theorem witness_LoadMultipleResult :
    Runs 2 (mapped [(7, 0x1FE0)]) ∧ (0xFF#8 ≠ 0#8) ∧ ((mapped [(7, 0x1FE0)]).x (lo 7)).toNat % 4 = 0 ∧
      ∀ j < bitCount 0xFF#8, Readable (mapped [(7, 0x1FE0)]) ((mapped [(7, 0x1FE0)]).x (lo 7) + words j) 4 :=
  ⟨runs_of (by decide +kernel), by decide, by decide +kernel, fun j hj => readable_of (by revert j; decide +kernel)⟩

theorem witness_StoreMultipleResult :
    Runs 2 (mapped [(0, 0x1FE0)]) ∧ (0xFF#8 ≠ 0#8) ∧ (∀ r ∈ listed 0xFF#8, (0 : LoReg) ≤ r) ∧
      ((mapped [(0, 0x1FE0)]).x (lo 0)).toNat % 4 = 0 ∧
      ∀ j < 8, Storable (mapped [(0, 0x1FE0)]) ((mapped [(0, 0x1FE0)]).x (lo 0) + words j) 4 :=
  ⟨runs_of (by decide +kernel), by decide, by decide +kernel, by decide +kernel,
    fun j hj => storable_of (by revert j; decide +kernel)⟩

theorem witness_PushResult :
    Runs 2 (mapped [(13, 0x1024)]) ∧ ((mapped [(13, 0x1024)]).x SP - words 9).toNat % 4 = 0 ∧
      ∀ j < 9, Storable (mapped [(13, 0x1024)]) ((mapped [(13, 0x1024)]).x SP - words 9 + words j) 4 :=
  ⟨runs_of (by decide +kernel), by decide +kernel, fun j hj => storable_of (by revert j; decide +kernel)⟩

theorem witness_PopResult :
    Runs 2 (mapped [(13, 0x1FFC)]) ∧ (0x80#8 ≠ 0#8) ∧ ((mapped [(13, 0x1FFC)]).x SP).toNat % 4 = 0 ∧
      ∀ j < bitCount 0x80#8, Readable (mapped [(13, 0x1FFC)]) ((mapped [(13, 0x1FFC)]).x SP + words j) 4 :=
  ⟨runs_of (by decide +kernel), by decide, by decide +kernel, fun j hj => readable_of (by revert j; decide +kernel)⟩

/-- The same, with a word in memory whose bit 0 is set. -/
def inBlockThumb : State := { inBlockEq 4 with mem := [(0, 0x01)] }

theorem witness_PopReturns :
    ((inBlockEq 4).passed = true ∧ (inBlockEq 4).lastInIT = true ∧ ((inBlockEq 4).x SP).toNat % 4 = 0 ∧
      (readValue (inBlockEq 4) 0 .word ((inBlockEq 4).x SP + words 0)).getLsbD 0 = false ∧
      ∀ j < bitCount 0#8 + 1, Readable (inBlockEq 4) ((inBlockEq 4).x SP + words j) 4) ∧
    inBlockThumb.passed = true ∧ inBlockThumb.lastInIT = true ∧ (inBlockThumb.x SP).toNat % 4 = 0 ∧
      (readValue inBlockThumb 0 .word (inBlockThumb.x SP + words 0)).getLsbD 0 = true ∧
      ∀ j < bitCount 0#8 + 1, Readable inBlockThumb (inBlockThumb.x SP + words j) 4 :=
  ⟨⟨by decide +kernel, by decide +kernel, by decide +kernel, by decide +kernel, fun j hj => readable_of (by revert j; decide +kernel)⟩,
    by decide +kernel, by decide +kernel, by decide +kernel, by decide +kernel, fun j hj => readable_of (by revert j; decide +kernel)⟩

theorem witness_MultipleAccessFaults :
    (Runs 2 (mapped [(0, 0x2FFC)]) ∧ (mapped [(0, 0x2FFC)]).inIT = false ∧ (3#8 ≠ 0#8) ∧ 1 < bitCount 3#8) ∧
      Readable (mapped [(0, 0x2FFC)]) (0x2FFC + words 0) 4 ∧ ¬Readable (mapped [(0, 0x2FFC)]) (0x2FFC + words 1) 4 ∧
      Storable (mapped [(0, 0x2FFC)]) (0x2FFC + words 0) 4 ∧ ¬Storable (mapped [(0, 0x2FFC)]) (0x2FFC + words 1) 4 ∧
      ((mapped [(0, 0x2FFE)]).x (lo 0)).toNat % 4 ≠ 0 ∧ (∀ r ∈ listed 3#8, (0 : LoReg) ≤ r) :=
  ⟨⟨runs_of (by decide +kernel), by decide +kernel, by decide, by decide +kernel⟩, readable_of (by decide +kernel),
    not_readable_of (i := 0) (by decide) (by decide +kernel), storable_of (by decide +kernel),
    not_storable_of (i := 0) (by decide) (by decide +kernel), by decide +kernel, by decide +kernel⟩

theorem witness_PopInvertsPush :
    (mapped [(13, 0x1020)]).passed = true ∧
      (∃ t, exec (.push false 0xFF) (mapped [(13, 0x1020)]) = .next t ∧ (t.passed && decide (t.pc.toNat + 2 < 2 ^ 32)) = true) ∧
      ∀ j < bitCount 0xFF#8, ∀ i < 4,
        kindOf (mapped [(13, 0x1020)]).params
          (byteAddr ((mapped [(13, 0x1020)]).x SP - words (bitCount 0xFF#8) + words j) i) = .normal :=
  ⟨by decide +kernel, gives_next (by decide +kernel), by decide +kernel⟩

theorem witness_IfThenStarts :
    (edge []).inIT = false ∧ (edge []).pc.toNat + 2 < 2 ^ 32 ∧ (13#4 ≠ 15#4) ∧ (14#4 ≠ 15#4) ∧ (8#4 = 8#4) := by
  decide +kernel

theorem witness_DirectBranches :
    ((edge []).inIT = false ∧ conditionHolds 1 (edge []).flags = true ∧ conditionHolds 0 (edge []).flags = false ∧
      (edge []).x (lo 0) = 0#32 ∧ (edge [(1, 1)]).x (lo 1) ≠ 0#32 ∧ (edge []).pc.toNat + 2 < 2 ^ 32) ∧
      (inBlockEq 4).passed = true ∧ (inBlockEq 4).lastInIT = true := by decide +kernel

theorem witness_LinkAndExchangeBranches :
    (inBlockEq 4).passed = true ∧ (inBlockEq 4).lastInIT = true ∧ (inBlockEq 4).pc.getLsbD 1 = false ∧ (14 : Reg) ≠ PC ∧
      ((inBlockEq 4).x 14).getLsbD 0 = false ∧ ((start [(14, 1)] 0 []).x 14).getLsbD 0 = true := by decide +kernel

theorem witness_ReturnFromCall :
    (edge []).pc.getLsbD 0 = false ∧ (edge []).inIT = false ∧
      ∃ t, exec (.bl 0xFFFFFE) (edge []) = .next t ∧ (t.pc == 0xFFFFFFFC) = true :=
  ⟨by decide +kernel, by decide +kernel, gives_next (by decide +kernel)⟩

theorem witness_ItBlockRestrictions :
    ((inBlockEq 4).inIT = true ∧ (inBlockEq 4).lastInIT = true) ∧ midBlock.inIT = true ∧ midBlock.lastInIT = false ∧
      (14 : Reg) ≠ PC := by decide +kernel

theorem witness_OperandRestrictions :
    ((7 : Reg).val < 8 ∧ (onArch .v5T (start [] 0 [])).params.arch.has6 = false ∧
      (onArch .v6 (start [] 0 [])).params.arch.hasT2 = false) ∧
      ((1 : LoReg) ∈ listed 3#8 ∧ ∃ r ∈ listed 3#8, r < (1 : LoReg)) ∧
      ((start [] 0 []).inIT = false ∧ ({ start [] 0 [] with pc := 0x8002 } : State).pc.getLsbD 1 = true) ∧
      (12#4 ≠ 1#4 ∧ 12#4 ≠ 2#4 ∧ 12#4 ≠ 4#4 ∧ 12#4 ≠ 8#4) := by decide +kernel

theorem witness_SequentialAdvance :
    (∃ t, exec .nop (edge []) = .next t ∧ (t.pc == 0xFFFFFFFE) = true) ∧
      faults (exec .wfi { edge [] with pc := 0xFFFFFFFE }) (.unpredictable .pcWrap) = true ∧
      2 ^ 32 ≤ ({ edge [] with pc := 0xFFFFFFFE } : State).pc.toNat + 2 :=
  ⟨gives_next (by decide +kernel), by decide +kernel, by decide +kernel⟩

theorem witness_ProcessorStateChanges : (edge []).inIT = false ∧ (edge []).pc.toNat + 2 < 2 ^ 32 := by decide +kernel

theorem witness_HintResults :
    (Runs 2 (edge []) ∧ (edge []).params.arch = .v7 ∧ (edge []).ev = false) ∧
      (Runs 2 (onArch .v6T2 (edge [])) ∧ (onArch .v6T2 (edge [])).params.arch ≠ .v7) ∧
      ({ edge [] with ev := true } : State).ev = true ∧
      ({ edge [] with pending := ⟨false, false, false, true, false⟩ } : State).pending.debugRequest = true :=
  ⟨⟨runs_of (by decide +kernel), by decide +kernel, by decide +kernel⟩, ⟨runs_of (by decide +kernel), by decide +kernel⟩,
    by decide +kernel, by decide +kernel⟩

theorem witness_StoppingInstructions :
    (inBlockEq 4).passed = true ∧ (inBlockEq 0).passed = false ∧ (inBlockEq 0).pc.toNat + 2 < 2 ^ 32 := by decide +kernel

end Sys2Proof.Tests
end

section
/-! Proofs of the statements of 00_scope.md: skipped instructions, the step, the arithmetic and shift primitives. -/

namespace Sys2Proof.Machine

/-! ## Instructions whose condition fails (R13 steps 5, 9 and 10, R254) -/

/-- The decode-time checks of an instruction (R254, U2 to U27), the wrap of the pc left out. -/
def decodeChecks (s : State) : Instr → Option Unpredictable
  | .movsReg _ _ => check s.inIT .movsRegInIT
  | .addHi rdn rm => addChecks rdn rm s
  | .cmpHi rn rm => cmpChecks rn rm
  | .movHi rd rm => movChecks rd rm s
  | .muls rdn rm => check (rdn == rm && !s.params.arch.has6) .mulsSameBeforeV6
  | .ldm _ list => check (list == 0#8) .ldmEmpty
  | .stm rn list => stmChecks rn list
  | .push m list => check (!m && list == 0#8) .pushEmpty
  | .pop p list => popChecks p list s
  | .it firstcond mask => itChecks firstcond mask s
  | .bCond _ _ => check s.inIT .bCondInIT
  | .cbz _ _ => check s.inIT .cbzInIT
  | .cbnz _ _ => check s.inIT .cbnzInIT
  | .bx rm => bxChecks rm s
  | .blxReg rm => blxChecks rm s
  | .b _ | .bl _ | .blxLabel _ => check s.midIT .branchNotLastInIT
  | .cpsid a i f | .cpsie a i f => cpsChecks a i f s
  | .setend _ => check s.inIT .setendInIT
  | _ => none

/-- BKPT and UDF stop in every state (R294, R101). -/
def alwaysStops : Instr → Bool
  | .bkpt _ | .udf _ => true
  | _ => false

/-- `o` is what an instruction of `len` bytes with the decode-time checks `why` gives from `s`: its effect is subject to the condition. -/
inductive Conditional (len : Nat) (why : Option Unpredictable) (s : State) : Result → Prop
  | sequential (act : State → Result) (hlen : len = 2) : Conditional len why s (Machine.sequential why act s)
  | branching (act : State → Result) : Conditional len why s (Machine.branching len why act s)

theorem exec_of_alwaysStops {i : Instr} (h : alwaysStops i = true) (s : State) : ∃ f, exec i s = .fault f := by
  cases i with
  | bkpt imm8 => exact ⟨_, rfl⟩
  | udf imm8 => exact ⟨_, rfl⟩
  | _ => cases h

/-- Every instruction but BKPT and UDF is run under the condition of its IT block, after its decode-time checks. -/
theorem exec_conditional {i : Instr} (h : alwaysStops i = false) (s : State) :
    Conditional i.len (decodeChecks s i) s (exec i s) := by
  cases i with
  | bkpt | udf => cases h
  | movHi | addHi | pop =>
    simp only [exec, execMovHi, execAddHi, execPop]
    split
    · exact .branching _
    · exact .sequential _ rfl
  | bCond | cbz | cbnz | b | bl | bx | blxLabel | blxReg | svc =>
    simp only [exec]
    exact .branching _
  | _ =>
    simp only [exec]
    exact .sequential _ rfl

/-- The state after an instruction of `len` bytes in an IT block that is not performed. -/
def State.skipped (s : State) (len : Nat) : State :=
  { s with pc := s.pc + BitVec.ofNat 32 len, itstate := itAdvance s.itstate }

theorem State.inIT_of_not_passed {s : State} (h : s.passed = false) : s.inIT = true := by
  cases hit : s.inIT with
  | true => rfl
  | false => simp [State.passed, hit] at h

/-- Advancing the pc and ITSTATE from a state in a block is skipping. -/
theorem State.advance_eq_skipped {s : State} (h : s.inIT = true) (len : Nat) :
    { s with pc := s.nextPc len }.advanceIT s.itstate = s.skipped len := by
  have hb : inBlock s.itstate = true := h
  simp [State.advanceIT, hb, State.skipped, State.nextPc]

/-- What an instruction of `len` bytes that is not performed gives: its decode-time checks, the wrap of the pc (log 12), or a skip. -/
def State.skipResult (s : State) (len : Nat) : Option Unpredictable → Result
  | some r => raiseUnpredictable r
  | none => if s.wraps len then raiseUnpredictable .pcWrap else .next (s.skipped len)

theorem State.skipResult_next {s t : State} {len : Nat} {why : Option Unpredictable} :
    s.skipResult len why = .next t ↔ why = none ∧ s.pc.toNat + len < 2 ^ 32 ∧ t = s.skipped len := by
  rw [← wraps_eq_false]
  cases why with
  | some r => simp [State.skipResult, raiseUnpredictable, raise]
  | none => cases hw : s.wraps len <;> simp [State.skipResult, hw, raiseUnpredictable, raise, eq_comm]

/-- Where the condition fails, the effect of an instruction has no part in its result. -/
theorem Conditional.of_not_passed {len : Nat} {why : Option Unpredictable} {s : State} {o : Result}
    (hc : Conditional len why s o) (h : s.passed = false) : o = s.skipResult len why := by
  have hskip := State.advance_eq_skipped (State.inIT_of_not_passed h)
  cases hc with
  | sequential act hlen =>
    rw [hlen]
    cases why with
    | some r => rfl
    | none => simp [Machine.sequential, State.skipResult, h, hskip]
  | branching act =>
    cases why with
    | some r => rfl
    | none =>
      cases hw : s.wraps len <;>
        simp [Machine.branching, State.skipResult, State.seqAdvance, h, hw, hskip, raiseUnpredictable, raise]

/-- An instruction whose condition fails completes exactly where its decode-time checks pass, and then skips. -/
theorem exec_next_of_not_passed {i : Instr} {s t : State} (hstop : alwaysStops i = false) (h : s.passed = false) :
    exec i s = .next t ↔ decodeChecks s i = none ∧ s.pc.toNat + i.len < 2 ^ 32 ∧ t = s.skipped i.len := by
  rw [(exec_conditional hstop s).of_not_passed h, State.skipResult_next]

theorem alwaysStops_of_next {i : Instr} {s t : State} (hn : exec i s = .next t) : alwaysStops i = false := by
  cases hstop : alwaysStops i with
  | false => rfl
  | true =>
    obtain ⟨f, hf⟩ := exec_of_alwaysStops hstop s
    rw [hf] at hn
    cases hn

theorem State.midIT_of_lastInIT {s : State} (h : s.lastInIT = true) : s.midIT = false := by simp [State.midIT, h]

/-- Settles O19, by the two directions of `exec_next_of_not_passed`: in the last place of a block the check of a branch (U13) passes. -/
theorem failedConditionSkips : Obligations.FailedConditionSkips := by
  refine ⟨fun i s t hn h => ?_, fun i s h hpc hlast hi => ?_⟩
  · obtain ⟨-, -, ht⟩ := (exec_next_of_not_passed (alwaysStops_of_next hn) h).1 hn
    exact ht
  · have hstop : alwaysStops i = false := by
      cases i with
      | bkpt | udf => exact hi.elim
      | _ => rfl
    have hd : decodeChecks s i = none := by
      cases i with
      | b | bl | blxLabel => exact check_none.2 (State.midIT_of_lastInIT hlast)
      | movsReg | cbz | cbnz | it | bCond | cpsid | cpsie | setend | movHi | addHi | cmpHi | muls | ldm | stm | push | pop
      | bx | blxReg => exact hi.elim
      | _ => rfl
    exact (exec_next_of_not_passed hstop h).2 ⟨hd, hpc, rfl⟩

/-! ## The step: ARM state, fetch, and the environment (R12, R13, R56) -/

theorem stepUnder_neverResumes (irq : IrqOracle) (s : State) : stepUnder irq neverResumes s = cycle (irq s.stepIndex) s :=
  resumeUnder_neverResumes s _

theorem cycle_arm {s : State} (h : s.t = .arm) (events : EventSet) :
    cycle events s = .refused (.leftThumbState s.pc s) := by
  simp [cycle, h, leaveThumb]

/-- Settles O10: `step` is `stepUnder` with one `IrqOracle`, and no oracle has a part in the step of a state in ARM state. -/
theorem armStateIsRefused : Obligations.ArmStateIsRefused := by
  intro s irq h
  have hunder (irq' : IrqOracle) : stepUnder irq' neverResumes s = .refused (.leftThumbState s.pc s) := by
    rw [stepUnder_neverResumes, cycle_arm h]
  exact ⟨hunder s.params.irqOracle, hunder irq⟩

/-- Settles O60: the environment is asked once for each kind of stop, with the state that `carriedState` gives for it. -/
theorem environmentResumes : Obligations.EnvironmentResumes := by
  intro irq env s
  rw [stepUnder_neverResumes, stepUnder]
  cases cycle (irq s.stepIndex) s with
  | next t => rfl
  | fault f => rfl
  | refused r =>
    cases r with
    | leftThumbState target t => rfl
    | notModelled mnemonic => rfl
    | notOnCard hw1 hw2 => rfl

theorem cycle_thumb {s : State} {events : EventSet} (h : s.t = .thumb) (hi : (s.beginStep events).interruptTaken = none) :
    cycle events s = fetchAndRun (s.beginStep events) := by
  simp [cycle, h, hi]

theorem Readable.congr {s t : State} {addr : Word} {n : Nat} (hp : t.params = s.params) (h : Readable s addr n) :
    Readable t addr n := by
  rw [Readable, hp]
  exact h

/-- What a fetch reads depends on the parameters, memory and the count of draws alone. -/
theorem halfAt_congr {s t : State} (hp : t.params = s.params) (hm : t.mem = s.mem) (hd : t.draws = s.draws) (addr : Word) :
    halfAt t addr = halfAt s addr := by
  simp only [halfAt, byteRead, State.byteAt, hp, hm, hd]

theorem halfAt_beginStep (s : State) (events : EventSet) (addr : Word) : halfAt (s.beginStep events) addr = halfAt s addr :=
  halfAt_congr (by simp) (by simp) (by simp) addr

theorem getLsbD_zero_add_two (v : Word) : (v + 2#32).getLsbD 0 = v.getLsbD 0 := by
  rw [BitVec.getLsbD_add (by decide)]
  simp

theorem fetchInstr_narrow {s : State} {pc : Word} (hpc : s.pc = pc) (heven : pc.getLsbD 0 = false) (hread : Readable s pc 2)
    (hw : isWide (halfAt s pc) = false) : fetchInstr s = .ok (halfAt s pc, 0#16, fetchedFrom s pc) := by
  simp [fetchInstr, hpc, fetchHalfword_ok heven hread, hw]

/-- Both halves of a 32-bit instruction are fetched, the second from the state after the first. -/
theorem fetchInstr_wide {s : State} {pc : Word} (hpc : s.pc = pc) (heven : pc.getLsbD 0 = false) (hread : Readable s pc 2)
    (hread2 : Readable s (pc + 2#32) 2) (hw : isWide (halfAt s pc) = true) :
    fetchInstr s = .ok (halfAt s pc, halfAt (fetchedFrom s pc) (pc + 2#32), fetchedFrom (fetchedFrom s pc) (pc + 2#32)) := by
  have heven2 : (pc + 2#32).getLsbD 0 = false := by rw [getLsbD_zero_add_two, heven]
  have hsecond := fetchHalfword_ok heven2 (Readable.congr (t := fetchedFrom s pc) rfl hread2)
  simp [fetchInstr, hpc, fetchHalfword_ok heven hread, hw, hsecond]

theorem runDecoded_instr (i : Instr) (s : State) : runDecoded (.instr i) s = endOfStep (exec i s) := by
  rw [runDecoded]
  cases exec i s <;> rfl

theorem fetchAndRun_instr {s u : State} {hw1 hw2 : Half} {i : Instr} (hf : fetchInstr s = .ok (hw1, hw2, u))
    (hd : decode s.params.arch hw1 hw2 = .instr i) : fetchAndRun s = endOfStep (exec i u) := by
  simp [fetchAndRun, hf, hd, runDecoded_instr]

/-- Settles O8: the start of the step changes nothing that the fetch or the decoder reads. -/
theorem stepRunsDecodedInstruction : Obligations.StepRunsDecodedInstruction := by
  intro s i hthumb heven hread runs
  have hruns (irq : IrqOracle) : runs irq (stepUnder irq neverResumes s) := by
    intro hquiet
    have hpc := State.beginStep_pc s (irq s.stepIndex)
    have hparams := State.beginStep_params s (irq s.stepIndex)
    have hhalf := halfAt_beginStep s (irq s.stepIndex) s.pc
    rw [stepUnder_neverResumes, cycle_thumb hthumb hquiet]
    refine ⟨fun hnarrow hdec => ?_, fun hwide hread2 hdec => ?_⟩
    · exact fetchAndRun_instr (fetchInstr_narrow hpc heven (hread.congr hparams) (by rw [hhalf, hnarrow]))
        (by rw [hparams, hhalf, hdec])
    · exact fetchAndRun_instr
        (fetchInstr_wide hpc heven (hread.congr hparams) (hread2.congr hparams) (by rw [hhalf, hwide]))
        (by rw [hparams, hhalf, hdec])
  exact ⟨hruns s.params.irqOracle, hruns⟩

/-! ## Arithmetic (R9) -/

theorem addWithCarry_result (x y : Word) (cin : Bool) : (addWithCarry x y cin).result = x + y + BitVec.ofNat 32 cin.toNat := by
  apply BitVec.eq_of_toNat_eq
  simp [addWithCarry]

/-- R9: the carry of a subtraction with carry in 1 means no borrow. -/
theorem subWithCarry_carry_iff (x y : Word) : (subWithCarry x y true).carry = true ↔ y.toNat ≤ x.toNat := by
  have hy := y.isLt
  simp only [subWithCarry, addWithCarry, BitVec.toNat_not, Bool.toNat_true, decide_eq_true_eq]
  omega

/-- R9: a subtraction is the difference, less 1 where the carry in is 0. -/
theorem subWithCarry_result (x y : Word) (c : Bool) :
    (subWithCarry x y c).result = x - y - (if c then 0#32 else 1#32) := by
  rw [subWithCarry, addWithCarry_result, BitVec.not_eq_neg_add]
  cases c <;> simp [BitVec.sub_eq_add_neg, BitVec.add_assoc]

/-- Settles O21: the exact sums are those `addWithCarry` is written with, and subtraction adds the complement. -/
theorem addWithCarryExact : Obligations.AddWithCarryExact := by
  refine ⟨fun x y cin => ⟨?_, ?_, ?_⟩, fun x y => ⟨?_, ?_, subWithCarry_carry_iff x y⟩, subWithCarry_result⟩
  · exact BitVec.toNat_ofNat _ _
  · exact decide_eq_true_iff
  · exact decide_eq_true_iff
  · simp [addWithCarry_result]
  · simp [subWithCarry_result]

/-! ## Shifts (R10) -/

theorem lslC_toNat (x : Word) (n : Nat) : (lslC x n).result.toNat = x.toNat * 2 ^ n % 2 ^ 32 := by
  simp [lslC, Nat.shiftLeft_eq]

theorem lsrC_toNat (x : Word) (n : Nat) : (lsrC x n).result.toNat = x.toNat / 2 ^ n := by
  simp [lsrC, Nat.shiftRight_eq_div_pow]

theorem asrC_toInt (x : Word) (n : Nat) : (asrC x n).result.toInt = x.toInt / 2 ^ n := by
  simp [asrC, BitVec.toInt_sshiftRight, Int.shiftRight_eq_div_pow]

/-- Rotating right by `n` moves bit `k + n` to bit `k`, modulo 32. -/
theorem rorC_getLsbD (x : Word) (n : Nat) {k : Nat} (hk : k < 32) :
    (rorC x n).result.getLsbD k = x.getLsbD ((k + n % 32) % 32) := by
  have hn : n % 32 < 32 := Nat.mod_lt _ (by decide)
  rw [rorC, BitVec.getLsbD_rotateRight, Nat.mod_mod]
  by_cases h : k < 32 - n % 32
  · have hsame : (k + n % 32) % 32 = n % 32 + k := by omega
    simp [h, hsame]
  · have hwrap : (k + n % 32) % 32 = k - (32 - n % 32) := by omega
    simp [h, hk, hwrap]

/-- Settles O23: the carry of ASR by more than 32 and that of ROR are the top bit of a word. -/
theorem shiftPrimitivesExact : Obligations.ShiftPrimitivesExact := by
  intro x n _
  refine ⟨⟨lslC_toNat x n, rfl⟩, ⟨lsrC_toNat x n, rfl⟩, ⟨asrC_toInt x n, ?_⟩, fun k hk => rorC_getLsbD x n hk, ?_⟩
  · simp only [asrC, msb_eq_getLsbD]
  · exact msb_eq_getLsbD _

end Sys2Proof.Machine
end


section
/-! Proofs of the statements of 10_state.md: what a completed instruction can have done, the invariant, and who writes which state. -/

namespace Sys2Proof.Machine

/-! ## What the effect of an instruction can do -/

/-- Beside registers, memory bytes, the device trace and the draws, nothing has changed. -/
structure Transfers (s u : State) : Prop where
  control : SameControl s u
  flags : u.flags = s.flags
  itstate : u.itstate = s.itstate
  pc : u.pc = s.pc

theorem Transfers.refl (s : State) : Transfers s s := ⟨SameControl.refl s, rfl, rfl, rfl⟩

theorem Transfers.setX {s u : State} (h : Transfers s u) (r : Reg) (v : Word) : Transfers s (u.setX r v) :=
  ⟨h.control.setX r v, by simp [h.flags], by simp [h.itstate], by simp [h.pc]⟩

theorem Transfers.noteDevice {s u : State} (h : Transfers s u) (b : Bool) (ev : DeviceEvent) : Transfers s (u.noteDevice b ev) :=
  ⟨h.control.noteDevice b ev, by simp [h.flags], by simp [h.itstate], by simp [h.pc]⟩

theorem SameControl.branchWritePC {s u : State} (h : SameControl s u) (v : Word) : SameControl s (u.branchWritePC v) :=
  ⟨h.params, h.thumb, h.endian, h.maskA, h.maskI, h.maskF, h.event, h.fetched, h.stepIndex, h.pending⟩

theorem loadRegs_transfers (rs : List LoReg) (addr : Word) (s : State) : Transfers s (loadRegs rs addr s) := by
  obtain ⟨hcontrol, hpc, hflags, hit, -⟩ := loadRegs_fields rs addr s
  exact ⟨hcontrol, hflags, hit, hpc⟩

theorem loadRegs_mem (rs : List LoReg) (addr : Word) (s : State) : (loadRegs rs addr s).mem = s.mem := by
  obtain ⟨-, -, -, -, hmem⟩ := loadRegs_fields rs addr s
  exact hmem

theorem storeWords_transfers (vs : List Word) (addr : Word) (s : State) : Transfers s (storeWords vs addr s) := by
  obtain ⟨hcontrol, -, hpc, hflags, hit⟩ := storeWords_fields vs addr s
  exact ⟨hcontrol, hflags, hit, hpc⟩

/-- The kinds of effect, by the parts of the state they may change. -/
inductive EffectKind where
  /-- A register and the four flags, from a sum. -/
  | sum
  /-- A register, N and Z. -/
  | logic
  /-- A register, N, Z and C. -/
  | shift
  /-- MULS: a register, N and Z, and on V4T C and V. -/
  | product
  /-- The four flags, in an IT block too. -/
  | compare
  /-- TST: N and Z, in an IT block too. -/
  | test
  /-- Registers, and no flag: loads, moves, and the instructions without effect. -/
  | register
  | store
  /-- The pc, staying in Thumb state. -/
  | branch
  /-- The pc, with a change of state where bit 0 of the target is clear. -/
  | exchange
  /-- BLX `<label>`: never completes where it executes. -/
  | leave
  | ifThen (firstcond mask : BitVec 4)
  | masks
  | endian (e : Endian)
  | event
  /-- SVC, BKPT, UDF: never complete where they execute. -/
  | stop

/-- The kind of each instruction's effect. -/
def effectKind : Instr → EffectKind
  | .addsReg _ _ _ | .subsReg _ _ _ | .addsImm3 _ _ _ | .subsImm3 _ _ _ | .addsImm8 _ _ | .subsImm8 _ _ | .adcs _ _ | .sbcs _ _
  | .rsbs _ _ => .sum
  | .movsReg _ _ | .movsImm _ _ | .ands _ _ | .eors _ _ | .orrs _ _ | .bics _ _ | .mvns _ _ => .logic
  | .lslsImm _ _ _ | .lsrsImm _ _ _ | .asrsImm _ _ _ | .lslsReg _ _ | .lsrsReg _ _ | .asrsReg _ _ | .rorsReg _ _ => .shift
  | .muls _ _ => .product
  | .cmpLo _ _ | .cmpHi _ _ | .cmpImm _ _ | .cmn _ _ => .compare
  | .tst _ _ => .test
  | .addHi d _ | .movHi d _ => if d = PC then .branch else .register
  | .pop p _ => if p then .exchange else .register
  | .addSp _ | .subSp _ | .addRdSp _ _ | .adr _ _ | .sxth _ _ | .sxtb _ _ | .uxth _ _ | .uxtb _ _ | .rev _ _ | .rev16 _ _
  | .revsh _ _ | .ldrImm _ _ _ | .ldrhImm _ _ _ | .ldrbImm _ _ _ | .ldrReg _ _ _ | .ldrhReg _ _ _ | .ldrshReg _ _ _
  | .ldrbReg _ _ _ | .ldrsbReg _ _ _ | .ldrLit _ _ | .ldrSp _ _ | .ldm _ _ | .nop | .yield | .wfi | .hint _ => .register
  | .strImm _ _ _ | .strhImm _ _ _ | .strbImm _ _ _ | .strReg _ _ _ | .strhReg _ _ _ | .strbReg _ _ _ | .strSp _ _ | .stm _ _
  | .push _ _ => .store
  | .bCond _ _ | .cbz _ _ | .cbnz _ _ | .b _ | .bl _ => .branch
  | .bx _ | .blxReg _ => .exchange
  | .blxLabel _ => .leave
  | .it firstcond mask => .ifThen firstcond mask
  | .cpsid _ _ _ | .cpsie _ _ _ => .masks
  | .setend e => .endian e
  | .sev | .wfe => .event
  | .svc _ | .bkpt _ | .udf _ => .stop

/-- The kinds of the instructions that advance by an effect of their own, and not sequentially. -/
def EffectKind.setsPc : EffectKind → Bool
  | .branch | .exchange | .leave | .stop => true
  | _ => false

/-- The state after an effect of the kind, before the pc and ITSTATE have advanced. -/
inductive Effected (s : State) : EffectKind → State → Prop
  | sum (d : LoReg) (r : Sum) : Effected s .sum (s.putSum d r)
  | logic (d : LoReg) (v : Word) : Effected s .logic (s.putNZ d v)
  | shift (d : LoReg) (r : Shifted) : Effected s .shift (s.putShifted d r)
  | product (d : LoReg) (v : Word) : Effected s .product (((s.setX (lo d) v).writeFlagsOutsideIT (mulFlags s v)).useMulDraw)
  | compare (f : Flags) : Effected s .compare (s.writeFlags f)
  | test (v : Word) : Effected s .test (s.writeFlags (s.flags.setNZ v))
  | register {u : State} (h : Transfers s u) (hmem : u.mem = s.mem) : Effected s .register u
  | store {u : State} (h : Transfers s u) (hmem : s.mem.wf → u.mem.wf) : Effected s .store u
  | taken {k : EffectKind} {r : State} (hk : k = .branch ∨ k = .exchange) (h : Transfers s r) (hmem : r.mem = s.mem) (v : Word) :
      Effected s k (r.branchWritePC v)
  | notTaken : Effected s .branch { s with pc := s.pc + 2#32 }
  | ifThen (firstcond mask : BitVec 4) : Effected s (.ifThen firstcond mask) { s with itstate := firstcond ++ mask }
  | masks (a i f v : Bool) : Effected s .masks (s.setMasks a i f v)
  | endian (e : Endian) : Effected s (.endian e) { s with e := e }
  | event (b : Bool) (h : b = s.ev ∨ s.params.arch = .v7) : Effected s .event { s with ev := b }

/-- What an effect of the kind can give: a next state, a stop, or the change to ARM state. -/
inductive Acts (s : State) (k : EffectKind) : Result → Prop
  | next {u : State} (h : Effected s k u) : Acts s k (.next u)
  | fault (f : Fault) : Acts s k (.fault f)
  | leave (hk : k = .exchange ∨ k = .leave) {target : Word} (h : target.getLsbD 0 = false) (carried : State) :
      Acts s k (.refused (.leftThumbState target carried))

/-! ## The effects of the shared operations -/

theorem Acts.setX (s : State) (d : Reg) (v : Word) : Acts s .register (.next (s.setX d v)) :=
  .next (.register ((Transfers.refl s).setX d v) (by simp))

theorem Acts.nothing (s : State) : Acts s .register (.next s) := .next (.register (Transfers.refl s) rfl)

theorem loadTo_acts (w : Width) (ext : Word → Word) (rt : LoReg) (addr : Word) (s : State) :
    Acts s .register (loadTo w ext rt addr s) := by
  cases h : memRead w addr s with
  | error f => simpa [loadTo, h, raise] using Acts.fault f
  | ok p =>
    obtain ⟨-, rfl⟩ := memRead_ok.1 h
    simpa [loadTo, h, readNow_state] using
      Acts.next (.register (((Transfers.refl s).noteDevice _ _).setX (lo rt) (ext (readNow w addr s).1)) (by simp))

theorem storeFrom_acts (w : Width) (v addr : Word) (s : State) : Acts s .store (storeFrom w v addr s) := by
  cases h : memWrite w addr v s with
  | error f => simpa [storeFrom, h, raise] using Acts.fault f
  | ok t =>
    obtain ⟨-, rfl⟩ := memWrite_ok.1 h
    have htransfers : Transfers s (writeNow w addr v s) := ⟨writeNow_control s w addr v, by simp, by simp, by simp⟩
    have hwf (hs : s.mem.wf) : (writeNow w addr v s).mem.wf := by
      rw [writeNow_mem]
      exact Memory.wf_storeBytes _ _ _ _ hs
    simpa [storeFrom, h] using Acts.next (.store htransfers hwf)

/-- A multiple store with write-back: STM and PUSH. -/
theorem storeMultiple_acts (vs : List Word) (base : Word) (d : Reg) (v : Word) (s : State) :
    Acts s .store (andThen (storeMultiple vs base s) (fun t => .next (t.setX d v))) := by
  cases h : writeChecks vs.length base s with
  | some f => simpa [storeMultiple, h, raise] using Acts.fault f
  | none =>
    have hwf (hs : s.mem.wf) : ((storeWords vs base s).setX d v).mem.wf := by
      rw [State.setX_mem]
      exact storeWords_wf vs base hs
    simpa [storeMultiple, h] using Acts.next (.store ((storeWords_transfers vs base s).setX d v) hwf)

theorem seqAdvance_acts (s : State) : Acts s .branch (s.seqAdvance 2) := by
  unfold State.seqAdvance
  split
  · exact .fault _
  · exact .next .notTaken

theorem branchWritePC_acts {s r : State} {k : EffectKind} (hk : k = .branch ∨ k = .exchange) (h : Transfers s r)
    (hmem : r.mem = s.mem) (v : Word) : Acts s k (.next (r.branchWritePC v)) := .next (.taken hk h hmem v)

theorem bxWritePC_acts {s r : State} (h : Transfers s r) (hmem : r.mem = s.mem) (v : Word) : Acts s .exchange (r.bxWritePC v) := by
  cases hv : v.getLsbD 0 with
  | true =>
    rw [bxWritePC_next.2 ⟨hv, rfl⟩]
    exact branchWritePC_acts (.inr rfl) h hmem v
  | false =>
    rw [bxWritePC_leaves hv]
    exact .leave (.inl rfl) hv r

theorem loadWritePC_acts {s r : State} (h : Transfers s r) (hmem : r.mem = s.mem) (v : Word) : Acts s .exchange (r.loadWritePC v) := by
  unfold State.loadWritePC
  split
  · exact bxWritePC_acts h hmem v
  · exact branchWritePC_acts (.inr rfl) h hmem v

/-- The target of BLX `<label>` is a multiple of 4 (R90, R261). -/
theorem literalBase_add_offBlx_even (s : State) (offset : BitVec 23) : (s.literalBase + offBlx offset).getLsbD 0 = false := by
  have hoffset : (offBlx offset).getLsbD 0 = false := by
    rw [offBlx, BitVec.getLsbD_signExtend, BitVec.getLsbD_append]
    rfl
  rw [BitVec.getLsbD_add (by decide), hoffset]
  simp [State.literalBase, align4]

/-! ## The effect of each instruction -/

/-- What an instruction gives: its effect is subject to its decode-time checks and to the condition of an IT block, and it is followed by
the advance of the pc, unless the effect sets the pc itself. -/
inductive Performed (i : Instr) (s : State) : Result → Prop
  | sequential (act : State → Result) (hlen : i.len = 2) (h : Acts s (effectKind i) (act s)) :
      Performed i s (Machine.sequential (decodeChecks s i) act s)
  | branching (act : State → Result) (hk : (effectKind i).setsPc = true) (h : Acts s (effectKind i) (act s)) :
      Performed i s (Machine.branching i.len (decodeChecks s i) act s)
  | stops (f : Fault) : Performed i s (.fault f)

/-- A conditional branch goes to its target or on to the next instruction. -/
theorem branchIf_acts (c : Prop) [Decidable c] (s : State) (v : Word) :
    Acts s .branch (if c then .next (s.branchWritePC v) else s.seqAdvance 2) := by
  split
  · exact branchWritePC_acts (.inl rfl) (Transfers.refl s) rfl v
  · exact seqAdvance_acts s

/-- MOV and ADD of any registers (R122, R132): to the PC they are branches. -/
theorem performed_moveTo {i : Instr} {d : Reg} (hlen : i.len = 2) (hk : effectKind i = if d = PC then .branch else .register)
    (v : State → Word) (s : State) :
    Performed i s (if d = PC then branching 2 (decodeChecks s i) (fun s => .next (s.branchWritePC (v s))) s
      else sequential (decodeChecks s i) (fun s => .next (s.setX d (v s))) s) := by
  by_cases hd : d = PC
  · rw [if_pos hd] at hk ⊢
    rw [← hlen]
    refine .branching _ (by rw [hk]; rfl) ?_
    rw [hk]
    exact branchWritePC_acts (.inl rfl) (Transfers.refl s) rfl _
  · rw [if_neg hd] at hk ⊢
    refine .sequential _ hlen ?_
    rw [hk]
    exact Acts.setX s d _

theorem performed_ldm (rn : LoReg) (list : BitVec 8) (s : State) : Performed (.ldm rn list) s (execLdm rn list s) := by
  refine .sequential _ rfl ?_
  dsimp only
  split
  · exact .fault _
  · refine .next (.register ?_ ?_)
    · split
      · exact loadRegs_transfers _ _ _
      · exact (loadRegs_transfers _ _ _).setX _ _
    · split <;> simp [loadRegs_mem]

/-- POP (R241 to R243): the PC is loaded after the other registers, in the state in which they are popped. -/
theorem performed_pop (p : Bool) (list : BitVec 8) (s : State) : Performed (.pop p list) s (execPop p list s) := by
  cases p with
  | true =>
    rw [execPop, if_pos rfl]
    refine .branching _ rfl ?_
    dsimp only
    split
    · exact .fault _
    · exact loadWritePC_acts (((loadRegs_transfers _ _ _).noteDevice _ _).setX _ _) (by simp [loadRegs_mem]) _
  | false =>
    rw [execPop, if_neg Bool.false_ne_true]
    refine .sequential _ rfl ?_
    split
    · exact .fault _
    · exact .next (.register ((loadRegs_transfers _ _ _).setX _ _) (by simp [popRegs, loadRegs_mem]))

/-- SEV, and WFE which consumes an event or waits: on V7 only (R296, R297). -/
theorem performed_sev (s : State) : Performed .sev s (execSev s) := by
  refine .sequential _ rfl ?_
  split
  · next h => exact .next (.event true (.inr (by simpa [Arch.hasV7] using h)))
  · exact .next (.event s.ev (.inl rfl))

theorem performed_wfe (s : State) : Performed .wfe s (execWfe s) := by
  refine .sequential _ rfl ?_
  split
  · next h =>
    split
    · exact .next (.event false (.inr (by simpa [Arch.hasV7] using h)))
    · exact .fault _
  · exact .next (.event s.ev (.inl rfl))

theorem performed_wfi (s : State) : Performed .wfi s (execWfi s) := by
  refine .sequential _ rfl ?_
  split
  · exact .fault _
  · exact Acts.nothing s

/-- Every instruction has the effect its kind says. -/
theorem exec_performed (i : Instr) (s : State) : Performed i s (exec i s) := by
  cases i with
  | bkpt | udf => exact .stops _
  | addHi | movHi => exact performed_moveTo rfl rfl _ s
  | ldm rn list => exact performed_ldm rn list s
  | pop p list => exact performed_pop p list s
  | sev => exact performed_sev s
  | wfe => exact performed_wfe s
  | wfi => exact performed_wfi s
  | addsReg | subsReg | addsImm3 | subsImm3 | addsImm8 | subsImm8 | adcs | sbcs | rsbs =>
    simp only [exec]
    exact .sequential _ rfl (.next (.sum _ _))
  | movsReg | movsImm | ands | eors | orrs | bics | mvns =>
    simp only [exec]
    exact .sequential _ rfl (.next (.logic _ _))
  | lslsImm | lsrsImm | asrsImm | lslsReg | lsrsReg | asrsReg | rorsReg =>
    simp only [exec]
    exact .sequential _ rfl (.next (.shift _ _))
  | muls =>
    simp only [exec]
    exact .sequential _ rfl (.next (.product _ _))
  | cmpLo | cmpHi | cmpImm | cmn =>
    simp only [exec]
    exact .sequential _ rfl (.next (.compare _))
  | tst =>
    simp only [exec]
    exact .sequential _ rfl (.next (.test _))
  | addSp | subSp | addRdSp | adr | sxth | sxtb | uxth | uxtb | rev | rev16 | revsh =>
    simp only [exec]
    exact .sequential _ rfl (Acts.setX s _ _)
  | ldrImm | ldrhImm | ldrbImm | ldrReg | ldrhReg | ldrshReg | ldrbReg | ldrsbReg | ldrLit | ldrSp =>
    simp only [exec]
    exact .sequential _ rfl (loadTo_acts _ _ _ _ s)
  | nop | yield | hint =>
    simp only [exec]
    exact .sequential _ rfl (Acts.nothing s)
  | strImm | strhImm | strbImm | strReg | strhReg | strbReg | strSp =>
    simp only [exec]
    exact .sequential _ rfl (storeFrom_acts _ _ _ s)
  | stm | push =>
    simp only [exec]
    exact .sequential _ rfl (storeMultiple_acts _ _ _ _ s)
  | bCond | cbz | cbnz =>
    simp only [exec]
    exact .branching _ rfl (branchIf_acts _ s _)
  | b =>
    simp only [exec]
    exact .branching _ rfl (branchWritePC_acts (.inl rfl) (Transfers.refl s) rfl _)
  | bl =>
    simp only [exec]
    exact .branching _ rfl (branchWritePC_acts (.inl rfl) ((Transfers.refl s).setX _ _) (by simp) _)
  | bx =>
    simp only [exec]
    exact .branching _ rfl (bxWritePC_acts (Transfers.refl s) rfl _)
  | blxReg =>
    simp only [exec]
    exact .branching _ rfl (bxWritePC_acts ((Transfers.refl s).setX _ _) (by simp) _)
  | blxLabel offset =>
    simp only [exec]
    exact .branching _ rfl (.leave (.inr rfl) (literalBase_add_offBlx_even s offset) _)
  | it firstcond mask =>
    simp only [exec]
    exact .sequential _ rfl (.next (.ifThen firstcond mask))
  | cpsid | cpsie =>
    simp only [exec]
    exact .sequential _ rfl (.next (.masks _ _ _ _))
  | setend e =>
    simp only [exec]
    exact .sequential _ rfl (.next (.endian e))
  | svc =>
    simp only [exec]
    exact .branching _ rfl (.fault _)

/-! ## What a completed instruction can have done -/

/-- The next states of an instruction: a skip where its condition fails, its effect with the sequential advance, or an effect that sets
the pc itself. -/
inductive Completes (i : Instr) (s : State) : State → Prop
  | skips (hit : s.inIT = true) (hpc : s.pc.toNat + i.len < 2 ^ 32) : Completes i s (s.skipped i.len)
  | advances {u : State} (hpc : s.pc.toNat + i.len < 2 ^ 32) (hlen : i.len = 2) (h : Effected s (effectKind i) u) :
      Completes i s (finished s u)
  | branches {u : State} (hk : (effectKind i).setsPc = true) (h : Effected s (effectKind i) u) :
      Completes i s (u.advanceIT s.itstate)

theorem Acts.effected {s u : State} {k : EffectKind} {o : Result} (h : Acts s k o) (ho : o = .next u) : Effected s k u := by
  cases h with
  | next h => exact Host.Outcome.next.inj ho ▸ h
  | fault | leave => cases ho

/-- Everything an instruction can do when it gives a next state. -/
theorem exec_next {i : Instr} {s t : State} (hn : exec i s = .next t) : decodeChecks s i = none ∧ Completes i s t := by
  cases hp : s.passed with
  | false =>
    obtain ⟨hchecks, hpc, rfl⟩ := (exec_next_of_not_passed (alwaysStops_of_next hn) hp).1 hn
    exact ⟨hchecks, .skips (State.inIT_of_not_passed hp) hpc⟩
  | true =>
    have hperformed := exec_performed i s
    rw [hn] at hperformed
    generalize ho : Host.Outcome.next t = o at hperformed
    cases hperformed with
    | sequential act hlen hact =>
      obtain ⟨hchecks, hpc, u, hu, rfl⟩ := sequential_next.1 ho.symm
      rw [if_pos hp] at hu
      exact ⟨hchecks, .advances (hlen ▸ hpc) hlen (hact.effected hu)⟩
    | branching act hk hact =>
      obtain ⟨hchecks, u, hu, rfl⟩ := branching_next.1 ho.symm
      rw [if_pos hp] at hu
      exact ⟨hchecks, .branches hk (hact.effected hu)⟩
    | stops f => cases ho

/-- A completed instruction has had its effect or none, and then only the pc and ITSTATE have changed. -/
theorem Completes.effect {i : Instr} {s t : State} (h : Completes i s t) :
    ∃ u, (u = s ∨ Effected s (effectKind i) u) ∧ t = { u with pc := t.pc, itstate := t.itstate } := by
  cases h with
  | skips => exact ⟨s, .inl rfl, rfl⟩
  | @advances u _ _ h => exact ⟨u, .inr h, by unfold finished State.advanceIT; split <;> rfl⟩
  | @branches u _ h => exact ⟨u, .inr h, by unfold State.advanceIT; split <;> rfl⟩

theorem andThen_refused_of_next {o : Result} {f : State → State} {r : Refusal}
    (h : andThen o (fun t => .next (f t)) = .refused r) : o = .refused r := by
  cases o with
  | refused r' => exact h
  | next | fault => cases h

theorem seqAdvance_not_refused {s : State} {len : Nat} {r : Refusal} : s.seqAdvance len ≠ .refused r := by
  unfold State.seqAdvance
  split <;> exact nofun

theorem sequential_refused {why : Option Unpredictable} {act : State → Result} {s : State} {r : Refusal}
    (h : sequential why act s = .refused r) : act s = .refused r := by
  unfold sequential at h
  split at h
  · cases h
  · split at h
    · cases h
    · have hact := andThen_refused_of_next h
      split at hact
      · exact hact
      · cases hact

theorem branching_refused {len : Nat} {why : Option Unpredictable} {act : State → Result} {s : State} {r : Refusal}
    (h : branching len why act s = .refused r) : act s = .refused r := by
  unfold branching at h
  split at h
  · cases h
  · have hact := andThen_refused_of_next h
    split at hact
    · exact hact
    · exact absurd hact seqAdvance_not_refused

theorem Acts.leaves {s : State} {k : EffectKind} {o : Result} {r : Refusal} (h : Acts s k o) (ho : o = .refused r) :
    (k = .exchange ∨ k = .leave) ∧ ∃ target carried, r = .leftThumbState target carried ∧ target.getLsbD 0 = false := by
  cases h with
  | next | fault => cases ho
  | leave hk htarget carried => exact ⟨hk, _, carried, (Host.Outcome.refused.inj ho).symm, htarget⟩

/-- The only refusal of an instruction is to leave Thumb state. -/
theorem exec_refused {i : Instr} {s : State} {r : Refusal} (hr : exec i s = .refused r) :
    (effectKind i = .exchange ∨ effectKind i = .leave) ∧
      ∃ target carried, r = .leftThumbState target carried ∧ target.getLsbD 0 = false := by
  have hperformed := exec_performed i s
  rw [hr] at hperformed
  generalize ho : Host.Outcome.refused r = o at hperformed
  cases hperformed with
  | sequential act _ hact => exact hact.leaves (sequential_refused ho.symm)
  | branching act _ hact => exact hact.leaves (branching_refused ho.symm)
  | stops f => cases ho

/-! ## What each kind of effect leaves alone -/

/-- No effect changes T, the parameters, the fetched bytes, or the model's account of the step. -/
structure SameRun (s u : State) : Prop where
  params : u.params = s.params
  thumb : u.t = s.t
  fetched : u.fetched = s.fetched
  stepIndex : u.stepIndex = s.stepIndex
  pending : u.pending = s.pending

theorem SameControl.sameRun {s u : State} (h : SameControl s u) : SameRun s u :=
  ⟨h.params, h.thumb, h.fetched, h.stepIndex, h.pending⟩

/-- Only an effect of one of three kinds changes E, the masks or EV. -/
theorem Effected.control {s u : State} {k : EffectKind} (h : Effected s k u) :
    SameControl s u ∨ (∃ a i f v, k = .masks ∧ u = s.setMasks a i f v) ∨ (∃ e, k = .endian e ∧ u = { s with e := e }) ∨
      ∃ b, k = .event ∧ (b = s.ev ∨ s.params.arch = .v7) ∧ u = { s with ev := b } := by
  cases h with
  | masks a i f v => exact .inr (.inl ⟨a, i, f, v, rfl, rfl⟩)
  | endian e => exact .inr (.inr (.inl ⟨e, rfl, rfl⟩))
  | event b hb => exact .inr (.inr (.inr ⟨b, rfl, hb, rfl⟩))
  | register h | store h => exact .inl h.control
  | taken _ h => exact .inl (h.control.branchWritePC _)
  | notTaken | ifThen => left; constructor <;> rfl
  | _ => left; constructor <;> simp

theorem Effected.sameRun {s u : State} {k : EffectKind} (h : Effected s k u) : SameRun s u := by
  obtain hsame | ⟨a, i, f, v, -, rfl⟩ | ⟨e, -, rfl⟩ | ⟨b, -, -, rfl⟩ := h.control
  · exact hsame.sameRun
  · constructor <;> simp
  · constructor <;> rfl
  · constructor <;> rfl

/-- A completed instruction keeps what every effect keeps. -/
theorem Completes.sameRun {i : Instr} {s t : State} (h : Completes i s t) : SameRun s t := by
  obtain ⟨u, hu, ht⟩ := h.effect
  have hrun : SameRun s u := hu.elim (fun e => e ▸ (SameControl.refl s).sameRun) Effected.sameRun
  rw [ht]
  exact ⟨hrun.params, hrun.thumb, hrun.fetched, hrun.stepIndex, hrun.pending⟩

/-! ## Who changes E, the masks, EV, and who leaves Thumb state (R30 to R34) -/

theorem Effected.endian_changed {s u : State} {k : EffectKind} (h : Effected s k u) (he : u.e ≠ s.e) : k = .endian u.e := by
  obtain hsame | ⟨a, i, f, v, -, rfl⟩ | ⟨e, rfl, rfl⟩ | ⟨b, -, -, rfl⟩ := h.control
  · exact absurd hsame.endian he
  · exact absurd (State.setMasks_e ..) he
  · rfl
  · exact absurd rfl he

theorem State.setMasks_of_not_priv {s : State} (h : s.params.priv = false) (a i f v : Bool) : s.setMasks a i f v = s := by
  simp [State.setMasks, h]

theorem Effected.masks_changed {s u : State} {k : EffectKind} (h : Effected s k u)
    (hm : u.maskA ≠ s.maskA ∨ u.maskI ≠ s.maskI ∨ u.maskF ≠ s.maskF) : s.params.priv = true ∧ k = .masks := by
  obtain hsame | ⟨a, i, f, v, rfl, rfl⟩ | ⟨e, -, rfl⟩ | ⟨b, -, -, rfl⟩ := h.control
  · simp [hsame.maskA, hsame.maskI, hsame.maskF] at hm
  · cases hp : s.params.priv with
    | true => exact ⟨rfl, rfl⟩
    | false => simp [State.setMasks_of_not_priv hp] at hm
  · simp at hm
  · simp at hm

theorem Effected.event_changed {s u : State} {k : EffectKind} (h : Effected s k u) (he : u.ev ≠ s.ev) :
    s.params.arch = .v7 ∧ k = .event := by
  obtain hsame | ⟨a, i, f, v, -, rfl⟩ | ⟨e, -, rfl⟩ | ⟨b, rfl, hb, rfl⟩ := h.control
  · exact absurd hsame.event he
  · exact absurd (State.setMasks_ev ..) he
  · exact absurd rfl he
  · exact ⟨hb.resolve_left he, rfl⟩

theorem setend_of_effectKind {i : Instr} {e : Endian} (h : effectKind i = .endian e) : i = .setend e := by
  cases i with
  | setend e' => cases h; rfl
  | addHi | movHi | pop => simp only [effectKind] at h; split at h <;> cases h
  | _ => cases h

theorem cps_of_effectKind {i : Instr} (h : effectKind i = .masks) : (∃ a m f, i = .cpsid a m f) ∨ ∃ a m f, i = .cpsie a m f := by
  cases i with
  | cpsid a m f => exact .inl ⟨a, m, f, rfl⟩
  | cpsie a m f => exact .inr ⟨a, m, f, rfl⟩
  | addHi | movHi | pop => simp only [effectKind] at h; split at h <;> cases h
  | _ => cases h

theorem wfe_or_sev_of_effectKind {i : Instr} (h : effectKind i = .event) : i = .wfe ∨ i = .sev := by
  cases i with
  | wfe => exact .inl rfl
  | sev => exact .inr rfl
  | addHi | movHi | pop => simp only [effectKind] at h; split at h <;> cases h
  | _ => cases h

theorem exchanging_of_effectKind {i : Instr} (h : effectKind i = .exchange ∨ effectKind i = .leave) :
    (∃ rm, i = .bx rm) ∨ (∃ rm, i = .blxReg rm) ∨ (∃ offset, i = .blxLabel offset) ∨ ∃ list, i = .pop true list := by
  cases i with
  | bx rm => exact .inl ⟨rm, rfl⟩
  | blxReg rm => exact .inr (.inl ⟨rm, rfl⟩)
  | blxLabel offset => exact .inr (.inr (.inl ⟨offset, rfl⟩))
  | pop p list =>
    cases p with
    | true => exact .inr (.inr (.inr ⟨list, rfl⟩))
    | false => obtain h | h := h <;> cases h
  | addHi | movHi => simp only [effectKind] at h; split at h <;> obtain h | h := h <;> cases h
  | _ => obtain h | h := h <;> cases h

theorem loadWritePC_refused {s : State} {v : Word} {r : Refusal} (h : s.loadWritePC v = .refused r) : s.params.arch.has5T = true := by
  cases h5 : s.params.arch.has5T with
  | true => rfl
  | false => simp [State.loadWritePC, h5] at h

/-- Before V5T a popped PC never changes the state (R242). -/
theorem pop_refused {list : BitVec 8} {s : State} {r : Refusal} (h : exec (.pop true list) s = .refused r) :
    s.params.arch.has5T = true := by
  rw [exec, execPop, if_pos rfl] at h
  have heffect := branching_refused h
  dsimp only at heffect
  split at heffect
  · cases heffect
  · simpa [readNow_state, (loadRegs_transfers _ _ _).control.params] using loadWritePC_refused heffect

/-- Settles O15: a change of a control field shows the kind of the effect, and so the instruction. -/
theorem controlStateWriters : Obligations.ControlStateWriters := by
  refine ⟨fun i s r hr => ?_, fun i s t hn => ?_⟩
  · obtain ⟨hk, hleaves⟩ := exec_refused hr
    refine ⟨hleaves, ?_⟩
    obtain hbx | hblx | hlabel | ⟨list, rfl⟩ := exchanging_of_effectKind hk
    · exact .inl hbx
    · exact .inr (.inl hblx)
    · exact .inr (.inr (.inl hlabel))
    · exact .inr (.inr (.inr ⟨⟨list, rfl⟩, pop_refused hr⟩))
  · obtain ⟨-, hc⟩ := exec_next hn
    refine ⟨hc.sameRun.thumb, ?_⟩
    obtain ⟨u, hu, ht⟩ := hc.effect
    rw [ht]
    obtain rfl | hu := hu
    · simp
    · refine ⟨fun he => ?_, fun hm => ?_, fun he => ?_⟩
      · exact setend_of_effectKind (hu.endian_changed he)
      · obtain ⟨hpriv, hk⟩ := hu.masks_changed hm
        exact ⟨hpriv, cps_of_effectKind hk⟩
      · obtain ⟨harch, hk⟩ := hu.event_changed he
        exact ⟨harch, wfe_or_sev_of_effectKind hk⟩

/-! ## Who changes a flag (R29, R253) -/

/-- The kinds that may change a flag. -/
def EffectKind.changesFlags : EffectKind → Bool
  | .sum | .logic | .shift | .product | .compare | .test => true
  | _ => false

/-- The kinds that may change C at a version (R146 for MULS). -/
def EffectKind.changesCarry (arch : Arch) : EffectKind → Bool
  | .sum | .shift | .compare => true
  | .product => arch == .v4T
  | _ => false

/-- The kinds that may change V at a version (R146 for MULS). -/
def EffectKind.changesOverflow (arch : Arch) : EffectKind → Bool
  | .sum | .compare => true
  | .product => arch == .v4T
  | _ => false

/-- The kinds that may change a flag in an IT block (R253). -/
def EffectKind.changesFlagsInIT : EffectKind → Bool
  | .compare | .test => true
  | _ => false

theorem product_flags (s : State) (d : LoReg) (v : Word) :
    (((s.setX (lo d) v).writeFlagsOutsideIT (mulFlags s v)).useMulDraw).flags = if s.inIT then s.flags else mulFlags s v := by
  simp [State.writeFlagsOutsideIT_flags]

theorem Effected.flags_changed {s u : State} {k : EffectKind} (h : Effected s k u) (hf : u.flags ≠ s.flags) :
    k.changesFlags = true := by
  cases h with
  | sum | logic | shift | product | compare | test => rfl
  | register h | store h | taken _ h => exact absurd h.flags hf
  | masks => exact absurd (State.setMasks_flags ..) hf
  | notTaken | ifThen | endian | event => exact absurd rfl hf

theorem mulFlags_keeps {s : State} (h : s.params.arch ≠ .v4T) (v : Word) : mulFlags s v = s.flags.setNZ v := if_neg h

/-- Setting N and Z, or nothing in an IT block, keeps C and V. -/
theorem setNZ_outsideIT_keeps (s : State) (v : Word) :
    (if s.inIT then s.flags else s.flags.setNZ v).c = s.flags.c ∧ (if s.inIT then s.flags else s.flags.setNZ v).v = s.flags.v := by
  split <;> exact ⟨rfl, rfl⟩

theorem Effected.carry_changed {s u : State} {k : EffectKind} (h : Effected s k u) (hc : u.flags.c ≠ s.flags.c) :
    k.changesCarry s.params.arch = true := by
  have hflags := h.flags_changed fun e => hc (congrArg Flags.c e)
  cases h with
  | sum | shift | compare => rfl
  | logic d v =>
    rw [State.putNZ_flags] at hc
    exact absurd (setNZ_outsideIT_keeps s v).1 hc
  | product d v =>
    by_cases h4 : s.params.arch = .v4T
    · simpa [EffectKind.changesCarry] using h4
    · rw [product_flags, mulFlags_keeps h4] at hc
      split at hc <;> exact absurd rfl hc
  | test => exact absurd rfl hc
  | taken hk => obtain rfl | rfl := hk <;> cases hflags
  | _ => cases hflags

theorem Effected.overflow_changed {s u : State} {k : EffectKind} (h : Effected s k u) (hv : u.flags.v ≠ s.flags.v) :
    k.changesOverflow s.params.arch = true := by
  have hflags := h.flags_changed fun e => hv (congrArg Flags.v e)
  cases h with
  | sum | compare => rfl
  | logic d v =>
    rw [State.putNZ_flags] at hv
    exact absurd (setNZ_outsideIT_keeps s v).2 hv
  | shift d r =>
    rw [State.putShifted_flags] at hv
    split at hv <;> exact absurd rfl hv
  | product d v =>
    by_cases h4 : s.params.arch = .v4T
    · simpa [EffectKind.changesOverflow] using h4
    · rw [product_flags, mulFlags_keeps h4] at hv
      split at hv <;> exact absurd rfl hv
  | test => exact absurd rfl hv
  | taken hk => obtain rfl | rfl := hk <;> cases hflags
  | _ => cases hflags

theorem Effected.flags_changed_inIT {s u : State} {k : EffectKind} (h : Effected s k u) (hit : s.inIT = true)
    (hf : u.flags ≠ s.flags) : k.changesFlagsInIT = true := by
  have hflags := h.flags_changed hf
  cases h with
  | compare | test => rfl
  | sum d r => exact absurd (by rw [State.putSum_flags, if_pos hit]) hf
  | logic d v => exact absurd (by rw [State.putNZ_flags, if_pos hit]) hf
  | shift d r => exact absurd (by rw [State.putShifted_flags, if_pos hit]) hf
  | product d v => exact absurd (by rw [product_flags, if_pos hit]) hf
  | taken hk => obtain rfl | rfl := hk <;> cases hflags
  | _ => cases hflags

/-- Settles O17: a change of a flag shows the kind of the effect, and so the instruction. -/
theorem flagWriters : Obligations.FlagWriters := by
  intro i s t hn
  obtain ⟨-, hc⟩ := exec_next hn
  obtain ⟨u, hu, ht⟩ := hc.effect
  have hflags : t.flags = u.flags := by rw [ht]
  rw [hflags]
  obtain rfl | hu := hu
  · simp
  refine ⟨fun h => ?_, fun h => ?_, fun h => ?_, fun hit h => ?_⟩
  · have hk := hu.flags_changed h
    cases i with
    | addHi | movHi | pop => simp only [effectKind] at hk; split at hk <;> cases hk
    | movsImm | movsReg | addsImm3 | addsReg | addsImm8 | adcs | subsReg | subsImm3 | subsImm8 | sbcs | rsbs | cmpLo | cmpHi
    | cmpImm | cmn | muls | ands | eors | orrs | bics | mvns | tst | lslsImm | lsrsImm | asrsImm | lslsReg | lsrsReg | asrsReg
    | rorsReg => trivial
    | _ => cases hk
  · have hk := hu.carry_changed h
    cases i with
    | addHi | movHi | pop => simp only [effectKind] at hk; split at hk <;> cases hk
    | muls => exact eq_of_beq hk
    | addsImm3 | addsReg | addsImm8 | adcs | subsReg | subsImm3 | subsImm8 | sbcs | rsbs | cmpLo | cmpHi | cmpImm | cmn | lslsImm
    | lsrsImm | asrsImm | lslsReg | lsrsReg | asrsReg | rorsReg => trivial
    | _ => cases hk
  · have hk := hu.overflow_changed h
    cases i with
    | addHi | movHi | pop => simp only [effectKind] at hk; split at hk <;> cases hk
    | muls => exact eq_of_beq hk
    | addsImm3 | addsReg | addsImm8 | adcs | subsReg | subsImm3 | subsImm8 | sbcs | rsbs | cmpLo | cmpHi | cmpImm | cmn => trivial
    | _ => cases hk
  · have hk := hu.flags_changed_inIT hit h
    cases i with
    | addHi | movHi | pop => simp only [effectKind] at hk; split at hk <;> cases hk
    | cmpLo | cmpHi | cmpImm | cmn | tst => trivial
    | _ => cases hk

/-! ## The advance of the pc (R24, R27) -/

theorem sequential_wraps {s : State} (h : 2 ^ 32 ≤ s.pc.toNat + 2) (act : State → Result) :
    sequential none act s = .fault (.unpredictable .pcWrap) := by
  have hw : s.wraps 2 = true := decide_eq_true h
  simp [sequential, hw, raiseUnpredictable, raise]

theorem Effected.kind_of_setsPc {s u : State} {k : EffectKind} (h : Effected s k u) (hk : k.setsPc = true) :
    k = .branch ∨ k = .exchange := by
  cases h with
  | taken hk => exact hk
  | notTaken => exact .inl rfl
  | _ => cases hk

/-- Settles O56: a completed instruction has advanced sequentially or had the effect of a branch, and the wrap of a sequential advance is
checked before the effect. -/
theorem sequentialAdvance : Obligations.SequentialAdvance := by
  refine ⟨fun i s t hn => ?_, fun i s h hi => ?_⟩
  · obtain ⟨-, hc⟩ := exec_next hn
    cases hc with
    | skips hit hpc => exact .inl ⟨rfl, hpc⟩
    | advances hpc hlen hu => exact .inl ⟨by rw [finished_pc, hlen], hpc⟩
    | branches hk hu =>
      have hbranch := hu.kind_of_setsPc hk
      right
      cases i with
      | movHi d m | addHi d m =>
        by_contra hd
        simp [effectKind, show d ≠ PC from hd] at hbranch
      | pop p list =>
        cases p with
        | true => trivial
        | false => obtain h | h := hbranch <;> cases h
      | bx | blxReg | bCond | cbz | cbnz | b | bl => trivial
      | _ => obtain h | h := hbranch <;> cases h
  · cases i with
    | movsReg | cmpHi | muls | addHi | movHi | bx | blxReg | cbz | cbnz | push | setend | cpsie | cpsid | pop | bkpt | it | stm | ldm
    | udf | svc | bCond | b | bl | blxLabel => exact hi.elim
    | _ =>
      simp only [exec]
      exact sequential_wraps h _

/-! ## The fetch -/

/-- What every fetch of a halfword keeps, the fetch of an instruction keeps. -/
theorem fetchInstr_induct {P : State → Prop} (hP : ∀ {addr hw s t}, P s → fetchHalfword addr s = .ok (hw, t) → P t) {s u : State}
    {hw1 hw2 : Half} (hs : P s) (h : fetchInstr s = .ok (hw1, hw2, u)) : P u := by
  unfold fetchInstr at h
  cases hf : fetchHalfword s.pc s with
  | error f => simp [hf] at h
  | ok p =>
    obtain ⟨hw, t⟩ := p
    have ht := hP hs hf
    cases hw' : isWide hw with
    | false =>
      simp only [hf, hw', Bool.false_eq_true, if_false] at h
      cases h
      exact ht
    | true =>
      cases hf2 : fetchHalfword (s.pc + 2#32) t with
      | error f => simp [hf, hw', hf2] at h
      | ok q =>
        simp only [hf, hw', hf2, if_true] at h
        cases h
        exact hP ht hf2

theorem fetchHalfword_state {addr : Word} {hw : Half} {s t : State} (h : fetchHalfword addr s = .ok (hw, t)) :
    t = (s.noteDevice (s.touchesDevice .half addr) (.read addr 2)).markFetched addr := by
  unfold fetchHalfword at h
  split at h
  · cases h
  · split at h
    · cases h
    · cases h
      rfl

theorem fetchHalfword_fetched {addr : Word} {hw : Half} {s t : State} (h : fetchHalfword addr s = .ok (hw, t)) :
    t.fetched = markByte (byteAddr addr 0) (markByte (byteAddr addr 1) s.fetched) := by
  rw [fetchHalfword_state h, State.markFetched, State.noteDevice_fetched]

/-! ## Parameters and step index (R39, R316) -/

/-- The parameters and the step index are those of `s`. -/
def SameStep (s t : State) : Prop := t.params = s.params ∧ t.stepIndex = s.stepIndex

theorem fetchInstr_sameStep {s u : State} {hw1 hw2 : Half} (h : fetchInstr s = .ok (hw1, hw2, u)) : SameStep s u := by
  refine fetchInstr_induct (P := SameStep s) (fun {addr hw t v} ht hf => ?_) ⟨rfl, rfl⟩ h
  obtain ⟨hparams, hindex⟩ := ht
  rw [fetchHalfword_state hf]
  exact ⟨by simp [hparams], by simp [hindex]⟩

/-- A step ends with the parameters it began with, and with the next index. -/
theorem stepUnder_params {irq : IrqOracle} {s t : State} (h : stepUnder irq neverResumes s = .next t) :
    t.params = s.params ∧ t.stepIndex = s.stepIndex + 1 := by
  obtain ⟨-, -, hw1, hw2, u, i, v, hfetch, -, hexec, rfl⟩ := stepUnder_next.1 h
  obtain ⟨hparams, hindex⟩ := fetchInstr_sameStep hfetch
  have hrun := (exec_next hexec).2.sameRun
  constructor
  · rw [State.nextStep_params, hrun.params, hparams, State.beginStep_params]
  · rw [State.nextStep_stepIndex, hrun.stepIndex, hindex, State.beginStep_stepIndex]

/-- A step under an environment completes, or its stop is resumed with the parameters of before and the next step index (log 8). -/
theorem stepUnder_completed_or_resumed {irq : IrqOracle} {env : EnvResume} {s t : State} (h : stepUnder irq env s = .next t) :
    stepUnder irq neverResumes s = .next t ∨ ∃ u : State, t = { u with params := s.params, stepIndex := s.stepIndex + 1 } := by
  rw [stepUnder_neverResumes]
  unfold stepUnder at h
  cases hc : cycle (irq s.stepIndex) s with
  | next v =>
    rw [hc] at h
    exact .inl h
  | fault f =>
    rw [hc] at h
    obtain ⟨u, -, ht⟩ := (resumeAt_next (by simp)).1 h
    exact .inr ⟨u, ht⟩
  | refused r =>
    rw [hc] at h
    obtain ⟨u, -, ht⟩ := (resumeAt_next (by simp)).1 h
    exact .inr ⟨u, ht⟩

/-- Settles O14: a step that completes keeps the parameters part by part, and a resumed one is given them by the model. -/
theorem stepKeepsParameters : Obligations.StepKeepsParameters := by
  rintro s t (h | ⟨irq, env, h⟩)
  · exact stepUnder_params h
  · obtain h | ⟨u, rfl⟩ := stepUnder_completed_or_resumed h
    · exact stepUnder_params h
    · exact ⟨rfl, rfl⟩

/-! ## Decoded instructions are well formed and of the version (R82, R97) -/

theorem imm_toNat (n : Nat) (hw : Half) (lo : Nat) : (imm n hw lo).toNat = bits hw lo n := by
  simp [imm, bits]

theorem bits_lt (hw : Half) (lo len : Nat) : bits hw lo len < 2 ^ len := Nat.mod_lt _ (Nat.two_pow_pos len)

theorem imm_ne_zero {n : Nat} {hw : Half} {lo : Nat} (h : bits hw lo n ≠ 0) : imm n hw lo ≠ 0 := by
  intro e
  rw [← imm_toNat, e] at h
  simp at h

/-- R102, R93: among the hints IT has a mask that is not 0, and the other numbers are allocated up to 4. -/
theorem decodeBF_wf (hw : Half) : (decodeBF hw).wf = true := by
  unfold decodeBF
  split
  · split
    case h_6 h0 h1 h2 h3 h4 =>
      have : 5 ≤ (imm 4 hw 4).toNat := by
        rw [imm_toNat]
        simp only [imp_false] at h0 h1 h2 h3 h4
        omega
      simpa [Instr.wf] using this
    all_goals rfl
  · next h => simpa [Instr.wf] using imm_ne_zero h

theorem decodeBC_wf (hw : Half) : (decodeBC hw).wf = true := by
  have hlt := bits_lt hw 8 4
  unfold decodeBC
  split
  case h_3 h14 h15 =>
    have : (imm 4 hw 8).toNat < 14 := by
      rw [imm_toNat]
      simp only [imp_false] at h14 h15
      omega
    simpa [Instr.wf] using this
  all_goals rfl

theorem decodeAS3_wf (hw : Half) : (decodeAS3 hw).wf = true := by
  unfold decodeAS3
  split <;> rfl

theorem decodeDP_wf (hw : Half) : (decodeDP hw).wf = true := by
  unfold decodeDP
  split <;> rfl

theorem decodeLSR_wf (hw : Half) : (decodeLSR hw).wf = true := by
  unfold decodeLSR
  split <;> rfl

theorem decodeEXT_wf (hw : Half) : (decodeEXT hw).wf = true := by
  unfold decodeEXT
  split <;> rfl

/-- Every instruction that may be in the option is well formed. -/
def AllWf (o : Option Instr) : Prop := ∀ i ∈ o, i.wf = true

theorem allWf_some {i : Instr} (h : i.wf = true) : AllWf (some i) := by
  rintro _ ⟨⟩
  exact h

theorem allWf_none : AllWf none := nofun

theorem decodeHI_wf (hw : Half) : AllWf (decodeHI hw) := by
  unfold decodeHI
  split
  case h_4 =>
    split
    · split <;> exact allWf_some rfl
    · exact allWf_none
  all_goals exact allWf_some rfl

theorem decodeREV_wf (hw : Half) : AllWf (decodeREV hw) := by
  unfold decodeREV
  split
  case h_4 => exact allWf_none
  all_goals exact allWf_some rfl

theorem decodeB6_wf (hw : Half) : AllWf (decodeB6 hw) := by
  unfold decodeB6
  split
  case h_1 | h_2 =>
    split
    · exact allWf_some rfl
    · exact allWf_none
  case h_5 => exact allWf_none
  all_goals exact allWf_some rfl

theorem decodeMisc_wf (hw : Half) : AllWf (decodeMisc hw) := by
  unfold decodeMisc
  split
  case h_1 => split <;> exact allWf_some rfl
  case h_3 => exact allWf_some (decodeEXT_wf hw)
  case h_7 => exact decodeB6_wf hw
  case h_9 => exact decodeREV_wf hw
  case h_14 => exact allWf_some (decodeBF_wf hw)
  case h_15 => exact allWf_none
  all_goals exact allWf_some rfl

theorem decode16_wf (hw : Half) : AllWf (decode16 hw) := by
  unfold decode16
  split
  case h_1 =>
    split
    · exact allWf_some rfl
    · next h => exact allWf_some (by simpa [Instr.wf] using imm_ne_zero h)
  case h_4 => exact allWf_some (decodeAS3_wf hw)
  case h_9 =>
    split
    · exact decodeHI_wf hw
    · exact allWf_some (decodeDP_wf hw)
  case h_11 | h_12 => exact allWf_some (decodeLSR_wf hw)
  case h_23 | h_24 => exact decodeMisc_wf hw
  case h_27 | h_28 => exact allWf_some (decodeBC_wf hw)
  case h_30 => exact allWf_none
  all_goals exact allWf_some rfl

/-- Whatever is decoded is well formed and is of the version. -/
theorem decode_instr {arch : Arch} {hw1 hw2 : Half} {i : Instr} (h : decode arch hw1 hw2 = .instr i) :
    i.wf = true ∧ i.availableAt arch = true := by
  unfold decode at h
  split at h
  · simp only [decodeWide, notBl] at h
    split_ifs at h <;> cases h <;> exact ⟨rfl, ‹_›⟩
  · unfold decodeNarrow at h
    split at h
    · next hj =>
      split_ifs at h with havail
      cases h
      exact ⟨decode16_wf hw1 _ hj, havail⟩
    · split_ifs at h

/-! ## The invariant -/

theorem Params.entry_even (p : Params) : p.entry.getLsbD 0 = false := by
  rw [Params.entry, BitVec.getLsbD_append]
  rfl

/-- The launch state satisfies the invariant, whatever the spec leaves unspecified (R351). -/
theorem State.launch_inv (p : Params) (regs : Vector Word 15) (flags : Flags) (ev : Bool) {mem : Memory} (h : mem.wf) :
    (State.launch p regs flags ev mem).Inv where
  pcEven := Params.entry_even p
  thumb := rfl
  memWf := h
  fetchedWf := ⟨List.Pairwise.nil, nofun⟩
  itLegal := rfl
  itAbsent _ := rfl
  eConstant _ := rfl
  masksConstant _ := ⟨rfl, rfl, rfl⟩

/-- Settles O13: the reset state is a launch state with empty memory. -/
theorem resetSatisfiesInvariant : Obligations.ResetSatisfiesInvariant := State.launch_inv _ _ _ _ Memory.wf_empty

/-! ### The legal values of ITSTATE (R33, R250, R251) -/

theorem itLegal_itAdvance : ∀ it : BitVec 8, itLegal it = true → itLegal (itAdvance it) = true := by decide

/-- The checks of IT (U25, U26) are those that make its ITSTATE legal. -/
theorem itLegal_append : ∀ firstcond mask : BitVec 4, mask ≠ 0#4 → firstcond ≠ 15#4 →
    (firstcond = 14#4 → mask = 1#4 ∨ mask = 2#4 ∨ mask = 4#4 ∨ mask = 8#4) → itLegal (firstcond ++ mask) = true := by decide

theorem itLegal_of_itChecks {s : State} {firstcond mask : BitVec 4} (hmask : mask ≠ 0#4) (h : itChecks firstcond mask s = none) :
    itLegal (firstcond ++ mask) = true := by
  simp only [itChecks, Option.or_eq_none_iff, check_none, beq_eq_false_iff_ne] at h
  obtain ⟨⟨-, hcond⟩, hal⟩ := h
  refine itLegal_append firstcond mask hmask hcond fun h14 => ?_
  revert hal
  subst h14
  revert mask
  decide

/-! ### Every effect keeps it -/

/-- What an instruction must have passed, to be decoded and to execute, for its effect to keep the invariant. -/
def EffectKind.Allowed (s : State) : EffectKind → Prop
  | .ifThen firstcond mask => s.params.arch.hasT2 = true ∧ itLegal (firstcond ++ mask) = true
  | .masks | .endian _ => s.params.arch.has6 = true
  | _ => True

theorem since_le_of_availableAt {arch : Arch} {i : Instr} (h : i.availableAt arch = true) :
    decide (i.since.rank ≤ arch.rank) = true := by
  unfold Instr.availableAt at h
  exact (Bool.and_eq_true_iff.1 h).1

theorem effectKind_allowed {i : Instr} {s : State} (hwf : i.wf = true) (havail : i.availableAt s.params.arch = true)
    (hchecks : decodeChecks s i = none) : (effectKind i).Allowed s := by
  cases i with
  | it firstcond mask =>
    exact ⟨since_le_of_availableAt havail, itLegal_of_itChecks (by simpa [Instr.wf] using hwf) hchecks⟩
  | cpsid | cpsie | setend => exact since_le_of_availableAt havail
  | addHi | movHi | pop => simp only [effectKind]; split <;> trivial
  | _ => trivial

theorem clearBit0_even (v : Word) : (clearBit0 v).getLsbD 0 = false := by simp [clearBit0]

theorem Effected.pc_even {s u : State} {k : EffectKind} (h : Effected s k u) (hs : s.pc.getLsbD 0 = false) :
    u.pc.getLsbD 0 = false := by
  cases h with
  | register h | store h => rwa [h.pc]
  | taken => exact clearBit0_even _
  | notTaken => rwa [getLsbD_zero_add_two]
  | ifThen | endian | event => exact hs
  | _ => simpa using hs

theorem Effected.mem_wf {s u : State} {k : EffectKind} (h : Effected s k u) (hs : s.mem.wf) : u.mem.wf := by
  cases h with
  | store _ hmem => exact hmem hs
  | register _ hmem => rwa [hmem]
  | taken _ _ hmem => rwa [State.branchWritePC_mem, hmem]
  | notTaken | ifThen | endian | event => exact hs
  | _ => simpa using hs

theorem Effected.itstate_eq {s u : State} {k : EffectKind} (h : Effected s k u) :
    u.itstate = s.itstate ∨ ∃ firstcond mask, k = .ifThen firstcond mask ∧ u.itstate = firstcond ++ mask := by
  cases h with
  | ifThen firstcond mask => exact .inr ⟨firstcond, mask, rfl, rfl⟩
  | register h | store h | taken _ h => exact .inl h.itstate
  | notTaken | endian | event => exact .inl rfl
  | _ => left; simp

theorem Effected.inv {s u : State} {k : EffectKind} (h : Effected s k u) (hs : s.Inv) (hk : k.Allowed s) : u.Inv where
  pcEven := h.pc_even hs.pcEven
  thumb := h.sameRun.thumb.trans hs.thumb
  memWf := h.mem_wf hs.memWf
  fetchedWf := by
    rw [h.sameRun.fetched]
    exact hs.fetchedWf
  itLegal := by
    obtain hit | ⟨firstcond, mask, rfl, hit⟩ := h.itstate_eq
    · rw [hit]
      exact hs.itLegal
    · rw [hit]
      exact hk.2
  itAbsent hT2 := by
    rw [h.sameRun.params] at hT2
    obtain hit | ⟨firstcond, mask, rfl, -⟩ := h.itstate_eq
    · rw [hit]
      exact hs.itAbsent hT2
    · cases hT2.symm.trans hk.1
  eConstant h6 := by
    rw [h.sameRun.params] at h6 ⊢
    have he : u.e = s.e := by
      by_contra hne
      rw [h.endian_changed hne] at hk
      cases h6.symm.trans hk
    rw [he]
    exact hs.eConstant h6
  masksConstant h6 := by
    rw [h.sameRun.params] at h6
    have hm : ¬(u.maskA ≠ s.maskA ∨ u.maskI ≠ s.maskI ∨ u.maskF ≠ s.maskF) := by
      intro hne
      rw [(h.masks_changed hne).2] at hk
      cases h6.symm.trans hk
    simp only [not_or, not_not] at hm
    obtain ⟨hA, hI, hF⟩ := hm
    rw [hA, hI, hF]
    exact hs.masksConstant h6

/-! ### Every step keeps it -/

theorem State.Inv.setPc {s : State} (h : s.Inv) {v : Word} (hv : v.getLsbD 0 = false) : State.Inv { s with pc := v } where
  pcEven := hv
  thumb := h.thumb
  memWf := h.memWf
  fetchedWf := h.fetchedWf
  itLegal := h.itLegal
  itAbsent := h.itAbsent
  eConstant := h.eConstant
  masksConstant := h.masksConstant

/-- The advance of an IT block (R251) keeps the invariant; without Thumb-2 there is no block to advance. -/
theorem State.Inv.advanceIT {s : State} (h : s.Inv) {it : BitVec 8} (hlegal : Machine.itLegal it = true)
    (habsent : s.params.arch.hasT2 = false → it = 0#8) : (s.advanceIT it).Inv := by
  unfold State.advanceIT
  split
  · next hblock =>
    exact
      { h with
        itLegal := itLegal_itAdvance it hlegal
        itAbsent := fun hT2 => by
          rw [habsent hT2] at hblock
          cases hblock }
  · exact h

theorem len_eq_two_or_four (i : Instr) : i.len = 2 ∨ i.len = 4 := by
  cases i with
  | bl | blxLabel => exact .inr rfl
  | _ => exact .inl rfl

theorem State.nextPc_even {s : State} (h : s.pc.getLsbD 0 = false) {len : Nat} (hlen : len = 2 ∨ len = 4) :
    (s.nextPc len).getLsbD 0 = false := by
  rw [State.nextPc, BitVec.getLsbD_add (by decide), h]
  obtain rfl | rfl := hlen <;> simp

theorem Completes.inv {i : Instr} {s t : State} (h : Completes i s t) (hs : s.Inv) (hk : (effectKind i).Allowed s) : t.Inv := by
  cases h with
  | skips hit =>
    rw [← State.advance_eq_skipped hit]
    exact (hs.setPc (State.nextPc_even hs.pcEven (len_eq_two_or_four i))).advanceIT hs.itLegal hs.itAbsent
  | @advances u _ _ hu =>
    have hpc := State.nextPc_even hs.pcEven (.inl rfl)
    refine ((hu.inv hs hk).setPc hpc).advanceIT hs.itLegal fun hT2 => hs.itAbsent ?_
    rwa [← hu.sameRun.params]
  | branches _ hu =>
    refine (hu.inv hs hk).advanceIT hs.itLegal fun hT2 => hs.itAbsent ?_
    rwa [← hu.sameRun.params]

theorem State.Inv.beginStep {s : State} (h : s.Inv) (events : EventSet) : (s.beginStep events).Inv where
  pcEven := by simpa using h.pcEven
  thumb := by simpa using h.thumb
  memWf := by simpa using h.memWf
  fetchedWf := by simpa using h.fetchedWf
  itLegal := by simpa using h.itLegal
  itAbsent := by simpa using h.itAbsent
  eConstant := by simpa using h.eConstant
  masksConstant := by simpa using h.masksConstant

theorem State.Inv.nextStep {s : State} (h : s.Inv) : s.nextStep.Inv := { h with }

theorem markByte_wf {a : Nat} {l : List Nat} (ha : a < 2 ^ 32) (h : l.Pairwise (· < ·) ∧ ∀ b ∈ l, b < 2 ^ 32) :
    (markByte a l).Pairwise (· < ·) ∧ ∀ b ∈ markByte a l, b < 2 ^ 32 := by
  refine ⟨pairwise_markByte h.1, fun b hb => ?_⟩
  obtain rfl | hb := mem_markByte.1 hb
  · exact ha
  · exact h.2 b hb

theorem State.Inv.fetchHalfword {addr : Word} {hw : Half} {s t : State} (h : s.Inv) (hf : fetchHalfword addr s = .ok (hw, t)) :
    t.Inv := by
  have hmarked := markByte_wf (byteAddr_lt addr 0) (markByte_wf (byteAddr_lt addr 1) h.fetchedWf)
  rw [← fetchHalfword_fetched hf] at hmarked
  rw [fetchHalfword_state hf] at hmarked ⊢
  exact
    { pcEven := by simpa using h.pcEven
      thumb := by simpa using h.thumb
      memWf := by simpa using h.memWf
      fetchedWf := hmarked
      itLegal := by simpa using h.itLegal
      itAbsent := by simpa using h.itAbsent
      eConstant := by simpa using h.eConstant
      masksConstant := by simpa using h.masksConstant }

theorem stepUnder_inv {irq : IrqOracle} {s t : State} (hs : s.Inv) (h : stepUnder irq neverResumes s = .next t) : t.Inv := by
  obtain ⟨-, -, hw1, hw2, u, i, v, hfetch, hdecode, hexec, rfl⟩ := stepUnder_next.1 h
  have hu : u.Inv := fetchInstr_induct State.Inv.fetchHalfword (hs.beginStep _) hfetch
  have hparams : u.params = s.params := (fetchInstr_sameStep hfetch).1.trans (State.beginStep_params s _)
  obtain ⟨hwf, havail⟩ := decode_instr hdecode
  rw [← hparams] at havail
  obtain ⟨hchecks, hc⟩ := exec_next hexec
  exact (hc.inv hu (effectKind_allowed hwf havail hchecks)).nextStep

/-- Settles O12: `step` is `stepUnder` with one `IrqOracle`, and each part of a step keeps the invariant. -/
theorem stepKeepsInvariant : Obligations.StepKeepsInvariant := by
  rintro s t hs (h | ⟨irq, h⟩)
  · exact stepUnder_inv hs h
  · exact stepUnder_inv hs h

end Sys2Proof.Machine
end

section
/-! Proofs of the statements of 20_memory.md: the access primitives, the byte order of an access, who writes memory, and where loads and
stores stop. -/

namespace Sys2Proof.Machine

/-! ## Where an access stops (R52, R53, R57, R64) -/

theorem memRead_of_check {w : Width} {addr : Word} {s : State} {f : Fault} (h : readCheck w addr s = some f) :
    memRead w addr s = .error f := by simp [memRead, h]

theorem memWrite_of_check {w : Width} {addr v : Word} {s : State} {f : Fault} (h : writeCheck w addr s = some f) :
    memWrite w addr v s = .error f := by simp [memWrite, h]

theorem loadTo_of_check {w : Width} {ext : Word → Word} {rt : LoReg} {addr : Word} {s : State} {f : Fault}
    (h : readCheck w addr s = some f) : loadTo w ext rt addr s = .fault f := by simp [loadTo, memRead_of_check h, raise]

theorem storeFrom_of_check {w : Width} {v addr : Word} {s : State} {f : Fault} (h : writeCheck w addr s = some f) :
    storeFrom w v addr s = .fault f := by simp [storeFrom, memWrite_of_check h, raise]

theorem storeMultiple_of_check {vs : List Word} {base : Word} {s : State} {f : Fault} (h : writeChecks vs.length base s = some f) :
    storeMultiple vs base s = .fault f := by simp [storeMultiple, h, raise]

/-! ## MemRead and MemWrite (R52, R53) -/

/-- An aligned read of mapped bytes returns the value of R52, and the state with the access noted where it touches a device. -/
theorem memRead_readable {w : Width} {addr : Word} {s : State} (halign : addr.toNat % w.bytes = 0) (h : Readable s addr w.bytes) :
    memRead w addr s = .ok (readValue s s.draws w addr, s.noteDevice (s.touchesDevice w addr) (.read addr w.bytes)) := by
  rw [memRead_ok, readNow, fromBytes_sampleBytes]
  exact ⟨readCheck_none_iff.2 ⟨halign, h⟩, rfl⟩

/-- Settles O25: a read that passes its checks changes what `State.noteDevice` does. -/
theorem memReadCases : Obligations.MemReadCases := by
  intro w addr s
  refine ⟨fun h => memRead_of_check (readCheck_misaligned h), fun halign h => memRead_of_check (readCheck_unmapped halign h),
    fun halign h => ⟨_, memRead_readable halign h, State.noteDevice_traces _ _ _, ?_⟩⟩
  have hnoted := (Transfers.refl s).noteDevice (s.touchesDevice w addr) (.read addr w.bytes)
  exact ⟨by simp, by simp, hnoted.flags, hnoted.pc, hnoted.itstate, hnoted.control⟩

/-- Settles O26: a write that passes its checks gives `writeNow`, whose parts are the laws of one access. -/
theorem memWriteCases : Obligations.MemWriteCases := by
  intro w addr v s
  refine ⟨fun h => memWrite_of_check (writeCheck_misaligned h), fun halign h => memWrite_of_check (writeCheck_denied halign h),
    fun halign h => ⟨writeNow w addr v s, memWrite_ok.2 ⟨writeCheck_none_iff.2 ⟨halign, h⟩, rfl⟩, ?_⟩⟩
  exact ⟨writeNow_inside s w addr v, writeNow_device s w addr v, writeNow_outside s w addr v, writeNow_traces s w addr v,
    by simp, by simp, by simp, by simp, writeNow_control s w addr v⟩

/-! ## FetchHalfword (R56) -/

theorem fetchHalfword_odd {s : State} {addr : Word} (h : addr.getLsbD 0 = true) :
    fetchHalfword addr s = .error (.unpredictable .pcOdd) := if_pos h

theorem fetchHalfword_unmapped {s : State} {addr : Word} (heven : addr.getLsbD 0 = false) (h : ¬Readable s addr 2) :
    fetchHalfword addr s = .error (.prefetchAbort addr) := by
  have hbytes : allBytes .half addr s.readable = false := by
    rw [← Bool.not_eq_true, allBytes_iff]
    exact mt readable_iff.1 h
  rw [fetchHalfword, heven, hbytes]
  rfl

/-- Settles O11: a fetch reads no field of the state but the parameters, memory and the count of draws. -/
theorem fetchHalfwordCases : Obligations.FetchHalfwordCases := fun _ addr =>
  ⟨fetchHalfword_odd, fetchHalfword_unmapped, fetchHalfword_ok, fun _ => halfAt_congr rfl rfl rfl addr⟩

/-! ## Normal memory (R55, R66) -/

/-- Every byte of an access is `Normal` memory. -/
def NormalBytes (s : State) (addr : Word) (n : Nat) : Prop := ∀ i < n, kindOf s.params (byteAddr addr i) = .normal

theorem NormalBytes.readable {s : State} {addr : Word} {n : Nat} (h : NormalBytes s addr n) : Readable s addr n :=
  fun i hi => by simp [h i hi]

theorem NormalBytes.touchesDevice {s : State} {addr : Word} {w : Width} (h : NormalBytes s addr w.bytes) :
    s.touchesDevice w addr = false := by
  simp only [State.touchesDevice, List.any_eq_false, List.mem_range, beq_iff_eq]
  intro i hi
  simp [h i hi]

theorem NormalBytes.writeNow {s : State} {addr : Word} {n : Nat} (h : NormalBytes s addr n) (w : Width) (a v : Word) :
    NormalBytes (writeNow w a v s) addr n := by
  rw [NormalBytes, writeNow_params]
  exact h

/-- The value that the bytes `b 0`, `b 1`, ... of an access make (R52). -/
def joinBytes (e : Endian) (w : Width) (b : Nat → Byte) : Word :=
  match w, e with
  | .byte, _ => (b 0).zeroExtend 32
  | .half, .little => (b 1 ++ b 0 : BitVec 16).zeroExtend 32
  | .half, .big => (b 0 ++ b 1 : BitVec 16).zeroExtend 32
  | .word, .little => (b 3 ++ b 2 ++ b 1 ++ b 0 : BitVec 32)
  | .word, .big => (b 0 ++ b 1 ++ b 2 ++ b 3 : BitVec 32)

theorem readValue_eq_joinBytes (s : State) (d : Nat) (w : Width) (addr : Word) :
    readValue s d w addr = joinBytes s.e w (fun i => byteRead s d (byteAddr addr i)) := by
  unfold readValue joinBytes
  cases w <;> cases s.e <;> rfl

theorem joinBytes_congr {e : Endian} {w : Width} {b c : Nat → Byte} (h : ∀ i < w.bytes, b i = c i) :
    joinBytes e w b = joinBytes e w c := by
  cases w with
  | byte => simp [joinBytes, h 0 (by decide)]
  | half => cases e <;> simp [joinBytes, h 0 (by decide), h 1 (by decide)]
  | word => cases e <;> simp [joinBytes, h 0 (by decide), h 1 (by decide), h 2 (by decide), h 3 (by decide)]

theorem byteRead_normal {s : State} {a : Nat} (h : kindOf s.params a = .normal) (d : Nat) : byteRead s d a = s.byteAt a := by
  simp [byteRead, h]

/-- An aligned read of `Normal` memory returns the bytes there in the order of E, and changes nothing. -/
theorem memRead_normal {w : Width} {addr : Word} {s : State} (halign : addr.toNat % w.bytes = 0)
    (h : NormalBytes s addr w.bytes) : memRead w addr s = .ok (joinBytes s.e w (fun i => s.byteAt (byteAddr addr i)), s) := by
  rw [memRead_readable halign h.readable, h.touchesDevice, readValue_eq_joinBytes,
    joinBytes_congr fun i hi => byteRead_normal (h i hi) s.draws]
  rfl

/-- After a write to `Normal` memory the bytes of R53 are there, and the access was aligned. -/
theorem memWrite_normal {w : Width} {addr v : Word} {s t : State} (ht : memWrite w addr v s = .ok t)
    (h : NormalBytes s addr w.bytes) :
    addr.toNat % w.bytes = 0 ∧ t.e = s.e ∧ NormalBytes t addr w.bytes ∧
      ∀ i < w.bytes, t.byteAt (byteAddr addr i) = storedByte s w v i := by
  obtain ⟨hcheck, rfl⟩ := memWrite_ok.1 ht
  obtain ⟨halign, -⟩ := writeCheck_none_iff.1 hcheck
  exact ⟨halign, writeNow_e w addr v s, h.writeNow w addr v, fun i hi => writeNow_inside s w addr v i hi (by simp [h i hi])⟩

/-! ### What was written is read back (R66) -/

/-- The part of a value that an access unit holds. -/
def Width.lowBits (w : Width) (v : Word) : Word :=
  match w with
  | .byte => (v.extractLsb' 0 8).zeroExtend 32
  | .half => (v.extractLsb' 0 16).zeroExtend 32
  | .word => v

theorem append_bytes_half (v : Word) : (v.extractLsb' 8 8 ++ v.extractLsb' 0 8 : BitVec 16) = v.extractLsb' 0 16 :=
  BitVec.extractLsb'_append_extractLsb'_eq_extractLsb' (x := v) rfl

theorem append_bytes_word (v : Word) :
    (v.extractLsb' 24 8 ++ v.extractLsb' 16 8 ++ v.extractLsb' 8 8 ++ v.extractLsb' 0 8 : BitVec 32) = v := by
  have h3 : v.extractLsb' 24 8 ++ v.extractLsb' 16 8 = v.extractLsb' 16 16 :=
    BitVec.extractLsb'_append_extractLsb'_eq_extractLsb' rfl
  have h2 : v.extractLsb' 16 16 ++ v.extractLsb' 8 8 = v.extractLsb' 8 24 :=
    BitVec.extractLsb'_append_extractLsb'_eq_extractLsb' rfl
  have h1 : v.extractLsb' 8 24 ++ v.extractLsb' 0 8 = v.extractLsb' 0 32 :=
    BitVec.extractLsb'_append_extractLsb'_eq_extractLsb' rfl
  rw [h3, h2, h1, BitVec.extractLsb'_eq_self]

/-- The bytes that R53 stores are those of which R52 makes the value again. -/
theorem joinBytes_storedByte (s : State) (w : Width) (v : Word) : joinBytes s.e w (storedByte s w v) = w.lowBits v := by
  cases he : s.e <;> cases w <;>
    simp only [joinBytes, storedByte, he, Width.bytes, Width.lowBits, Nat.reduceMul, Nat.reduceSub, append_bytes_half,
      append_bytes_word]

/-- Settles O27: the read takes the stored bytes in the order in which the write laid them. -/
theorem storeThenLoadReturnsValue : Obligations.StoreThenLoadReturnsValue := by
  intro w addr v s t ht h
  obtain ⟨halign, he, hnormal, hbytes⟩ := memWrite_normal ht h
  have hread : memRead w addr t = .ok (w.lowBits v, t) := by
    rw [memRead_normal halign hnormal, joinBytes_congr hbytes, he, joinBytes_storedByte]
  cases w <;> exact hread

/-! ### Both settings of E (R55) -/

theorem extractLsb'_append_byte {n : Nat} (x : BitVec n) (b : Byte) (start : Nat) :
    (x ++ b).extractLsb' (start + 8) 8 = x.extractLsb' start 8 :=
  BitVec.extractLsb'_append_eq_of_le (Nat.le_add_left 8 start)

/-- The bytes of a word written as four bytes. -/
theorem extractLsb'_append_bytes (b3 b2 b1 b0 : Byte) :
    (b3 ++ b2 ++ b1 ++ b0 : BitVec 32).extractLsb' 0 8 = b0 ∧ (b3 ++ b2 ++ b1 ++ b0 : BitVec 32).extractLsb' 8 8 = b1 ∧
      (b3 ++ b2 ++ b1 ++ b0 : BitVec 32).extractLsb' 16 8 = b2 ∧ (b3 ++ b2 ++ b1 ++ b0 : BitVec 32).extractLsb' 24 8 = b3 := by
  have h1 : (b3 ++ b2 ++ b1).extractLsb' 0 8 = b1 := BitVec.extractLsb'_append_eq_right
  have h2 : (b3 ++ b2 ++ b1).extractLsb' 8 8 = b2 := (extractLsb'_append_byte _ b1 0).trans BitVec.extractLsb'_append_eq_right
  have h3 : (b3 ++ b2 ++ b1).extractLsb' 16 8 = b3 := (extractLsb'_append_byte _ b1 8).trans BitVec.extractLsb'_append_eq_left
  exact ⟨BitVec.extractLsb'_append_eq_right, (extractLsb'_append_byte _ b0 0).trans h1, (extractLsb'_append_byte _ b0 8).trans h2,
    (extractLsb'_append_byte _ b0 16).trans h3⟩

theorem byteAddr_add_two (addr : Word) (i : Nat) : byteAddr (addr + 2#32) i = byteAddr addr (2 + i) := by
  rw [byteAddr, byteAddr, BitVec.toNat_add, BitVec.toNat_ofNat]
  omega

/-- The upper half of a word of `Normal` memory. -/
theorem NormalBytes.upperHalf {s : State} {addr : Word} (h : NormalBytes s addr 4) : NormalBytes s (addr + 2#32) 2 := by
  intro i hi
  rw [byteAddr_add_two]
  exact h (2 + i) (by omega)

/-- Settles O28: the write fixes the four bytes, and each of the six reads takes them in its own order. -/
theorem mixedEndianAccess : Obligations.MixedEndianAccess := by
  intro addr b3 b2 b1 b0 s t h ht holds
  obtain ⟨halign, -, hnormal, hbytes⟩ := memWrite_normal ht h
  have hhalf : addr.toNat % 2 = 0 := by
    simp only [Width.bytes] at halign
    omega
  have hupper : (addr + 2#32).toNat % 2 = 0 := by
    rw [BitVec.toNat_add, BitVec.toNat_ofNat]
    omega
  have hlower : NormalBytes t addr 2 := fun i hi => hnormal i (Nat.lt_trans hi (by decide))
  have hreads : ∀ c0 c1 c2 c3, t.byteAt (byteAddr addr 0) = c0 → t.byteAt (byteAddr addr 1) = c1 →
      t.byteAt (byteAddr addr 2) = c2 → t.byteAt (byteAddr addr 3) = c3 → holds c0 c1 c2 c3 := by
    rintro _ _ _ _ rfl rfl rfl rfl
    have hread (e : Endian) := memRead_normal (w := .word) (s := { t with e := e }) halign hnormal
    have hreadLower (e : Endian) := memRead_normal (w := .half) (s := { t with e := e }) hhalf hlower
    have hreadUpper (e : Endian) := memRead_normal (w := .half) (s := { t with e := e }) hupper hnormal.upperHalf
    simp only [byteAddr_add_two] at hreadUpper
    exact ⟨rfl, rfl, rfl, rfl, hread .little, hread .big, hreadLower .little, hreadLower .big, hreadUpper .little, hreadUpper .big⟩
  obtain ⟨h0, h1, h2, h3⟩ := extractLsb'_append_bytes b3 b2 b1 b0
  have hb0 := hbytes 0 (by decide)
  have hb1 := hbytes 1 (by decide)
  have hb2 := hbytes 2 (by decide)
  have hb3 := hbytes 3 (by decide)
  constructor
  · intro he
    simp only [storedByte, he] at hb0 hb1 hb2 hb3
    exact hreads _ _ _ _ (hb0.trans h0) (hb1.trans h1) (hb2.trans h2) (hb3.trans h3)
  · intro he
    simp only [storedByte, he] at hb0 hb1 hb2 hb3
    exact hreads _ _ _ _ (hb0.trans h3) (hb1.trans h2) (hb2.trans h1) (hb3.trans h0)

/-! ## Who writes memory (R59) -/

theorem Effected.mem_changed {s u : State} {k : EffectKind} (h : Effected s k u) (hm : u.mem ≠ s.mem) : k = .store := by
  cases h with
  | store => rfl
  | register _ hmem | taken _ _ hmem => exact absurd hmem hm
  | notTaken | ifThen | endian | event => exact absurd rfl hm
  | _ => exact absurd (by simp) hm

/-- Settles O18: a change of memory shows the kind of the effect, and so the instruction. -/
theorem memoryWriters : Obligations.MemoryWriters := by
  intro i s t a hn ha
  obtain ⟨-, hc⟩ := exec_next hn
  obtain ⟨u, hu, ht⟩ := hc.effect
  have hmem : u.mem ≠ s.mem := by
    intro hsame
    rw [ht] at ha
    exact ha (congrArg (Memory.read · a) hsame)
  have hk : effectKind i = .store := by
    obtain rfl | hu := hu
    · exact absurd rfl hmem
    · exact hu.mem_changed hmem
  cases i with
  | strImm | strReg | strSp | strhImm | strhReg | strbImm | strbReg | stm | push => trivial
  | addHi | movHi | pop =>
    simp only [effectKind] at hk
    split at hk <;> cases hk
  | _ => cases hk

/-! ## Single loads and stores that may not access a byte (R57, R64) -/

theorem sequential_fault {act : State → Result} {s : State} {f : Fault} (h : Runs 2 s) (ha : act s = .fault f) :
    sequential none act s = .fault f := by
  rw [sequential_runs h, ha]
  rfl

/-- How `o` stops for an access to `addr`: `ok` says that its bytes admit the access. -/
def AccessFaults (w : Width) (addr : Word) (ok : Prop) (o : Result) : Prop :=
  (addr.toNat % w.bytes ≠ 0 → o = .fault (.alignmentFault addr)) ∧ (addr.toNat % w.bytes = 0 → ¬ok → o = .fault (.dataAbort addr))

theorem load_faults {s : State} (h : Runs 2 s) {w : Width} {ext : Word → Word} {rt : LoReg} {addrOf : State → Word}
    {addr : Word} (ha : addrOf s = addr) :
    AccessFaults w addr (Readable s addr w.bytes) (sequential none (fun s => loadTo w ext rt (addrOf s) s) s) := by
  subst ha
  exact ⟨fun hmis => sequential_fault h (loadTo_of_check (readCheck_misaligned hmis)),
    fun halign hbad => sequential_fault h (loadTo_of_check (readCheck_unmapped halign hbad))⟩

theorem store_faults {s : State} (h : Runs 2 s) {w : Width} {v addrOf : State → Word} {addr : Word} (ha : addrOf s = addr) :
    AccessFaults w addr (Storable s addr w.bytes) (sequential none (fun s => storeFrom w (v s) (addrOf s) s) s) := by
  subst ha
  exact ⟨fun hmis => sequential_fault h (storeFrom_of_check (writeCheck_misaligned hmis)),
    fun halign hbad => sequential_fault h (storeFrom_of_check (writeCheck_denied halign hbad))⟩

/-- Settles O41: the effect of each of these instructions is one load or store, at the address its rule computes. -/
theorem singleAccessFaults : Obligations.SingleAccessFaults := by
  intro s rt rn rm imm5 imm8 h n m faults loads stores
  have h4 (a : Word) : a + zimm4 imm5 = a + BitVec.ofNat 32 (4 * imm5.toNat) := by rw [zimm4_eq (by decide)]
  have h2 (a : Word) : a + zimm2 imm5 = a + BitVec.ofNat 32 (2 * imm5.toNat) := by rw [zimm2_eq (by decide)]
  have h1 (a : Word) : a + zimm imm5 = a + BitVec.ofNat 32 imm5.toNat := by rw [zimm_eq]
  have h8 (a : Word) : a + zimm4 imm8 = a + BitVec.ofNat 32 (4 * imm8.toNat) := by rw [zimm4_eq (by decide)]
  simp only [exec]
  exact ⟨load_faults h (h4 n), load_faults h (h2 n), load_faults h (h1 n), load_faults h rfl, load_faults h rfl, load_faults h rfl,
    load_faults h rfl, load_faults h rfl, load_faults h (h8 _), load_faults h (h8 _), store_faults h (h4 n), store_faults h (h2 n),
    store_faults h (h1 n), store_faults h rfl, store_faults h rfl, store_faults h rfl, store_faults h (h8 _)⟩

/-! ## Multiple transfers that may not access a word (R57, R60, R64) -/

/-- How `o` stops for a transfer of `count` words from `base` upward: `ok` says that a word admits the access. -/
def TransferFaults (base : Word) (count : Nat) (ok : Word → Prop) (o : Result) : Prop :=
  (base.toNat % 4 ≠ 0 → o = .fault (.alignmentFault base)) ∧
  (base.toNat % 4 = 0 → ∀ j < count, ¬ok (base + words j) → (∀ k < j, ok (base + words k)) →
    o = .fault (.dataAbort (base + words j)))

theorem readChecks_faults {s : State} {base : Word} {count : Nat} {o : Result}
    (h : ∀ f, readChecks count base s = some f → o = .fault f) : TransferFaults base count (fun a => Readable s a 4) o :=
  ⟨fun hmis => h _ (readChecks_misaligned hmis),
    fun halign j hj hbad hgood => h _ (readChecks_unmapped halign j hj hbad hgood)⟩

theorem writeChecks_faults {s : State} {base : Word} {count : Nat} {o : Result}
    (h : ∀ f, writeChecks count base s = some f → o = .fault f) : TransferFaults base count (fun a => Storable s a 4) o :=
  ⟨fun hmis => h _ (writeChecks_misaligned hmis),
    fun halign j hj hbad hgood => h _ (writeChecks_denied halign j hj hbad hgood)⟩

@[simp] theorem length_listedValues (s : State) (list : BitVec 8) : (s.listedValues list).length = bitCount list := by
  simp [State.listedValues, bitCount]

@[simp] theorem length_pushValues (m : Bool) (list : BitVec 8) (s : State) : (pushValues m list s).length = stackCount m list := by
  cases m <;> simp [pushValues, stackCount]

/-- The lowest listed register is lowest in the list, in the words of the check of STM (R227). -/
theorem lowestInList_of_le {list : BitVec 8} {rn : LoReg} (h : ∀ r ∈ listed list, rn ≤ r) : lowestInList list rn = true := by
  rw [lowestInList, beq_iff_eq]
  apply Nat.eq_of_testBit_eq
  intro k
  rw [Nat.testBit_mod_two_pow, Nat.zero_testBit, Bool.and_eq_false_imp, decide_eq_true_iff]
  intro hk
  by_contra hbit
  have hle := h ⟨k, hk.trans rn.isLt⟩ (mem_listed.2 (by simpa [BitVec.getLsbD] using hbit))
  exact absurd hk (Nat.not_lt.2 hle)

theorem stmChecks_none {rn : LoReg} {list : BitVec 8} (hlist : list ≠ 0#8) (h : rn ∈ listed list → ∀ r ∈ listed list, rn ≤ r) :
    stmChecks rn list = none := by
  have hlow : (inList list rn && !lowestInList list rn) = false := by
    cases hin : inList list rn with
    | false => rfl
    | true => simp [lowestInList_of_le (h (mem_listed.2 hin))]
  simp [stmChecks, check, hlist, hlow]

theorem popChecks_none {p : Bool} {list : BitVec 8} {s : State} (hlist : p = true ∨ list ≠ 0#8)
    (hlast : s.inIT = true → s.lastInIT = true) : popChecks p list s = none := by
  have hmid : s.midIT = false := by
    cases hit : s.inIT with
    | false => simp [State.midIT, hit]
    | true => exact State.midIT_of_lastInIT (hlast hit)
  obtain rfl | hlist := hlist
  · simp [popChecks, check, hmid]
  · simp [popChecks, check, hlist, hmid]

theorem ldm_fault {s : State} {rn : LoReg} {list : BitVec 8} {f : Fault} (h : Runs 2 s) (hlist : list ≠ 0#8)
    (hf : readChecks (bitCount list) (s.x (lo rn)) s = some f) : exec (.ldm rn list) s = .fault f := by
  have hcheck : check (list == 0#8) .ldmEmpty = none := check_none.2 (by simpa using hlist)
  rw [exec, execLdm, hcheck]
  exact sequential_fault h (by simp [hf, raise])

theorem stm_fault {s : State} {rn : LoReg} {list : BitVec 8} {f : Fault} (h : Runs 2 s) (hcheck : stmChecks rn list = none)
    (hf : writeChecks (bitCount list) (s.x (lo rn)) s = some f) : exec (.stm rn list) s = .fault f := by
  rw [← length_listedValues s] at hf
  rw [exec, execStm, hcheck]
  exact sequential_fault h (by simp [storeMultiple_of_check hf])

theorem push_fault {s : State} {m : Bool} {list : BitVec 8} {f : Fault} (h : Runs 2 s) (hlist : m = true ∨ list ≠ 0#8)
    (hf : writeChecks (stackCount m list) (pushBase m list s) s = some f) : exec (.push m list) s = .fault f := by
  have hcheck : check (!m && list == 0#8) .pushEmpty = none := check_none.2 (by simpa [or_iff_not_imp_left] using hlist)
  rw [← length_pushValues m list s] at hf
  rw [exec, execPush, hcheck]
  exact sequential_fault h (by simp [storeMultiple_of_check hf])

/-- POP with the PC stops before the PC is loaded, and so where POP without it does (R242, R243). -/
theorem pop_fault {s : State} {p : Bool} {list : BitVec 8} {f : Fault} (h : Runs 2 s) (hcheck : popChecks p list s = none)
    (hf : readChecks (stackCount p list) (s.x SP) s = some f) : exec (.pop p list) s = .fault f := by
  rw [exec, execPop, hcheck]
  cases p with
  | true =>
    rw [if_pos rfl, branching_runs h.1]
    simp [hf, raise]
  | false =>
    rw [if_neg Bool.false_ne_true]
    exact sequential_fault h (by simp [hf, raise])

/-- Settles O48: past its decode-time checks each of the four instructions stops where the checks of its transfer do. -/
theorem multipleAccessFaults : Obligations.MultipleAccessFaults := by
  intro s rn list extra h hlast faults readable storable
  refine ⟨fun hlist => ?_, fun hlist hlowest => ?_, fun hlist => ⟨?_, ?_⟩⟩
  · exact readChecks_faults fun f => ldm_fault h hlist
  · exact writeChecks_faults fun f => stm_fault h (stmChecks_none hlist hlowest)
  · exact writeChecks_faults fun f => push_fault h hlist
  · exact readChecks_faults fun f => pop_fault h (popChecks_none hlist hlast)

end Sys2Proof.Machine
end

section
/-! Proofs of the statements of 30_encoding.md: decoding and encoding are inverse, the versions of the rows, the 32-bit space, and the
halfwords that match no row. -/

namespace Sys2Proof.Machine

/-! ## The fields of a halfword that is built from fields (R82) -/

/-- A field of a halfword given as a number is that field of the number. -/
theorem bits_half {n lo len : Nat} (h : lo + len ≤ 16) : bits (half n) lo len = n / 2 ^ lo % 2 ^ len := by
  have hsplit : 2 ^ 16 = 2 ^ lo * 2 ^ (16 - lo) := by rw [← Nat.pow_add]; congr 1; omega
  rw [bits, half, BitVec.toNat_ofNat, hsplit, Nat.mod_mul_right_div_self, Nat.mod_mod_of_dvd _ (Nat.pow_dvd_pow 2 (by omega))]

/-- Operands below bit `k` do not reach the fields from there up. -/
theorem bits_half_add {base f k lo len : Nat} (hb : base % 2 ^ k = 0) (hf : f < 2 ^ k) (hk : k ≤ lo) (hlen : lo + len ≤ 16) :
    bits (half (base + f)) lo len = base / 2 ^ lo % 2 ^ len := by
  obtain ⟨c, rfl⟩ := Nat.dvd_of_mod_eq_zero hb
  obtain ⟨d, rfl⟩ := Nat.exists_eq_add_of_le hk
  rw [bits_half hlen, Nat.pow_add, ← Nat.div_div_eq_div_mul, ← Nat.div_div_eq_div_mul, Nat.mul_add_div (by positivity),
    Nat.div_eq_of_lt hf, Nat.add_zero, Nat.mul_div_cancel_left _ (by positivity)]

theorem lo3_half {n lo : Nat} {r : LoReg} (hlo : lo + 3 ≤ 16) (h : n / 2 ^ lo % 8 = r.val) : lo3 (half n) lo = r :=
  Fin.ext ((bits_half hlo).trans h)

theorem imm_half {n lo len : Nat} {v : BitVec len} (hlen : lo + len ≤ 16) (h : n / 2 ^ lo % 2 ^ len = v.toNat) :
    imm len (half n) lo = v := BitVec.eq_of_toNat_eq (by rw [imm_toNat, bits_half hlen, h])

/-! ### Formats with registers at bits 5:3 and 2:0 (SH, AS3, DP, LSR, LSI, EXT, REV) -/

theorem bits_regs {base lo len : Nat} (a b : LoReg) (hb : base % 64 = 0) (hlo : 6 ≤ lo) (hlen : lo + len ≤ 16) :
    bits (half (base + b * 8 + a)) lo len = base / 2 ^ lo % 2 ^ len := by
  rw [Nat.add_assoc]
  exact bits_half_add (k := 6) hb (by omega) hlo hlen

theorem lo3_regs_zero {base : Nat} (a b : LoReg) (hb : base % 64 = 0) : lo3 (half (base + b * 8 + a)) 0 = a :=
  lo3_half (by omega) (by omega)

theorem lo3_regs_three {base : Nat} (a b : LoReg) (hb : base % 64 = 0) : lo3 (half (base + b * 8 + a)) 3 = b :=
  lo3_half (by omega) (by omega)

theorem bits_regs3 {base lo len : Nat} (a b c : LoReg) (hb : base % 512 = 0) (hlo : 9 ≤ lo) (hlen : lo + len ≤ 16) :
    bits (half (base + c * 64 + b * 8 + a)) lo len = base / 2 ^ lo % 2 ^ len := by
  rw [Nat.add_assoc, Nat.add_assoc]
  exact bits_half_add (k := 9) hb (by omega) hlo hlen

theorem lo3_regs3_six {base : Nat} (a b c : LoReg) (hb : base % 512 = 0) : lo3 (half (base + c * 64 + b * 8 + a)) 6 = c :=
  lo3_half (by omega) (by omega)

theorem bits_immRegs {base lo len k : Nat} (a b : LoReg) (v : BitVec k) (hb : base % 2 ^ (k + 6) = 0) (hlo : k + 6 ≤ lo)
    (hlen : lo + len ≤ 16) : bits (half (base + v.toNat * 64 + b * 8 + a)) lo len = base / 2 ^ lo % 2 ^ len := by
  have hv : (v.toNat + 1) * 64 ≤ 2 ^ k * 2 ^ 6 := Nat.mul_le_mul_right 64 v.isLt
  rw [Nat.add_assoc, Nat.add_assoc]
  exact bits_half_add hb (by rw [Nat.pow_add]; omega) hlo hlen

theorem imm_immRegs {base k : Nat} (a b : LoReg) (v : BitVec k) (hb : base % 2 ^ (k + 6) = 0) (hk : k + 6 ≤ 16) :
    imm k (half (base + v.toNat * 64 + b * 8 + a)) 6 = v := by
  obtain ⟨c, rfl⟩ := Nat.dvd_of_mod_eq_zero hb
  refine imm_half (by omega) ?_
  have : (2 ^ (k + 6) * c + v.toNat * 64 + b * 8 + a) / 2 ^ 6 = v.toNat + 2 ^ k * c := by
    rw [Nat.pow_add, Nat.mul_right_comm]; omega
  rw [this, Nat.add_mul_mod_self_left, Nat.mod_eq_of_lt v.isLt]

theorem bits_immRegs_six {base k : Nat} (a b : LoReg) (v : BitVec k) (hb : base % 2 ^ (k + 6) = 0) (hk : k + 6 ≤ 16) :
    bits (half (base + v.toNat * 64 + b * 8 + a)) 6 k = v.toNat := by
  rw [← imm_toNat, imm_immRegs a b v hb hk]

/-! ### Formats with a register at bits 10:8 and an immediate or a list at bits 7:0 -/

theorem bits_regImm8 {base lo len : Nat} (r : LoReg) (v : BitVec 8) (hb : base % 2048 = 0) (hlo : 11 ≤ lo) (hlen : lo + len ≤ 16) :
    bits (half (base + r * 256 + v.toNat)) lo len = base / 2 ^ lo % 2 ^ len := by
  rw [Nat.add_assoc]
  exact bits_half_add (k := 11) hb (by omega) hlo hlen

theorem lo3_regImm8 {base : Nat} (r : LoReg) (v : BitVec 8) (hb : base % 2048 = 0) :
    lo3 (half (base + r * 256 + v.toNat)) 8 = r := lo3_half (by omega) (by omega)

/-! ### Formats with one immediate, at the bottom -/

theorem bits_immLow {base lo len k : Nat} (v : BitVec k) (hb : base % 2 ^ k = 0) (hlo : k ≤ lo) (hlen : lo + len ≤ 16) :
    bits (half (base + v.toNat)) lo len = base / 2 ^ lo % 2 ^ len := bits_half_add hb v.isLt hlo hlen

theorem imm_immLow {base k : Nat} (v : BitVec k) (hb : base % 2 ^ k = 0) (hk : k ≤ 16) : imm k (half (base + v.toNat)) 0 = v := by
  obtain ⟨c, rfl⟩ := Nat.dvd_of_mod_eq_zero hb
  refine imm_half (by omega) ?_
  rw [Nat.pow_zero, Nat.div_one, Nat.mul_add_mod, Nat.mod_eq_of_lt v.isLt]


/-! ### The other 16-bit formats: BX, HI, CB, IT and B{cond} -/

theorem bits_reg4 {base lo len : Nat} (r : Reg) (hb : base % 128 = 0) (hlo : 7 ≤ lo) (hlen : lo + len ≤ 16) :
    bits (half (base + r * 8)) lo len = base / 2 ^ lo % 2 ^ len := bits_half_add (k := 7) hb (by omega) hlo hlen

theorem bits_reg4_zero {base : Nat} (r : Reg) (hb : base % 128 = 0) : bits (half (base + r * 8)) 0 3 = 0 := by
  rw [bits_half (by omega)]; omega

theorem reg4_reg4 {base : Nat} (r : Reg) (hb : base % 128 = 0) : reg4 (half (base + r * 8)) = r :=
  Fin.ext ((bits_half (by omega)).trans (by omega))

theorem bits_hi {base lo len : Nat} (d m : Reg) (hb : base % 256 = 0) (hlo : 8 ≤ lo) (hlen : lo + len ≤ 16) :
    bits (half (base + m * 8 + hiD d)) lo len = base / 2 ^ lo % 2 ^ len := by
  rw [Nat.add_assoc]
  exact bits_half_add (k := 8) hb (by rw [hiD]; omega) hlo hlen

theorem reg4_hi {base : Nat} (d m : Reg) (hb : base % 256 = 0) : reg4 (half (base + m * 8 + hiD d)) = m :=
  Fin.ext ((bits_half (by omega)).trans (by rw [hiD]; omega))

theorem regD_hi {base : Nat} (d m : Reg) (hb : base % 256 = 0) : regD (half (base + m * 8 + hiD d)) = d := by
  refine Fin.ext ?_
  change bits _ 7 1 * 8 + bits _ 0 3 = _
  rw [bits_half (by omega), bits_half (by omega), hiD]
  omega


theorem bits_cb_top {base : Nat} (v : BitVec 6) (r : LoReg) (hb : base % 1024 = 256) :
    bits (half (base + cbImm v + r)) 12 4 = base / 4096 % 16 := by
  rw [bits_half (by omega), cbImm]
  omega

theorem bits_cb_eight {base : Nat} (v : BitVec 6) (r : LoReg) (hb : base % 1024 = 256) :
    bits (half (base + cbImm v + r)) 8 4 = base / 256 % 16 + v.toNat / 32 * 2 := by
  rw [bits_half (by omega), cbImm]
  omega

theorem lo3_cb {base : Nat} (v : BitVec 6) (r : LoReg) (hb : base % 1024 = 256) : lo3 (half (base + cbImm v + r)) 0 = r :=
  lo3_half (by omega) (by rw [cbImm]; omega)

theorem cbOffset_cb {base : Nat} (v : BitVec 6) (r : LoReg) (hb : base % 1024 = 256) :
    cbOffset (half (base + cbImm v + r)) = v := by
  refine BitVec.eq_of_toNat_eq ?_
  rw [cbOffset, BitVec.toNat_ofNat, bits_half (by omega), bits_half (by omega), cbImm]
  omega

theorem bits_it {base lo len : Nat} (c m : BitVec 4) (hb : base % 256 = 0) (hlo : 8 ≤ lo) (hlen : lo + len ≤ 16) :
    bits (half (base + c.toNat * 16 + m.toNat)) lo len = base / 2 ^ lo % 2 ^ len := by
  rw [Nat.add_assoc]
  exact bits_half_add (k := 8) hb (by omega) hlo hlen

theorem imm_it {base : Nat} (c m : BitVec 4) (hb : base % 256 = 0) : imm 4 (half (base + c.toNat * 16 + m.toNat)) 4 = c :=
  imm_half (by omega) (by omega)

/-! ## Every 16-bit instruction is decoded from its encoding (R82, R96) -/

/-- R85: LSLS with shift 0 is `MOVS Rd, Rm`. -/
theorem decode16_movsReg {hw : Half} (h : bits hw 6 10 = 0) : decode16 hw = some (.movsReg (lo3 hw 0) (lo3 hw 3)) := by
  have h11 : bits hw 11 5 = 0 := by simp only [bits] at h ⊢; omega
  have h6 : bits hw 6 5 = 0 := by simp only [bits] at h ⊢; omega
  simp [decode16, h11, h6]

theorem decode16_lslsImm {hw : Half} (h11 : bits hw 11 5 = 0) (h6 : bits hw 6 5 ≠ 0) :
    decode16 hw = some (.lslsImm (lo3 hw 0) (lo3 hw 3) (imm 5 hw 6)) := by simp [decode16, h11, h6]

theorem bits_eleven_of_twelve {hw : Half} {n : Nat} (h : bits hw 12 4 = n) : bits hw 11 5 = 2 * n ∨ bits hw 11 5 = 2 * n + 1 := by
  simp only [bits] at h ⊢
  omega

theorem decode16_misc {hw : Half} (h : bits hw 12 4 = 11) : decode16 hw = decodeMisc hw := by
  obtain h | h := bits_eleven_of_twelve h <;> simp [decode16, h]

theorem decode16_branch {hw : Half} (h : bits hw 12 4 = 13) : decode16 hw = some (decodeBC hw) := by
  obtain h | h := bits_eleven_of_twelve h <;> simp [decode16, h]

theorem decodeBC_bCond {hw : Half} (h : bits hw 8 4 < 14) : decodeBC hw = .bCond (imm 4 hw 8) (imm 8 hw 0) := by
  unfold decodeBC
  split
  · omega
  · omega
  · rfl

theorem decodeMisc_hints {hw : Half} (h : bits hw 8 4 = 15) : decodeMisc hw = some (decodeBF hw) := by simp [decodeMisc, h]

theorem decodeBF_hint {hw : Half} (h0 : bits hw 0 4 = 0) (h4 : 5 ≤ bits hw 4 4) : decodeBF hw = .hint (imm 4 hw 4) := by
  rw [decodeBF, if_pos h0]
  split
  case h_6 => rfl
  all_goals omega

theorem decodeBF_it {hw : Half} (h0 : bits hw 0 4 ≠ 0) : decodeBF hw = .it (imm 4 hw 4) (imm 4 hw 0) := if_neg h0

/-- A 16-bit instruction is decoded from its encoding, by the format it has (R82). -/
theorem decode16_encode {i : Instr} {hw : Half} (hwf : i.wf = true) (h : encode i = [hw]) : decode16 hw = some i := by
  cases i with
  | movsReg rd rm =>
    cases h
    rw [decode16_movsReg (bits_regs _ _ rfl (by decide) (by decide)), lo3_regs_zero _ _ rfl, lo3_regs_three _ _ rfl]
  | lslsImm rd rm v =>
    cases h
    have hv : v.toNat ≠ 0 := by simpa [Instr.wf, ← BitVec.toNat_inj] using hwf
    rw [decode16_lslsImm (bits_immRegs _ _ _ rfl (by decide) (by decide)) (by rwa [bits_immRegs_six _ _ _ rfl (by decide)]),
      lo3_regs_zero _ _ (by omega), lo3_regs_three _ _ (by omega), imm_immRegs _ _ _ rfl (by decide)]
  | lsrsImm rd rm v | asrsImm rd rm v | addsImm3 rd rm v | subsImm3 rd rm v | strImm rd rm v | ldrImm rd rm v | strbImm rd rm v
  | ldrbImm rd rm v | strhImm rd rm v | ldrhImm rd rm v =>
    cases h
    simp [decode16, decodeAS3, bits_immRegs, imm_immRegs, lo3_regs_zero, lo3_regs_three]
  | addsReg rd rn rm | subsReg rd rn rm | strReg rd rn rm | strhReg rd rn rm | strbReg rd rn rm | ldrsbReg rd rn rm | ldrReg rd rn rm
  | ldrhReg rd rn rm | ldrbReg rd rn rm | ldrshReg rd rn rm =>
    cases h
    simp [decode16, decodeAS3, decodeLSR, bits_regs3, lo3_regs_zero, lo3_regs_three, lo3_regs3_six]
  | ands rd rm | eors rd rm | lslsReg rd rm | lsrsReg rd rm | asrsReg rd rm | adcs rd rm | sbcs rd rm | rorsReg rd rm | tst rd rm
  | rsbs rd rm | cmpLo rd rm | cmn rd rm | orrs rd rm | muls rd rm | bics rd rm | mvns rd rm =>
    cases h
    simp [decode16, decodeDP, flag, bits_regs, lo3_regs_zero, lo3_regs_three]
  | sxth rd rm | sxtb rd rm | uxth rd rm | uxtb rd rm | rev rd rm | rev16 rd rm | revsh rd rm =>
    cases h
    simp [decode16, decodeMisc, decodeEXT, decodeREV, bits_regs, lo3_regs_zero, lo3_regs_three]
  | movsImm rd v | cmpImm rd v | addsImm8 rd v | subsImm8 rd v | ldrLit rd v | strSp rd v | ldrSp rd v | adr rd v | addRdSp rd v
  | stm rd v | ldm rd v =>
    cases h
    simp [decode16, bits_regImm8, lo3_regImm8, imm_immLow]
  | addSp v | subSp v | bkpt v | udf v | svc v | b v =>
    cases h
    simp [decode16, decodeMisc, decodeBC, flag, bits_immLow, imm_immLow]
  | push m v | pop m v =>
    cases h
    cases m <;> simp [decode16, decodeMisc, bits_immLow, imm_immLow]
  | addHi rd rm | cmpHi rd rm | movHi rd rm =>
    cases h
    simp [decode16, decodeHI, flag, bits_hi, regD_hi, reg4_hi]
  | bx rm | blxReg rm =>
    cases h
    simp [decode16, decodeHI, flag, bits_reg4, bits_reg4_zero, reg4_reg4]
  | cbz rn v | cbnz rn v =>
    cases h
    have hi : v.toNat / 32 = 0 ∨ v.toNat / 32 = 1 := by omega
    rw [decode16_misc (bits_cb_top _ _ rfl)]
    rcases hi with hi | hi <;> simp [decodeMisc, bits_cb_eight, lo3_cb, cbOffset_cb, hi]
  | setend e => cases e <;> cases h <;> rfl
  | cpsie a i f | cpsid a i f =>
    cases h
    cases a <;> cases i <;> cases f <;> rfl
  | nop | yield | wfe | wfi | sev => cases h; rfl
  | hint n =>
    cases h
    have hn : 5 ≤ n.toNat := by simpa [Instr.wf] using hwf
    have htop : ∀ {lo len}, 8 ≤ lo → lo + len ≤ 16 → bits (half (0xBF00 + n.toNat * 16)) lo len = 0xBF00 / 2 ^ lo % 2 ^ len :=
      bits_half_add rfl (by omega)
    have hlow : bits (half (0xBF00 + n.toNat * 16)) 0 4 = 0 := (bits_half (by decide)).trans (by omega)
    have hnum : imm 4 (half (0xBF00 + n.toNat * 16)) 4 = n := imm_half (by decide) (by omega)
    rw [decode16_misc (htop (by decide) (by decide)), decodeMisc_hints (htop (by decide) (by decide)),
      decodeBF_hint hlow (by rwa [← imm_toNat, hnum]), hnum]
  | it c m =>
    cases h
    have hm : m.toNat ≠ 0 := by simpa [Instr.wf, ← BitVec.toNat_inj] using hwf
    have hmask : imm 4 (half (0xBF00 + c.toNat * 16 + m.toNat)) 0 = m := imm_half (by decide) (by omega)
    rw [decode16_misc (bits_it _ _ rfl (by decide) (by decide)), decodeMisc_hints (bits_it _ _ rfl (by decide) (by decide)),
      decodeBF_it (by rwa [← imm_toNat, hmask]), hmask, imm_it _ _ rfl]
  | bCond c v =>
    cases h
    have hc : c.toNat < 14 := by simpa [Instr.wf] using hwf
    have hcond : imm 4 (half (0xD000 + c.toNat * 256 + v.toNat)) 8 = c := imm_half (by decide) (by omega)
    rw [decode16_branch ((bits_half (by decide)).trans (by omega)), decodeBC_bCond (by rwa [← imm_toNat, hcond]), hcond,
      imm_immLow _ (by omega) (by decide)]
  | bl offset | blxLabel offset => cases h

/-! ## A halfword is put together from its fields, by format (R82) -/

theorem half_eq {hw : Half} {n : Nat} (h : hw.toNat = n) : [half n] = [hw] := by
  rw [← h, half, BitVec.ofNat_toNat, BitVec.setWidth_eq]

theorem half_regs {hw : Half} {base : Nat} (h : hw.toNat / 64 * 64 = base) : [half (base + lo3 hw 3 * 8 + lo3 hw 0)] = [hw] :=
  half_eq (by simp only [lo3, bits]; omega)

theorem half_regs3 {hw : Half} {base : Nat} (h : hw.toNat / 512 * 512 = base) :
    [half (base + lo3 hw 6 * 64 + lo3 hw 3 * 8 + lo3 hw 0)] = [hw] :=
  half_eq (by simp only [lo3, bits]; omega)

theorem half_imm3Regs {hw : Half} {base : Nat} (h : hw.toNat / 512 * 512 = base) :
    [half (base + (imm 3 hw 6).toNat * 64 + lo3 hw 3 * 8 + lo3 hw 0)] = [hw] :=
  half_eq (by simp only [lo3, imm_toNat, bits]; omega)

theorem half_imm5Regs {hw : Half} {base : Nat} (h : hw.toNat / 2048 * 2048 = base) :
    [half (base + (imm 5 hw 6).toNat * 64 + lo3 hw 3 * 8 + lo3 hw 0)] = [hw] :=
  half_eq (by simp only [lo3, imm_toNat, bits]; omega)

theorem half_regImm8 {hw : Half} {base : Nat} (h : hw.toNat / 2048 * 2048 = base) :
    [half (base + lo3 hw 8 * 256 + (imm 8 hw 0).toNat)] = [hw] :=
  half_eq (by simp only [lo3, imm_toNat, bits]; omega)

theorem half_immLow {hw : Half} {k base : Nat} (h : hw.toNat / 2 ^ k * 2 ^ k = base) : [half (base + (imm k hw 0).toNat)] = [hw] :=
  half_eq (by
    rw [imm_toNat, bits, ← h, Nat.pow_zero, Nat.div_one]
    exact (Nat.div_add_mod' _ _).symm)

theorem half_hi {hw : Half} {base : Nat} (h : hw.toNat / 256 * 256 = base) : [half (base + reg4 hw * 8 + hiD (regD hw))] = [hw] :=
  half_eq (by simp only [reg4, regD, hiD, bits]; omega)

theorem half_reg4 {hw : Half} {base : Nat} (h : hw.toNat / 128 * 128 = base) (h0 : bits hw 0 3 = 0) :
    [half (base + reg4 hw * 8)] = [hw] :=
  half_eq (by simp only [reg4, bits] at h0 ⊢; omega)

theorem cbOffset_toNat (hw : Half) : (cbOffset hw).toNat = bits hw 9 1 * 32 + bits hw 3 5 := by
  rw [cbOffset, BitVec.toNat_ofNat]
  simp only [bits]
  omega

theorem half_cb {hw : Half} {base : Nat} (h : hw.toNat / 1024 * 1024 + 256 = base) (h8 : hw.toNat / 256 % 2 = 1) :
    [half (base + cbImm (cbOffset hw) + lo3 hw 0)] = [hw] :=
  half_eq (by
    simp only [cbImm, cbOffset_toNat, lo3, bits]
    omega)

theorem flag_toNat (hw : Half) (i : Nat) : (flag hw i).toNat = bits hw i 1 := by
  have h := bits_lt hw i 1
  unfold flag
  generalize bits hw i 1 = b at h
  interval_cases b <;> rfl

theorem flag_eq_true {hw : Half} {i : Nat} : flag hw i = true ↔ bits hw i 1 = 1 := beq_iff_eq

theorem flag_eq_false {hw : Half} {i : Nat} : flag hw i = false ↔ bits hw i 1 = 0 := by
  rw [← flag_toNat]
  cases flag hw i <;> simp

theorem half_flags {hw : Half} {base : Nat} (h : hw.toNat / 8 * 8 = base) :
    [half (base + (flag hw 2).toNat * 4 + (flag hw 1).toNat * 2 + (flag hw 0).toNat)] = [hw] :=
  half_eq (by simp only [flag_toNat, bits]; omega)

/-! ## Every halfword that is decoded is the encoding of what it is decoded to (R82, R96) -/

theorem encode_decodeAS3 {hw : Half} (h : hw.toNat / 2048 = 3) : encode (decodeAS3 hw) = [hw] := by
  have hop := bits_lt hw 9 2
  have htop : hw.toNat / 512 = 12 + bits hw 9 2 := by simp only [bits]; omega
  unfold decodeAS3
  generalize bits hw 9 2 = op at hop htop
  interval_cases op
  · exact half_regs3 (by omega)
  · exact half_regs3 (by omega)
  · exact half_imm3Regs (by omega)
  · exact half_imm3Regs (by omega)

theorem encode_decodeDP {hw : Half} (h : hw.toNat / 1024 = 16) : encode (decodeDP hw) = [hw] := by
  have hop := bits_lt hw 6 4
  have htop : hw.toNat / 64 = 256 + bits hw 6 4 := by simp only [bits]; omega
  unfold decodeDP
  generalize bits hw 6 4 = op at hop htop
  interval_cases op <;> exact half_regs (by omega)

theorem encode_decodeLSR {hw : Half} (h : hw.toNat / 4096 = 5) : encode (decodeLSR hw) = [hw] := by
  have hop := bits_lt hw 9 3
  have htop : hw.toNat / 512 = 40 + bits hw 9 3 := by simp only [bits]; omega
  unfold decodeLSR
  generalize bits hw 9 3 = op at hop htop
  interval_cases op <;> exact half_regs3 (by omega)

theorem encode_decodeEXT {hw : Half} (h : hw.toNat / 256 = 0xB2) : encode (decodeEXT hw) = [hw] := by
  have hop := bits_lt hw 6 2
  have htop : hw.toNat / 64 = 0x2C8 + bits hw 6 2 := by simp only [bits]; omega
  unfold decodeEXT
  generalize bits hw 6 2 = op at hop htop
  interval_cases op <;> exact half_regs (by omega)

/-- Every instruction that may be in the option has the halfword as its encoding. -/
def AllEncode (hw : Half) (o : Option Instr) : Prop := ∀ i ∈ o, encode i = [hw]

theorem allEncode_some {hw : Half} {i : Instr} (h : encode i = [hw]) : AllEncode hw (some i) := by
  rintro _ ⟨⟩
  exact h

theorem allEncode_none {hw : Half} : AllEncode hw none := nofun

theorem encode_decodeHI {hw : Half} (h : hw.toNat / 1024 = 17) : AllEncode hw (decodeHI hw) := by
  have hop := bits_lt hw 8 2
  have htop : hw.toNat / 256 = 68 + bits hw 8 2 := by simp only [bits]; omega
  unfold decodeHI
  generalize bits hw 8 2 = op at hop htop
  interval_cases op
  · exact allEncode_some (half_hi (by omega))
  · exact allEncode_some (half_hi (by omega))
  · exact allEncode_some (half_hi (by omega))
  · change AllEncode hw (if _ then _ else _)
    split
    · next h0 =>
      refine allEncode_some ?_
      cases h7 : flag hw 7 with
      | false => exact half_reg4 (by simp only [flag_eq_false, bits] at h7; omega) h0
      | true => exact half_reg4 (by simp only [flag_eq_true, bits] at h7; omega) h0
    · exact allEncode_none

theorem encode_decodeREV {hw : Half} (h : hw.toNat / 256 = 0xBA) : AllEncode hw (decodeREV hw) := by
  have hop := bits_lt hw 6 2
  have htop : hw.toNat / 64 = 0x2E8 + bits hw 6 2 := by simp only [bits]; omega
  unfold decodeREV
  generalize bits hw 6 2 = op at hop htop
  interval_cases op
  · exact allEncode_some (half_regs (by omega))
  · exact allEncode_some (half_regs (by omega))
  · exact allEncode_none
  · exact allEncode_some (half_regs (by omega))

theorem encode_decodeB6 {hw : Half} (h : hw.toNat / 256 = 0xB6) : AllEncode hw (decodeB6 hw) := by
  unfold decodeB6
  split
  case h_1 hop | h_2 hop =>
    split
    · next h0 => exact allEncode_some (half_eq (by simp only [bits] at hop h0; omega))
    · exact allEncode_none
  case h_3 hop | h_4 hop => exact allEncode_some (half_flags (by simp only [bits] at hop; omega))
  case h_5 => exact allEncode_none

theorem encode_decodeBF {hw : Half} (h : hw.toNat / 256 = 0xBF) : encode (decodeBF hw) = [hw] := by
  unfold decodeBF
  split
  · next h0 =>
    have hnum : hw.toNat = 0xBF00 + bits hw 4 4 * 16 := by simp only [bits] at h0 ⊢; omega
    split
    case h_6 => exact half_eq (by rwa [imm_toNat])
    case h_1 hop | h_2 hop | h_3 hop | h_4 hop | h_5 hop => exact half_eq (by omega)
  · exact half_eq (by simp only [imm_toNat, bits]; omega)

theorem encode_decodeMisc {hw : Half} (h : hw.toNat / 4096 = 11) : AllEncode hw (decodeMisc hw) := by
  have htop : hw.toNat / 256 = 0xB0 + bits hw 8 4 := by simp only [bits]; omega
  unfold decodeMisc
  split
  case h_1 hop =>
    cases h7 : flag hw 7 with
    | false => exact allEncode_some (half_immLow (by simp only [flag_eq_false, bits] at h7; omega))
    | true => exact allEncode_some (half_immLow (by simp only [flag_eq_true, bits] at h7; omega))
  case h_2 hop | h_4 hop | h_8 hop | h_10 hop => exact allEncode_some (half_cb (by omega) (by omega))
  case h_3 hop => exact allEncode_some (encode_decodeEXT (by omega))
  case h_7 hop => exact encode_decodeB6 (by omega)
  case h_9 hop => exact encode_decodeREV (by omega)
  case h_14 hop => exact allEncode_some (encode_decodeBF (by omega))
  case h_15 => exact allEncode_none
  case h_5 hop | h_11 hop => exact allEncode_some (half_immLow (by rw [Bool.toNat_false]; omega))
  case h_6 hop | h_12 hop => exact allEncode_some (half_immLow (by rw [Bool.toNat_true]; omega))
  case h_13 hop => exact allEncode_some (half_immLow (by omega))

theorem encode_decodeBC {hw : Half} (h : hw.toNat / 4096 = 13) : encode (decodeBC hw) = [hw] := by
  have htop : hw.toNat / 256 = 0xD0 + bits hw 8 4 := by simp only [bits]; omega
  unfold decodeBC
  split
  case h_1 hop | h_2 hop => exact half_immLow (by omega)
  case h_3 => exact half_eq (by simp only [imm_toNat, bits] at htop ⊢; omega)

theorem encode_decode16 (hw : Half) : AllEncode hw (decode16 hw) := by
  have htop : hw.toNat / 2048 = bits hw 11 5 := by simp only [bits]; omega
  unfold decode16
  split
  case h_1 hop =>
    split
    · next h6 => exact allEncode_some (half_regs (by simp only [bits] at h6; omega))
    · exact allEncode_some (half_imm5Regs (by omega))
  case h_4 hop => exact allEncode_some (encode_decodeAS3 (by omega))
  case h_9 hop =>
    cases h10 : flag hw 10 with
    | true => exact encode_decodeHI (by simp only [flag_eq_true, bits] at h10; omega)
    | false => exact allEncode_some (encode_decodeDP (by simp only [flag_eq_false, bits] at h10; omega))
  case h_11 hop | h_12 hop => exact allEncode_some (encode_decodeLSR (by omega))
  case h_23 hop | h_24 hop => exact encode_decodeMisc (by omega)
  case h_27 hop | h_28 hop => exact allEncode_some (encode_decodeBC (by omega))
  case h_29 hop => exact allEncode_some (half_immLow (by omega))
  case h_30 => exact allEncode_none
  case h_2 hop | h_3 hop | h_13 hop | h_14 hop | h_15 hop | h_16 hop | h_17 hop | h_18 hop =>
    exact allEncode_some (half_imm5Regs (by omega))
  case h_5 hop | h_6 hop | h_7 hop | h_8 hop | h_10 hop | h_19 hop | h_20 hop | h_21 hop | h_22 hop | h_25 hop | h_26 hop =>
    exact allEncode_some (half_regImm8 (by omega))

/-! ## The 32-bit rows: BL and BLX `<label>` (R90) -/

theorem flag_eq_getLsbD (hw : Half) (i : Nat) : flag hw i = hw.getLsbD i := by
  rw [flag, bits, BitVec.getLsbD, Nat.testBit_eq_decide_div_mod_eq]
  rfl

theorem bits_eq_extractLsb' (hw : Half) (lo len : Nat) (v : BitVec len) : bits hw lo len = v.toNat ↔ hw.extractLsb' lo len = v := by
  rw [← BitVec.toNat_inj, BitVec.extractLsb'_toNat, bits, Nat.shiftRight_eq_div_pow]

/-- The three highest bits of an offset make the number above the others. -/
theorem topBits_eq {n k : Nat} (o : BitVec n) (hn : n = k + 3) :
    o.toNat / 2 ^ k = (o.getLsbD (k + 2)).toNat * 4 + (o.getLsbD (k + 1)).toNat * 2 + (o.getLsbD k).toNat := by
  have hlt : o.toNat / 2 ^ k < 8 := Nat.div_lt_of_lt_mul (by rw [show 2 ^ k * 8 = 2 ^ n by rw [hn, Nat.pow_add]]; exact o.isLt)
  have hbit (j : Nat) : o.getLsbD (j + k) = (o.toNat / 2 ^ k).testBit j := (Nat.testBit_div_two_pow o.toNat j).symm
  have h0 := hbit 0
  rw [Nat.zero_add] at h0
  rw [Nat.add_comm k 2, Nat.add_comm k 1, hbit 2, hbit 1, h0]
  generalize o.toNat / 2 ^ k = q at hlt
  interval_cases q <;> rfl

/-- Three bits are determined by the number they make. -/
theorem threeBits_inj : ∀ {a b c a' b' c' : Bool},
    a.toNat * 4 + b.toNat * 2 + c.toNat = a'.toNat * 4 + b'.toNat * 2 + c'.toNat → a = a' ∧ b = b' ∧ c = c' := by decide

theorem signBits_eq (hw1 hw2 : Half) : signBits hw1 hw2 =
    (flag hw1 10).toNat * 4 + (!(flag hw2 13 ^^ flag hw1 10)).toNat * 2 + (!(flag hw2 11 ^^ flag hw1 10)).toNat := rfl

theorem signBits_lt (hw1 hw2 : Half) : signBits hw1 hw2 < 8 := by
  have := Bool.toNat_le (flag hw1 10)
  have := Bool.toNat_le (!(flag hw2 13 ^^ flag hw1 10))
  have := Bool.toNat_le (!(flag hw2 11 ^^ flag hw1 10))
  rw [signBits_eq]
  omega

theorem blOffset_toNat (hw1 hw2 : Half) :
    (blOffset hw1 hw2).toNat = signBits hw1 hw2 * 2 ^ 21 + bits hw1 0 10 * 2 ^ 11 + bits hw2 0 11 := by
  have := signBits_lt hw1 hw2
  have := bits_lt hw1 0 10
  have := bits_lt hw2 0 11
  rw [blOffset, BitVec.toNat_ofNat]
  omega

theorem blxOffset_toNat (hw1 hw2 : Half) :
    (blxOffset hw1 hw2).toNat = signBits hw1 hw2 * 2 ^ 20 + bits hw1 0 10 * 2 ^ 10 + bits hw2 1 10 := by
  have := signBits_lt hw1 hw2
  have := bits_lt hw1 0 10
  have := bits_lt hw2 1 10
  rw [blxOffset, BitVec.toNat_ofNat]
  omega

/-- R90: `S`, `I1` and `I2` of the offset that BL has. -/
theorem blOffset_getLsbD (hw1 hw2 : Half) : (blOffset hw1 hw2).getLsbD 23 = flag hw1 10 ∧
    (blOffset hw1 hw2).getLsbD 22 = (!(flag hw2 13 ^^ flag hw1 10)) ∧
    (blOffset hw1 hw2).getLsbD 21 = (!(flag hw2 11 ^^ flag hw1 10)) := by
  refine threeBits_inj ?_
  rw [← signBits_eq]
  refine (topBits_eq (k := 21) (blOffset hw1 hw2) rfl).symm.trans ?_
  have := bits_lt hw1 0 10
  have := bits_lt hw2 0 11
  rw [blOffset_toNat]
  omega

theorem blxOffset_getLsbD (hw1 hw2 : Half) : (blxOffset hw1 hw2).getLsbD 22 = flag hw1 10 ∧
    (blxOffset hw1 hw2).getLsbD 21 = (!(flag hw2 13 ^^ flag hw1 10)) ∧
    (blxOffset hw1 hw2).getLsbD 20 = (!(flag hw2 11 ^^ flag hw1 10)) := by
  refine threeBits_inj ?_
  rw [← signBits_eq]
  refine (topBits_eq (k := 20) (blxOffset hw1 hw2) rfl).symm.trans ?_
  have := bits_lt hw1 0 10
  have := bits_lt hw2 1 10
  rw [blxOffset_toNat]
  omega

/-- `J = NOT I EOR S` undoes `I = NOT (J EOR S)`. -/
theorem jBit_flag (s j : Bool) (pos : Nat) : jBit s (!(j ^^ s)) pos = j.toNat * 2 ^ pos := by
  cases s <;> cases j <;> rfl

theorem half_blHead {hw1 : Half} (h : bits hw1 11 5 = 30) : [half (0xF000 + (flag hw1 10).toNat * 1024 + bits hw1 0 10)] = [hw1] :=
  half_eq (by simp only [flag_toNat, bits] at h ⊢; omega)

/-- Bit 12 of the second halfword tells BL from BLX `<label>`. -/
theorem half_blTail {hw2 : Half} {link : Bool} {base : Nat} (hpair : bits hw2 14 2 = 3) (hlink : flag hw2 12 = link)
    (hb : base = 0xC000 + link.toNat * 4096) :
    [half (base + (flag hw2 13).toNat * 2 ^ 13 + (flag hw2 11).toNat * 2 ^ 11 + bits hw2 0 11)] = [hw2] := by
  rw [← hlink] at hb
  exact half_eq (by simp only [flag_toNat, bits] at hpair hb ⊢; omega)

theorem encode_blOffset {hw1 hw2 : Half} (h1 : bits hw1 11 5 = 30) (h2 : bits hw2 14 2 = 3) (h12 : flag hw2 12 = true) :
    encode (.bl (blOffset hw1 hw2)) = [hw1, hw2] := by
  obtain ⟨hs, hi1, hi2⟩ := blOffset_getLsbD hw1 hw2
  have hx : (blOffset hw1 hw2).toNat / 2 ^ 11 % 1024 = bits hw1 0 10 := by
    have := bits_lt hw1 0 10
    have := bits_lt hw2 0 11
    rw [blOffset_toNat]
    omega
  have hy : (blOffset hw1 hw2).toNat % 2 ^ 11 = bits hw2 0 11 := by
    have := bits_lt hw2 0 11
    rw [blOffset_toNat]
    omega
  rw [encode, hs, hi1, hi2, hx, hy, jBit_flag, jBit_flag]
  exact congrArg₂ (· ++ ·) (half_blHead h1) (half_blTail h2 h12 rfl)

theorem encode_blxOffset {hw1 hw2 : Half} (h1 : bits hw1 11 5 = 30) (h2 : bits hw2 14 2 = 3) (h12 : flag hw2 12 = false)
    (h0 : flag hw2 0 = false) : encode (.blxLabel (blxOffset hw1 hw2)) = [hw1, hw2] := by
  obtain ⟨hs, hi1, hi2⟩ := blxOffset_getLsbD hw1 hw2
  have hl0 : bits hw2 0 1 = 0 := flag_eq_false.1 h0
  have hx : (blxOffset hw1 hw2).toNat / 2 ^ 10 % 1024 = bits hw1 0 10 := by
    have := bits_lt hw1 0 10
    have := bits_lt hw2 1 10
    rw [blxOffset_toNat]
    omega
  have hy : (blxOffset hw1 hw2).toNat % 2 ^ 10 * 2 = bits hw2 0 11 := by
    rw [blxOffset_toNat]
    simp only [bits] at hl0 ⊢
    omega
  rw [encode, hs, hi1, hi2, hx, hy, jBit_flag, jBit_flag]
  exact congrArg₂ (· ++ ·) (half_blHead h1) (half_blTail h2 h12 rfl)

/-! ### The fields of an encoded BL or BLX `<label>` -/

theorem flag_half {n i : Nat} {b : Bool} (hi : i + 1 ≤ 16) (h : n / 2 ^ i % 2 = b.toNat) : flag (half n) i = b := by
  rw [flag, bits_half hi, Nat.pow_one, h]
  cases b <;> rfl

theorem blHead_fields {s : Bool} {x : Nat} {hw : Half} (h : half (0xF000 + s.toNat * 1024 + x) = hw) (hx : x < 1024) :
    bits hw 11 5 = 30 ∧ flag hw 10 = s ∧ bits hw 0 10 = x := by
  have := Bool.toNat_le s
  subst h
  exact ⟨(bits_half (by decide)).trans (by omega), flag_half (by decide) (by omega), (bits_half (by decide)).trans (by omega)⟩

/-- `link` tells BL from BLX `<label>`. -/
theorem blTail_fields {s i1 i2 : Bool} {base y : Nat} {hw : Half} (h : half (base + jBit s i1 13 + jBit s i2 11 + y) = hw)
    (link : Bool) (hb : base = 0xC000 + link.toNat * 4096) (hy : y < 2048) :
    bits hw 14 2 = 3 ∧ flag hw 13 = (!i1 ^^ s) ∧ flag hw 12 = link ∧ flag hw 11 = (!i2 ^^ s) ∧ bits hw 0 11 = y := by
  have := Bool.toNat_le link
  have := Bool.toNat_le (!i1 ^^ s)
  have := Bool.toNat_le (!i2 ^^ s)
  subst h
  rw [jBit, jBit]
  exact ⟨(bits_half (by decide)).trans (by omega), flag_half (by decide) (by omega), flag_half (by decide) (by omega),
    flag_half (by decide) (by omega), (bits_half (by decide)).trans (by omega)⟩

/-- The sign bits that were encoded are decoded again. -/
theorem signBits_of_flags {hw1 hw2 : Half} {s i1 i2 : Bool} (hs : flag hw1 10 = s) (h1 : flag hw2 13 = (!i1 ^^ s))
    (h2 : flag hw2 11 = (!i2 ^^ s)) : signBits hw1 hw2 = s.toNat * 4 + i1.toNat * 2 + i2.toNat := by
  rw [signBits_eq, hs, h1, h2]
  cases s <;> cases i1 <;> cases i2 <;> rfl

theorem encode_bl_fields {offset : BitVec 24} {hw1 hw2 : Half} (h : encode (.bl offset) = [hw1, hw2]) :
    bits hw1 11 5 = 30 ∧ bits hw2 14 2 = 3 ∧ flag hw2 12 = true ∧ blOffset hw1 hw2 = offset := by
  obtain ⟨h1, htail⟩ := List.cons.inj h
  obtain ⟨h2, -⟩ := List.cons.inj htail
  obtain ⟨hwide, hs, hx⟩ := blHead_fields h1 (Nat.mod_lt _ (by decide))
  obtain ⟨hpair, hj1, hlink, hj2, hy⟩ := blTail_fields h2 true rfl (Nat.mod_lt _ (by decide))
  refine ⟨hwide, hpair, hlink, BitVec.eq_of_toNat_eq ?_⟩
  have htop : offset.toNat / 2 ^ 21 =
      (offset.getLsbD 23).toNat * 4 + (offset.getLsbD 22).toNat * 2 + (offset.getLsbD 21).toNat := topBits_eq offset rfl
  rw [blOffset_toNat, signBits_of_flags hs hj1 hj2, hx, hy]
  omega

theorem encode_blx_fields {offset : BitVec 23} {hw1 hw2 : Half} (h : encode (.blxLabel offset) = [hw1, hw2]) :
    bits hw1 11 5 = 30 ∧ bits hw2 14 2 = 3 ∧ flag hw2 12 = false ∧ flag hw2 0 = false ∧ blxOffset hw1 hw2 = offset := by
  obtain ⟨h1, htail⟩ := List.cons.inj h
  obtain ⟨h2, -⟩ := List.cons.inj htail
  obtain ⟨hwide, hs, hx⟩ := blHead_fields h1 (Nat.mod_lt _ (by decide))
  obtain ⟨hpair, hj1, hlink, hj2, hy⟩ := blTail_fields h2 false rfl (by omega)
  have hlow : bits hw2 0 1 = 0 ∧ bits hw2 1 10 = offset.toNat % 2 ^ 10 := by
    simp only [bits] at hy ⊢
    omega
  refine ⟨hwide, hpair, hlink, flag_eq_false.2 hlow.1, BitVec.eq_of_toNat_eq ?_⟩
  have htop : offset.toNat / 2 ^ 20 =
      (offset.getLsbD 22).toNat * 4 + (offset.getLsbD 21).toNat * 2 + (offset.getLsbD 20).toNat := topBits_eq offset rfl
  rw [blxOffset_toNat, signBits_of_flags hs hj1 hj2, hx, hlow.2]
  omega

/-! ### Decoding by the bits of the pair -/

theorem isWide_eq_true {hw : Half} : isWide hw = true ↔ 29 ≤ bits hw 11 5 := by simp [isWide]

theorem decode_of_wide {arch : Arch} {hw1 hw2 : Half} (h : isWide hw1 = true) : decode arch hw1 hw2 = decodeWide arch hw1 hw2 :=
  if_pos h

theorem decode_of_narrow {arch : Arch} {hw1 hw2 : Half} (h : isWide hw1 = false) : decode arch hw1 hw2 = decodeNarrow arch hw1 :=
  if_neg (by simp [h])

theorem decodeWide_of_not_pair {arch : Arch} {hw1 hw2 : Half} (h : ¬(bits hw1 11 5 = 30 ∧ bits hw2 14 2 = 3)) :
    decodeWide arch hw1 hw2 = notBl arch hw1 hw2 := if_neg (by simpa using h)

theorem decodeWide_bl {arch : Arch} {hw1 hw2 : Half} (h1 : bits hw1 11 5 = 30) (h2 : bits hw2 14 2 = 3) (h12 : flag hw2 12 = true) :
    decodeWide arch hw1 hw2 =
      if Instr.availableAt arch (.bl (blOffset hw1 hw2)) then .instr (.bl (blOffset hw1 hw2)) else .unpairedHalf := by
  simp [decodeWide, h1, h2, h12]

theorem decodeWide_blx {arch : Arch} {hw1 hw2 : Half} (h1 : bits hw1 11 5 = 30) (h2 : bits hw2 14 2 = 3) (h12 : flag hw2 12 = false) :
    decodeWide arch hw1 hw2 =
      if !arch.has5T then .unpairedHalf
      else if flag hw2 0 then .undefinedPair hw1 hw2
      else if Instr.availableAt arch (.blxLabel (blxOffset hw1 hw2)) then .instr (.blxLabel (blxOffset hw1 hw2))
      else .unpairedHalf := by
  simp [decodeWide, h1, h2, h12]

theorem decode16_of_wide {hw : Half} (h : isWide hw = true) : decode16 hw = none := by
  rw [isWide_eq_true] at h
  unfold decode16
  split
  case h_30 => rfl
  all_goals omega

theorem isWide_of_decode16 {hw : Half} {i : Instr} (h : decode16 hw = some i) : isWide hw = false := by
  cases hwide : isWide hw with
  | false => rfl
  | true => simp [decode16_of_wide hwide] at h

theorem decode_of_decode16 {arch : Arch} {hw hw2 : Half} {i : Instr} (h : decode16 hw = some i) :
    decode arch hw hw2 = if i.availableAt arch then .instr i else .undefined hw := by
  rw [decode_of_narrow (isWide_of_decode16 h), decodeNarrow, h]

/-! ## The versions of the rows (R97, R90) -/

theorem encode_of_len {i : Instr} (h : i.len = 2) : ∃ hw, encode i = [hw] := by
  cases i with
  | setend e => cases e <;> exact ⟨_, rfl⟩
  | bl | blxLabel => cases h
  | _ => exact ⟨_, rfl⟩

theorem availableAt_of_len {i : Instr} (h : i.len = 2) (arch : Arch) : i.availableAt arch = decide (i.since.rank ≤ arch.rank) := by
  cases i with
  | bl | blxLabel => cases h
  | _ => exact Bool.and_true _

theorem availableAt_bl (arch : Arch) (offset : BitVec 24) :
    Instr.availableAt arch (.bl offset) = (arch.hasT2 || nearBl offset) := by
  have hrank : (Instr.bl offset).since.rank ≤ arch.rank := Nat.zero_le _
  rw [Instr.availableAt, decide_eq_true hrank, Bool.true_and]

theorem availableAt_blx (arch : Arch) (offset : BitVec 23) :
    Instr.availableAt arch (.blxLabel offset) = (arch.has5T && (arch.hasT2 || nearBlx offset)) := rfl

theorem availableAt_v7 (i : Instr) : i.availableAt .v7 = true := by
  have hrank (a : Arch) : a.rank ≤ Arch.v7.rank := by cases a <;> decide
  cases i with
  | bl | blxLabel => rfl
  | _ => exact (availableAt_of_len rfl .v7).trans (decide_eq_true (hrank _))

/-- Near is J1 = J2 = 1 (R90). -/
theorem nearBl_blOffset (hw1 hw2 : Half) : nearBl (blOffset hw1 hw2) = (flag hw2 13 && flag hw2 11) := by
  obtain ⟨hs, hi1, hi2⟩ := blOffset_getLsbD hw1 hw2
  rw [nearBl, hs, hi1, hi2]
  cases flag hw1 10 <;> cases flag hw2 13 <;> cases flag hw2 11 <;> rfl

theorem nearBlx_blxOffset (hw1 hw2 : Half) : nearBlx (blxOffset hw1 hw2) = (flag hw2 13 && flag hw2 11) := by
  obtain ⟨hs, hi1, hi2⟩ := blxOffset_getLsbD hw1 hw2
  rw [nearBlx, hs, hi1, hi2]
  cases flag hw1 10 <;> cases flag hw2 13 <;> cases flag hw2 11 <;> rfl

/-- Settles O6: a 16-bit row by what its encoding decodes to, BL and BLX `<label>` by the bits J1 and J2 of their encoding. -/
theorem rowsExistFromTheirVersion : Obligations.RowsExistFromTheirVersion := by
  refine ⟨fun arch i hw hw2 hwf h => decode_of_decode16 (decode16_encode hwf h), ?_, ?_, ?_, ?_, ?_, ?_⟩
  · intro arch i h
    cases i with
    | blxReg | bkpt => rw [availableAt_of_len rfl]; rfl
    | _ => exact h.elim
  · intro arch i h
    cases i with
    | sxth | sxtb | uxth | uxtb | rev | rev16 | revsh | cpsie | cpsid | setend => rw [availableAt_of_len rfl]; rfl
    | _ => exact h.elim
  · intro arch i h
    cases i with
    | it | cbz | cbnz | nop | sev | wfe | wfi | yield | hint => rw [availableAt_of_len rfl]; rfl
    | _ => exact h.elim
  · intro arch i h
    cases i with
    | blxReg | bkpt | sxth | sxtb | uxth | uxtb | rev | rev16 | revsh | cpsie | cpsid | setend | it | cbz | cbnz | nop | sev | wfe
    | wfi | yield | hint | bl | blxLabel => exact h.elim
    | _ => rw [availableAt_of_len rfl]; exact decide_eq_true (Nat.zero_le _)
  · intro arch offset hw1 hw2 h
    obtain ⟨-, -, -, rfl⟩ := encode_bl_fields h
    simp [availableAt_bl, nearBl_blOffset, flag_eq_getLsbD]
  · intro arch offset hw1 hw2 h
    obtain ⟨-, -, -, -, rfl⟩ := encode_blx_fields h
    simp [availableAt_blx, nearBlx_blxOffset, flag_eq_getLsbD]

/-! ## Decoding and encoding are inverse -/

theorem isWide_of_bl {hw : Half} (h : bits hw 11 5 = 30) : isWide hw = true := isWide_eq_true.2 (by omega)

theorem decode_encode_bl {arch : Arch} {offset : BitVec 24} {hw1 hw2 : Half} (h : encode (.bl offset) = [hw1, hw2])
    (havail : Instr.availableAt arch (.bl offset) = true) : decode arch hw1 hw2 = .instr (.bl offset) := by
  obtain ⟨h1, h2, h12, hoffset⟩ := encode_bl_fields h
  rw [decode_of_wide (isWide_of_bl h1), decodeWide_bl h1 h2 h12, hoffset, if_pos havail]

theorem decode_encode_blx {arch : Arch} {offset : BitVec 23} {hw1 hw2 : Half} (h : encode (.blxLabel offset) = [hw1, hw2])
    (havail : Instr.availableAt arch (.blxLabel offset) = true) : decode arch hw1 hw2 = .instr (.blxLabel offset) := by
  obtain ⟨h1, h2, h12, h0, hoffset⟩ := encode_blx_fields h
  have h5T : arch.has5T = true := by
    rw [availableAt_blx, Bool.and_eq_true] at havail
    exact havail.1
  rw [decode_of_wide (isWide_of_bl h1), decodeWide_blx h1 h2 h12, hoffset, if_pos havail, h5T, h0]
  rfl

theorem decodeWords_narrow {arch : Arch} {i : Instr} (hlen : i.len = 2) (hwf : i.wf = true) (havail : i.availableAt arch = true) :
    decodeWords arch (encode i) = some (.instr i) := by
  obtain ⟨hw, h⟩ := encode_of_len hlen
  have hdecode := decode16_encode hwf h
  rw [h, decodeWords, isWide_of_decode16 hdecode, decode_of_decode16 hdecode, if_pos havail]
  rfl

/-- Settles O1: a 16-bit instruction by the fields of its format, BL and BLX `<label>` by those of the pair. -/
theorem decodeEncodeRoundTrip : Obligations.DecodeEncodeRoundTrip := by
  intro arch i hwf havail
  cases i with
  | bl offset => exact congrArg some (decode_encode_bl rfl havail)
  | blxLabel offset => exact congrArg some (decode_encode_blx rfl havail)
  | _ => exact decodeWords_narrow rfl hwf havail

/-- What the decoder reads from a pair, and from which. -/
theorem decodeWide_instr {arch : Arch} {hw1 hw2 : Half} {i : Instr} (h : decodeWide arch hw1 hw2 = .instr i) :
    bits hw1 11 5 = 30 ∧ bits hw2 14 2 = 3 ∧
      (flag hw2 12 = true ∧ i = .bl (blOffset hw1 hw2) ∨
        flag hw2 12 = false ∧ flag hw2 0 = false ∧ i = .blxLabel (blxOffset hw1 hw2)) := by
  by_cases hpair : bits hw1 11 5 = 30 ∧ bits hw2 14 2 = 3
  · obtain ⟨h1, h2⟩ := hpair
    refine ⟨h1, h2, ?_⟩
    cases h12 : flag hw2 12 with
    | true =>
      rw [decodeWide_bl h1 h2 h12] at h
      split_ifs at h
      cases h
      exact .inl ⟨rfl, rfl⟩
    | false =>
      rw [decodeWide_blx h1 h2 h12] at h
      split_ifs at h with h5T h0
      cases h
      exact .inr ⟨rfl, by simpa using h0, rfl⟩
  · rw [decodeWide_of_not_pair hpair, notBl] at h
    split_ifs at h

theorem decodeNarrow_instr {arch : Arch} {hw : Half} {i : Instr} (h : decodeNarrow arch hw = .instr i) : decode16 hw = some i := by
  unfold decodeNarrow at h
  split at h
  · next hj =>
    split_ifs at h
    cases h
    exact hj
  · split_ifs at h

/-- Settles O2: along the decode tree each halfword is the encoding of the instruction it is decoded to. -/
theorem encodeInvertsDecode : Obligations.EncodeInvertsDecode := by
  intro arch hw1 hw2 i h
  obtain ⟨hwf, havail⟩ := decode_instr h
  refine ⟨hwf, havail, ?_⟩
  cases hwide : isWide hw1 with
  | true =>
    rw [decode_of_wide hwide] at h
    obtain ⟨h1, h2, ⟨h12, rfl⟩ | ⟨h12, h0, rfl⟩⟩ := decodeWide_instr h
    · exact encode_blOffset h1 h2 h12
    · exact encode_blxOffset h1 h2 h12 h0
  | false =>
    rw [decode_of_narrow hwide] at h
    exact encode_decode16 hw1 i (decodeNarrow_instr h)

/-! ## The 32-bit space (R81, R99) -/

/-- Settles O3: the numbers 29 to 31 of bits 15:11, and what the decoder reads from a pair. -/
theorem wideFirstHalves : Obligations.WideFirstHalves := by
  refine ⟨fun hw => ?_, fun arch hw1 hw2 i hwide h => ?_, fun arch hw1 hw2 hw2' hwide => ?_⟩
  · have hlt := bits_lt hw 11 5
    simp only [isWide_eq_true, ← bits_eq_extractLsb', BitVec.toNat_ofNat]
    omega
  · rw [decode_of_wide hwide] at h
    obtain ⟨h1, h2, hrow⟩ := decodeWide_instr h
    refine ⟨(bits_eq_extractLsb' ..).1 h1, (bits_eq_extractLsb' ..).1 h2, ?_⟩
    rw [← flag_eq_getLsbD]
    exact hrow.imp (fun ⟨h12, hi⟩ => ⟨h12, _, hi⟩) fun ⟨h12, _, hi⟩ => ⟨h12, _, hi⟩
  · rw [decode_of_narrow hwide, decode_of_narrow hwide]

/-- Settles O7: the branches of the decoder on a pair, J1 and J2 telling where a BL or BLX `<label>` is not of the version. -/
theorem wideSpaceRefused : Obligations.WideSpaceRefused := by
  intro arch hw1 hw2 s hwide
  simp only [decode_of_wide hwide, ← flag_eq_getLsbD]
  have hpair : hw1.extractLsb' 11 5 = 0b11110#5 ∧ hw2.extractLsb' 14 2 = 0b11#2 ↔ bits hw1 11 5 = 30 ∧ bits hw2 14 2 = 3 :=
    and_congr (bits_eq_extractLsb' ..).symm (bits_eq_extractLsb' ..).symm
  rw [hpair]
  have hfar (h : ¬(flag hw2 13 = true ∧ flag hw2 11 = true)) : (flag hw2 13 && flag hw2 11) = false := by simpa using h
  refine ⟨fun h => ?_, fun ⟨h1, h2⟩ h12 hT2 far => ?_, fun ⟨h1, h2⟩ h12 h5T => ?_, fun ⟨h1, h2⟩ h12 h5T h0 => ?_,
    fun ⟨h1, h2⟩ h12 h5T h0 hT2 far => ?_⟩
  · rw [decodeWide_of_not_pair h, notBl]
    split <;> rfl
  · rw [decodeWide_bl h1 h2 h12, availableAt_bl, nearBl_blOffset, hT2, hfar far]
    rfl
  · rw [decodeWide_blx h1 h2 h12, h5T]
    rfl
  · rw [decodeWide_blx h1 h2 h12, h5T, h0]
    rfl
  · rw [decodeWide_blx h1 h2 h12, availableAt_blx, nearBlx_blxOffset, h5T, h0, hT2, hfar far]
    rfl

/-! ## The halfwords that match no row (R98) -/

theorem decodeHI_eq_none {hw : Half} : decodeHI hw = none ↔ bits hw 8 2 = 3 ∧ bits hw 0 3 ≠ 0 := by
  have hop := bits_lt hw 8 2
  unfold decodeHI
  generalize bits hw 8 2 = op at hop
  interval_cases op <;> simp

theorem decodeREV_eq_none {hw : Half} : decodeREV hw = none ↔ bits hw 6 2 = 2 := by
  have hop := bits_lt hw 6 2
  unfold decodeREV
  generalize bits hw 6 2 = op at hop
  interval_cases op <;> simp

theorem decodeB6_eq_none {hw : Half} : decodeB6 hw = none ↔
    bits hw 3 5 < 10 ∨ (bits hw 3 5 = 10 ∨ bits hw 3 5 = 11) ∧ bits hw 0 3 ≠ 0 ∨ bits hw 3 5 = 13 ∨ 15 ≤ bits hw 3 5 := by
  have hop := bits_lt hw 3 5
  unfold decodeB6
  generalize bits hw 3 5 = op at hop
  interval_cases op <;> simp

theorem decodeMisc_eq_none {hw : Half} : decodeMisc hw = none ↔
    bits hw 8 4 = 7 ∨ bits hw 8 4 = 8 ∨ bits hw 8 4 = 6 ∧ decodeB6 hw = none ∨ bits hw 8 4 = 10 ∧ decodeREV hw = none := by
  have hop := bits_lt hw 8 4
  unfold decodeMisc
  generalize bits hw 8 4 = op at hop
  interval_cases op <;> simp

theorem decode16_eq_none {hw : Half} : decode16 hw = none ↔
    29 ≤ bits hw 11 5 ∨ bits hw 11 5 = 8 ∧ flag hw 10 = true ∧ decodeHI hw = none ∨
      (bits hw 11 5 = 22 ∨ bits hw 11 5 = 23) ∧ decodeMisc hw = none := by
  have hop := bits_lt hw 11 5
  unfold decode16
  generalize bits hw 11 5 = op at hop
  cases flag hw 10 <;> interval_cases op <;> simp

/-- The halfwords of R98 outside the BX group. -/
def Unallocated (n : Nat) : Prop :=
  (0xB600 ≤ n ∧ n ≤ 0xB64F) ∨ (0xB651 ≤ n ∧ n ≤ 0xB657) ∨ (0xB659 ≤ n ∧ n ≤ 0xB65F) ∨ (0xB668 ≤ n ∧ n ≤ 0xB66F) ∨
    (0xB678 ≤ n ∧ n ≤ 0xB8FF) ∨ (0xBA80 ≤ n ∧ n ≤ 0xBABF)

/-- The BX group of R98: BX and BLX Rm with nonzero should-be-zero bits. -/
def BxBits (n : Nat) : Prop := 0x4700 ≤ n ∧ n ≤ 0x47FF ∧ n % 8 ≠ 0

theorem decodeMisc_eq_none_iff_range {hw : Half} (h : hw.toNat / 4096 = 11) : decodeMisc hw = none ↔ Unallocated hw.toNat := by
  rw [decodeMisc_eq_none, decodeB6_eq_none, decodeREV_eq_none]
  simp only [bits, Unallocated]
  omega

theorem decodeHI_eq_none_iff_range {hw : Half} (h : hw.toNat / 1024 = 17) : decodeHI hw = none ↔ BxBits hw.toNat := by
  rw [decodeHI_eq_none]
  simp only [bits, BxBits]
  omega

theorem isWide_eq_false {hw : Half} : isWide hw = false ↔ hw.toNat < 0xE800 := by
  rw [← Bool.not_eq_true, isWide_eq_true]
  simp only [bits]
  omega

/-- R98: the 16-bit halfwords that match no row. -/
theorem decode16_eq_none_iff_range {hw : Half} (h : isWide hw = false) :
    decode16 hw = none ↔ Unallocated hw.toNat ∨ BxBits hw.toNat := by
  have hwide : hw.toNat < 0xE800 := isWide_eq_false.1 h
  have hbx : hw.toNat / 1024 = 17 ↔ bits hw 11 5 = 8 ∧ flag hw 10 = true := by
    simp only [flag_eq_true, bits]
    omega
  have hmisc : hw.toNat / 4096 = 11 ↔ bits hw 11 5 = 22 ∨ bits hw 11 5 = 23 := by
    simp only [bits]
    omega
  have hnarrow : ¬29 ≤ bits hw 11 5 := by
    simp only [bits]
    omega
  rw [decode16_eq_none, ← and_assoc, ← hbx, ← hmisc, or_iff_right hnarrow, or_comm]
  refine or_congr ⟨fun ⟨h11, hnone⟩ => (decodeMisc_eq_none_iff_range h11).1 hnone, fun hu => ?_⟩
    ⟨fun ⟨h17, hnone⟩ => (decodeHI_eq_none_iff_range h17).1 hnone, fun hb => ?_⟩
  · have h11 : hw.toNat / 4096 = 11 := by
      simp only [Unallocated] at hu
      omega
    exact ⟨h11, (decodeMisc_eq_none_iff_range h11).2 hu⟩
  · have h17 : hw.toNat / 1024 = 17 := by
      simp only [BxBits] at hb
      omega
    exact ⟨h17, (decodeHI_eq_none_iff_range h17).2 hb⟩

theorem decode_of_unallocated {hw : Half} (h : Unallocated hw.toNat) (hw2 : Half) : decode .v7 hw hw2 = .undefined hw := by
  have hrange : 0xB600 ≤ hw.toNat ∧ hw.toNat ≤ 0xBABF := by
    simp only [Unallocated] at h
    omega
  have hnarrow : isWide hw = false := isWide_eq_false.2 (by omega)
  have hgroup : bits hw 8 8 ≠ 0x47 := by
    simp only [bits]
    omega
  rw [decode_of_narrow hnarrow, decodeNarrow, (decode16_eq_none_iff_range hnarrow).2 (.inl h)]
  simp [hgroup]

theorem decode_of_bxBits {hw : Half} (h : BxBits hw.toNat) (hw2 : Half) : decode .v7 hw hw2 = .bxShouldBeZero := by
  have ⟨hlow, hhigh, _⟩ := h
  have hnarrow : isWide hw = false := isWide_eq_false.2 (by omega)
  have hgroup : bits hw 8 8 = 0x47 := by
    simp only [bits]
    omega
  rw [decode_of_narrow hnarrow, decodeNarrow, (decode16_eq_none_iff_range hnarrow).2 (.inr h)]
  simp [hgroup, Arch.has5T, Arch.rank]

/-- On V7 a 16-bit halfword is decoded exactly where it matches a row. -/
theorem decode_v7_ne_instr {hw hw2 : Half} (h : isWide hw = false) : (∀ i, decode .v7 hw hw2 ≠ .instr i) ↔ decode16 hw = none := by
  cases hrow : decode16 hw with
  | some i => simp [decode_of_decode16 hrow, availableAt_v7]
  | none =>
    refine iff_of_true (fun i hi => ?_) rfl
    rw [decode_of_narrow h] at hi
    simp [decodeNarrow_instr hi] at hrow

/-- Settles O5: where each node of the decode tree gives no row, as ranges of halfwords. -/
theorem unallocatedHalfwords : Obligations.UnallocatedHalfwords := by
  intro hw hw2
  refine ⟨fun h => (decode_v7_ne_instr h).trans (decode16_eq_none_iff_range h), fun s h => ?_, fun s h => ?_⟩
  · rw [decode_of_unallocated h]
    rfl
  · rw [decode_of_bxBits h]
    rfl

/-! ## Words and lists written out -/

/-- Settles O4: each word is run through the decoder. -/
theorem sampleWordsDecode : Obligations.SampleWordsDecode := by
  unfold Obligations.SampleWordsDecode
  decide

/-- Settles O42: a list is a part of the registers in increasing number. -/
theorem registerLists : Obligations.RegisterLists := fun _ =>
  ⟨(List.pairwise_lt_finRange 8).filter _, fun _ => mem_listed, rfl⟩

end Sys2Proof.Machine
end

section
/-! Proofs of the statements of 40_move.md: the logical instructions and moves, MOV and ADD of any registers, and the operands an
instruction must not have. -/

namespace Sys2Proof.Machine

/-! ## Decode-time checks that raise (R254, U2 to U27) -/

/-- A decode-time check that fails is the outcome, whatever the condition of an IT block. -/
theorem Conditional.of_check {len : Nat} {r : Unpredictable} {s : State} {o : Result} (h : Conditional len (some r) s o) :
    o = .fault (.unpredictable r) := by
  cases h with
  | sequential | branching => rfl

theorem exec_of_decodeChecks {i : Instr} {s : State} {r : Unpredictable} (hstop : alwaysStops i = false)
    (h : decodeChecks s i = some r) : exec i s = .fault (.unpredictable r) :=
  (h ▸ exec_conditional hstop s).of_check

theorem check_some {test : Bool} (h : test = true) (r : Unpredictable) : check test r = some r := if_pos h

/-- Of two checks the first that fails is the one that raises. -/
theorem check_or_some {test : Bool} {r : Unpredictable} (h : test = true) (rest : Option Unpredictable) :
    (check test r).or rest = some r := by
  rw [check_some h, Option.some_or]

theorem check_or_none {test : Bool} {r : Unpredictable} (h : test = false) (rest : Option Unpredictable) :
    (check test r).or rest = rest := by
  rw [check_none.2 h, Option.none_or]

/-! ## The checks of MOV and ADD of any registers (R122, R123, R132, R133) -/

/-- The check of a branch passes outside an IT block and in its last place (R254, U13). -/
theorem State.midIT_eq_false {s : State} (h : s.inIT = true → s.lastInIT = true) : s.midIT = false := by
  simpa [State.midIT] using h

theorem movChecks_none {d m : Reg} {s : State} (hlo : d.val < 8 → m.val < 8 → s.params.arch.has6 = true)
    (hbranch : d = PC → s.midIT = false) : movChecks d m s = none := by
  rw [movChecks, check_or_none (by simpa using hlo), check_none]
  simpa using hbranch

theorem addChecks_none {d m : Reg} {s : State} (hlo : d.val < 8 → m.val < 8 → s.params.arch.hasT2 = true)
    (hpc : d = PC → m ≠ PC) (hbranch : d = PC → s.midIT = false) : addChecks d m s = none := by
  rw [addChecks, check_or_none (by simpa using hlo), check_or_none (by simpa using hpc), check_none]
  simpa using hbranch

/-! ## Results with N and Z (R120, R121, R164 to R168) -/

theorem Flags.setNZ_eq (f : Flags) (v : Word) : f.setNZ v = ⟨v.getLsbD 31, v == 0#32, f.c, f.v⟩ := by
  rw [Flags.setNZ, msb_eq_getLsbD]

/-- `putNZ_writes`, with the flags written out. -/
theorem putNZ_writes_result {s : State} (h : Runs 2 s) (d : LoReg) (v : State → Word) :
    WritesRegister s (lo d) (v s) (outsideBlock s ⟨(v s).getLsbD 31, v s == 0#32, s.flags.c, s.flags.v⟩)
      (sequential none (fun s => .next (s.putNZ d (v s))) s) := by
  rw [← Flags.setNZ_eq]
  exact putNZ_writes h d v

/-- Settles O34: each of these instructions writes one result with N and Z; the check of `MOVS Rd, Rm` is that it is outside a block. -/
theorem logicalAndMoveResults : Obligations.LogicalAndMoveResults := by
  intro s rd rm imm8 h result
  simp only [exec]
  refine ⟨putNZ_writes_result h rd _, putNZ_writes_result h rd _, putNZ_writes_result h rd _, putNZ_writes_result h rd _,
    putNZ_writes_result h rd _, putNZ_writes_result h rd _, fun hout => ?_, fun hin => ?_⟩
  · rw [execMovsReg, check_none.2 hout]
    exact putNZ_writes_result h rd _
  · exact exec_of_decodeChecks (i := .movsReg rd rm) rfl (check_some hin _)

/-! ## Branches that stay in Thumb state (R26) -/

/-- What `Links` says is about R0 to R14 alone. -/
theorem Links.congr {s t u : State} {link : Option Word} (hregs : u.regs = t.regs) (h : Links s t link) : Links s u link := by
  have hx {r : Reg} (hr : r.val < 15) : u.x r = t.x r := State.x_congr_of_lt hregs hr
  cases link with
  | none => exact fun r hr hnot => (hx hr).trans (h r hr hnot)
  | some v =>
    obtain ⟨hlr, hsame⟩ := h
    exact ⟨(hx (by decide)).trans hlr, fun r hr hnot => (hx hr).trans (hsame r hr hnot)⟩

theorem SameControl.advanceIT {s u : State} (h : SameControl s u) (it : BitVec 8) : SameControl s (u.advanceIT it) := by
  constructor <;> simp [h.params, h.thumb, h.endian, h.maskA, h.maskI, h.maskF, h.event, h.fetched, h.stepIndex, h.pending]

/-- An instruction whose effect is to link and to write the PC completes as `BranchesTo` says. -/
theorem branchesTo_branching {s r : State} {len : Nat} {act : State → Result} {v : Word} {link : Option Word}
    (h : s.passed = true) (ha : act s = .next (r.branchWritePC v)) (hr : Transfers s r) (hmem : r.mem = s.mem)
    (hdevice : NoDevice s r) (hlink : Links s r link) :
    BranchesTo s (v &&& 0xFFFFFFFE#32) link (branching len none act s) := by
  obtain ⟨htrace, hdraws⟩ := hdevice
  refine ⟨(r.branchWritePC v).advanceIT s.itstate, by rw [branching_runs h, ha]; rfl, ?_, ?_, hlink.congr (by simp), ?_, ?_,
    (hr.control.branchWritePC v).advanceIT _, by simp [htrace], by simp [hdraws]⟩
  · simp [clearBit0]
  · rw [State.advanceIT_itstate, State.branchWritePC_itstate, hr.itstate]
    rfl
  · simp [hr.flags]
  · intro a
    simp [State.byteAt, hmem]

/-- The shape of a branch that changes only the pc and ITSTATE. -/
theorem branchWritePC_branches {s : State} (h : s.passed = true) (len : Nat) (v : State → Word) :
    BranchesTo s (v s &&& 0xFFFFFFFE#32) none (branching len none (fun s => .next (s.branchWritePC (v s))) s) :=
  branchesTo_branching h rfl (Transfers.refl s) rfl ⟨rfl, rfl⟩ fun _ _ _ => rfl

/-! ## MOV and ADD of any registers (R122, R132) -/

theorem Reg.lt_of_ne_PC {d : Reg} (h : d ≠ PC) : d.val < 15 := by
  revert d
  decide

theorem exec_movHi_of_ne_PC {d m : Reg} {s : State} (hd : d ≠ PC) (hlo : d.val < 8 → m.val < 8 → s.params.arch.has6 = true) :
    exec (.movHi d m) s = sequential none (fun s => .next (s.setX d (s.x m))) s := by
  rw [exec, execMovHi, if_neg hd, movChecks_none hlo (absurd · hd)]

theorem exec_addHi_of_ne_PC {d m : Reg} {s : State} (hd : d ≠ PC) (hlo : d.val < 8 → m.val < 8 → s.params.arch.hasT2 = true) :
    exec (.addHi d m) s = sequential none (fun s => .next (s.setX d (s.x d + s.x m))) s := by
  rw [exec, execAddHi, if_neg hd, addChecks_none hlo (absurd · hd) (absurd · hd)]

theorem exec_movHi_PC {m : Reg} {s : State} (hlast : s.inIT = true → s.lastInIT = true) :
    exec (.movHi PC m) s = branching 2 none (fun s => .next (s.branchWritePC (s.x m))) s := by
  rw [exec, execMovHi, if_pos rfl, movChecks_none (by simp [PC]) fun _ => State.midIT_eq_false hlast]

theorem exec_addHi_PC {m : Reg} {s : State} (hm : m ≠ PC) (hlast : s.inIT = true → s.lastInIT = true) :
    exec (.addHi PC m) s = branching 2 none (fun s => .next (s.branchWritePC (s.x PC + s.x m))) s := by
  rw [exec, execAddHi, if_pos rfl, addChecks_none (by simp [PC]) (fun _ => hm) fun _ => State.midIT_eq_false hlast]

/-- `x[15]` is the address of the instruction plus 4 (R25). -/
theorem State.x_eq_ite (s : State) (m : Reg) : s.x m = if m = PC then s.pc + 4#32 else s.x m := by
  split
  · next h => rw [h, State.x_PC]
  · rfl

/-- Settles O36: where their checks pass, the two instructions write one register or are branches. -/
theorem highRegisterResults : Obligations.HighRegisterResults := by
  intro s d m hpassed v
  have hv : v = s.x m := (s.x_eq_ite m).symm
  rw [hv]
  refine ⟨fun hd hpc => ⟨fun hlo => ?_, fun hlo => ?_⟩, fun hlast => ⟨?_, fun hm => ?_⟩⟩
  · rw [exec_movHi_of_ne_PC hd hlo]
    exact setX_writes ⟨hpassed, hpc⟩ (Reg.lt_of_ne_PC hd) _
  · rw [exec_addHi_of_ne_PC hd hlo]
    exact setX_writes ⟨hpassed, hpc⟩ (Reg.lt_of_ne_PC hd) _
  · rw [exec_movHi_PC hlast]
    exact branchWritePC_branches hpassed 2 _
  · rw [exec_addHi_PC hm hlast]
    exact branchWritePC_branches hpassed 2 _

/-! ## Operands an instruction must not have (U2, U3, U14 to U27) -/

theorem movChecks_lo {d m : Reg} {s : State} (hd : d.val < 8) (hm : m.val < 8) (h6 : s.params.arch.has6 = false) :
    movChecks d m s = some .movLoToLoBeforeV6 := check_or_some (by simp [hd, hm, h6]) _

theorem addChecks_lo {d m : Reg} {s : State} (hd : d.val < 8) (hm : m.val < 8) (h2 : s.params.arch.hasT2 = false) :
    addChecks d m s = some .addLoToLoBeforeT2 := by
  rw [addChecks, check_or_some (by simp [hd, hm, h2]), Option.some_or]

theorem addChecks_PC_PC (s : State) : addChecks PC PC s = some .addPcPcPc := rfl

theorem cmpChecks_lo {d m : Reg} (hd : d.val < 8) (hm : m.val < 8) : cmpChecks d m = some .cmpHiTwoLo :=
  check_or_some (by simp [hd, hm]) _

theorem cmpChecks_PC {d m : Reg} (h : d = PC ∨ m = PC) : cmpChecks d m = some .cmpWithPc := by
  have hhigh : ¬(d.val < 8 ∧ m.val < 8) := by
    obtain rfl | rfl := h <;> simp [PC]
  rw [cmpChecks, check_or_none (by simpa using hhigh), check_some (by simpa using h)]

/-- A listed register below the base is a lower bit of the list (R227). -/
theorem lowestInList_of_lt {list : BitVec 8} {rn r : LoReg} (hr : r ∈ listed list) (hlt : r < rn) :
    lowestInList list rn = false := by
  rw [lowestInList, beq_eq_false_iff_ne]
  intro hzero
  have hbit : (list.toNat % 2 ^ rn.val).testBit r.val = true := by
    rw [Nat.testBit_mod_two_pow, decide_eq_true (Fin.lt_def.1 hlt), Bool.true_and]
    exact mem_listed.1 hr
  simp [hzero] at hbit

theorem stmChecks_base {rn r : LoReg} {list : BitVec 8} (hrn : rn ∈ listed list) (hr : r ∈ listed list) (hlt : r < rn) :
    stmChecks rn list = some .stmBaseNotLowest := by
  have hin : inList list rn = true := mem_listed.1 hrn
  have hlist : list ≠ 0#8 := by
    rintro rfl
    simp [inList] at hin
  rw [stmChecks, check_or_none (by simpa using hlist), check_some (by simp [hin, lowestInList_of_lt hr hlt])]

theorem bxChecks_PC {s : State} (hit : s.inIT = false) (hpc : s.pc.getLsbD 1 = true) : bxChecks PC s = some .bxPcUnaligned := by
  have hmid : s.midIT = false := by simp [State.midIT, hit]
  rw [bxChecks, check_or_none hmid, check_some (by simp [hpc])]

theorem itChecks_never {s : State} (hit : s.inIT = false) (mask : BitVec 4) : itChecks 15#4 mask s = some .itCond1111 := by
  rw [itChecks, check_or_none hit]
  rfl

/-- A base condition of AL has no Else: of the masks only the four with one bit set are left (R250). -/
theorem itChecks_always {s : State} {mask : BitVec 4} (hit : s.inIT = false) (h1 : mask ≠ 1#4) (h2 : mask ≠ 2#4) (h4 : mask ≠ 4#4)
    (h8 : mask ≠ 8#4) : itChecks 14#4 mask s = some .itAlWithElse := by
  have hne {n : BitVec 4} (h : mask ≠ n) : (mask.toNat != n.toNat) = true := bne_iff_ne.2 fun e => h (BitVec.eq_of_toNat_eq e)
  have hmask : (14#4 == 14#4 && mask.toNat != 1 && mask.toNat != 2 && mask.toNat != 4 && mask.toNat != 8) = true := by
    simp only [Bool.and_eq_true]
    exact ⟨⟨⟨⟨rfl, hne h1⟩, hne h2⟩, hne h4⟩, hne h8⟩
  rw [itChecks, check_or_none hit, check_or_none (by decide), check_some hmask]

theorem cpsChecks_noFlag {s : State} (hit : s.inIT = false) : cpsChecks false false false s = some .cpsNoFlag :=
  check_or_none hit _

/-- Settles O55: each operand fails a decode-time check of its instruction, and the checks before it pass. -/
theorem operandRestrictions : Obligations.OperandRestrictions := by
  intro s d m rd rn mask list no
  refine ⟨fun hd hm h6 => ?_, fun hd hm h2 => ?_, ?_, fun h6 => ?_, fun hd hm => ?_, ?_, ?_, rfl, rfl, fun hrn hlower => ?_,
    rfl, rfl, rfl, fun hit => ⟨fun hpc => ?_, ?_, fun h1 h2 h4 h8 => ?_, ?_, ?_⟩⟩
  · exact exec_of_decodeChecks rfl (movChecks_lo hd hm h6)
  · exact exec_of_decodeChecks rfl (addChecks_lo hd hm h2)
  · exact exec_of_decodeChecks rfl (addChecks_PC_PC s)
  · exact exec_of_decodeChecks rfl (check_some (by simp [h6]) _)
  · exact exec_of_decodeChecks rfl (cmpChecks_lo hd hm)
  · exact exec_of_decodeChecks rfl (cmpChecks_PC (.inl rfl))
  · exact exec_of_decodeChecks rfl (cmpChecks_PC (.inr rfl))
  · obtain ⟨r, hr, hlt⟩ := hlower
    exact exec_of_decodeChecks rfl (stmChecks_base hrn hr hlt)
  · exact exec_of_decodeChecks rfl (bxChecks_PC hit hpc)
  · exact exec_of_decodeChecks rfl (itChecks_never hit mask)
  · exact exec_of_decodeChecks rfl (itChecks_always hit h1 h2 h4 h8)
  · exact exec_of_decodeChecks rfl (cpsChecks_noFlag hit)
  · exact exec_of_decodeChecks rfl (cpsChecks_noFlag hit)

end Sys2Proof.Machine
end

section
/-! Proofs of the statements of 41_add_subtract_multiply.md: additions, subtractions, multiplication, arithmetic on SP and addresses. -/

namespace Sys2Proof.Machine

/-! ## Sums and differences (R130, R131, R134, R135, R140 to R143, R145) -/

theorem Flags.ofSum_eq (r : Sum) : Flags.ofSum r = ⟨r.result.getLsbD 31, r.result == 0#32, r.carry, r.overflow⟩ := by
  rw [Flags.ofSum, msb_eq_getLsbD]

/-- `putSum_writes`, with the flags written out. -/
theorem putSum_writes_result {s : State} (h : Runs 2 s) (d : LoReg) (r : State → Sum) :
    WritesRegister s (lo d) (r s).result
      (outsideBlock s ⟨(r s).result.getLsbD 31, (r s).result == 0#32, (r s).carry, (r s).overflow⟩)
      (sequential none (fun s => .next (s.putSum d (r s))) s) := by
  rw [← Flags.ofSum_eq]
  exact putSum_writes h d r

/-- Settles O29: each addition writes one sum with its flags. -/
theorem additionResults : Obligations.AdditionResults := by
  intro s rd rn rm imm3 imm8 h result
  simp only [exec]
  exact ⟨putSum_writes_result h rd _, putSum_writes_result h rd _, putSum_writes_result h rd _, putSum_writes_result h rd _⟩

/-- Settles O30: each subtraction writes one sum with its flags, that of the complement (R9). -/
theorem subtractionResults : Obligations.SubtractionResults := by
  intro s rd rn rm imm3 imm8 h result
  simp only [exec]
  exact ⟨putSum_writes_result h rd _, putSum_writes_result h rd _, putSum_writes_result h rd _, putSum_writes_result h rd _,
    putSum_writes_result h rd _⟩

/-! ## Arithmetic on SP, and addresses (R136, R137, R138, R144) -/

/-- Settles O37: each of these instructions writes one register and no flag, and its immediate counts words. -/
theorem addressArithmeticResults : Obligations.AddressArithmeticResults := by
  intro s rd imm7 imm8 h
  have hSP : SP.val < 15 := by decide
  rw [← zimm4_eq (by decide) imm7, ← zimm4_eq (by decide) imm8]
  simp only [exec]
  exact ⟨setX_writes h hSP _, setX_writes h hSP _, setX_writes h (lo_lt rd) _, setX_writes h (lo_lt rd) _⟩

/-! ## Multiplication (R146) -/

/-- The effect of MULS: the product, outside an IT block the flags, and on V4T the draw they took. -/
def State.putProduct (s : State) (d : LoReg) (v : Word) : State :=
  ((s.setX (lo d) v).writeFlagsOutsideIT (mulFlags s v)).useMulDraw

/-- The check of MULS passes from v6 on and where `Rd` is not `Rm`. -/
theorem exec_muls {rd rm : LoReg} {s : State} (h6 : rd = rm → s.params.arch.has6 = true) :
    exec (.muls rd rm) s = sequential none (fun s => .next (s.putProduct rd (s.x (lo rm) * s.x (lo rd)))) s := by
  have hcheck : (rd == rm && !s.params.arch.has6) = false := by simpa using h6
  rw [exec, execMuls, check_none.2 hcheck]
  rfl

theorem State.useMulDraw_draws (s : State) :
    s.useMulDraw.draws = if s.params.arch = .v4T ∧ s.inIT = false then s.draws + 1 else s.draws := by
  unfold State.useMulDraw
  by_cases h : s.params.arch = .v4T ∧ s.inIT = false <;> simp [h]

theorem State.putProduct_draws (s : State) (d : LoReg) (v : Word) :
    (s.putProduct d v).draws = if s.params.arch = .v4T ∧ s.inIT = false then s.draws + 1 else s.draws := by
  rw [State.putProduct, State.useMulDraw_draws]
  exact if_congr (by simp [State.inIT]) (by simp) (by simp)

@[simp] theorem State.x_putProduct_same (s : State) (d : LoReg) (v : Word) : (s.putProduct d v).x (lo d) = v := by
  simp [State.putProduct]

theorem State.x_putProduct_other (s : State) (d : LoReg) (v : Word) {q : Reg} (h : q ≠ lo d) : (s.putProduct d v).x q = s.x q := by
  simp [State.putProduct, State.x_setX_other s _ h]

theorem SameControl.putProduct (s : State) (d : LoReg) (v : Word) : SameControl s (s.putProduct d v) := by
  constructor <;> simp [State.putProduct]

/-- What a completed MULS did: flags and draws as R146 has them for every version. -/
structure Multiplies (s : State) (d : LoReg) (v : Word) (t : State) : Prop where
  product : t.x (lo d) = v
  flags : t.flags = outsideBlock s (mulFlags s v)
  draws : t.draws = if s.params.arch = .v4T ∧ s.inIT = false then s.draws + 1 else s.draws
  deviceTrace : t.deviceTrace = s.deviceTrace
  regs : SameRegs s t [lo d]
  mem : SameMem s t
  control : SameControl s t
  advances : Advances 2 s t

theorem multiplies_finished (s : State) (d : LoReg) (v : Word) : Multiplies s d v (finished s (s.putProduct d v)) where
  product := by simp
  flags := by rw [finished_flags, State.putProduct, product_flags]; rfl
  draws := by rw [finished_draws, State.putProduct_draws]
  deviceTrace := by simp [State.putProduct]
  regs q hq hqd := by
    rw [finished_x _ _ hq]
    exact State.x_putProduct_other s d v (by simpa using hqd)
  mem a := by simp [State.byteAt, State.putProduct]
  control := finished_control (SameControl.putProduct s d v)
  advances := finished_advances (by simp [State.putProduct])

/-- R146 in every version; the value is the low word of the exact product. -/
theorem exec_muls_multiplies {s : State} {rd rm : LoReg} (h : Runs 2 s) (h6 : rd = rm → s.params.arch.has6 = true) :
    Gives (exec (.muls rd rm) s) (Multiplies s rd (BitVec.ofNat 32 ((s.x (lo rm)).toNat * (s.x (lo rd)).toNat))) := by
  rw [exec_muls h6, sequential_runs h, BitVec.ofNat_mul, BitVec.ofNat_toNat, BitVec.ofNat_toNat, BitVec.setWidth_eq, BitVec.setWidth_eq]
  exact ⟨_, rfl, multiplies_finished s rd _⟩

/-- Settles O31: after V4T the flags are N and Z alone, and nothing is drawn. -/
theorem multiplyResult : Obligations.MultiplyResult := by
  intro s rd rm h harch h6 v
  obtain ⟨t, ht, hm⟩ := exec_muls_multiplies h h6
  refine ⟨t, ht, hm.product, ?_, hm.regs, hm.mem, hm.control, ⟨hm.deviceTrace, ?_⟩, hm.advances⟩
  · rw [hm.flags, mulFlags_keeps harch, Flags.setNZ_eq]
  · rw [hm.draws, if_neg fun h4 => harch h4.1]

/-- On V4T, C and V are the free value of the draw (R146, D10). -/
theorem mulFlags_v4T {s : State} (h : s.params.arch = .v4T) (v : Word) : mulFlags s v =
    { s.flags.setNZ v with c := (Config.mulFlags4T s.draws).getLsbD 1, v := (Config.mulFlags4T s.draws).getLsbD 0 } := if_pos h

/-- Settles O32: outside a block MULS on V4T sets all four flags, C and V from the draw it takes. -/
theorem multiplyFreeFlags : Obligations.MultiplyFreeFlags := by
  intro s rd rm h harch hne hout v
  obtain ⟨t, ht, hm⟩ := exec_muls_multiplies h fun e => absurd e hne
  have hflags : t.flags = mulFlags s v := by
    rw [hm.flags, outsideBlock, hout]
    rfl
  rw [mulFlags_v4T harch, Flags.setNZ_eq] at hflags
  refine ⟨t, ht, hm.product, ?_, ?_, ?_, ?_, hm.deviceTrace, hm.regs, hm.mem, hm.control, hm.advances⟩
  · rw [hflags]
  · rw [hflags]
    exact beq_iff_eq
  · rintro draw rfl
    rw [hflags]
    exact ⟨rfl, rfl⟩
  · rw [hm.draws, if_pos ⟨harch, hout⟩]

end Sys2Proof.Machine
end

section
/-! Proofs of the statements of 42_compare_logical.md: the compares and TST. -/

namespace Sys2Proof.Machine

/-! ## Flags without a result register (R160 to R163, R169) -/

/-- `writeFlags_writes` for the flags of a sum, written out. -/
theorem sumFlags_writes_result {s : State} (h : Runs 2 s) (r : State → Sum) :
    WritesFlags s ⟨(r s).result.getLsbD 31, (r s).result == 0#32, (r s).carry, (r s).overflow⟩
      (sequential none (fun s => .next (s.writeFlags (Flags.ofSum (r s)))) s) := by
  rw [← Flags.ofSum_eq]
  exact writeFlags_writes h _

/-- `writeFlags_writes` for N and Z of a value, written out. -/
theorem nzFlags_writes_result {s : State} (h : Runs 2 s) (v : State → Word) :
    WritesFlags s ⟨(v s).getLsbD 31, v s == 0#32, s.flags.c, s.flags.v⟩
      (sequential none (fun s => .next (s.writeFlags (s.flags.setNZ (v s)))) s) := by
  rw [← Flags.setNZ_eq]
  exact writeFlags_writes h _

/-- The checks of the Hi-register CMP pass where one operand is Hi and none is the PC (R161). -/
theorem cmpChecks_none {n m : Reg} (hhigh : 8 ≤ n.val ∨ 8 ≤ m.val) (hn : n ≠ PC) (hm : m ≠ PC) : cmpChecks n m = none := by
  have hlo : (n.val < 8 && m.val < 8) = false := by
    simpa [or_iff_not_imp_left] using hhigh
  rw [cmpChecks, check_or_none hlo, check_none]
  simp [hn, hm]

/-- Settles O33: the compares write the flags of one sum, and TST N and Z of the conjunction; the checks of the Hi-register CMP pass. -/
theorem compareResults : Obligations.CompareResults := by
  intro s rn rm hn hm imm8 h result
  refine ⟨?_, fun hhigh hnPC hmPC => ?_, ?_, ?_, ?_⟩
  · exact sumFlags_writes_result h fun s => subWithCarry (s.x (lo rn)) (s.x (lo rm)) true
  · rw [exec, execCmpHi, cmpChecks_none hhigh hnPC hmPC]
    exact sumFlags_writes_result h fun s => subWithCarry (s.x hn) (s.x hm) true
  · exact sumFlags_writes_result h fun s => subWithCarry (s.x (lo rn)) (zimm imm8) true
  · exact sumFlags_writes_result h fun s => addWithCarry (s.x (lo rn)) (s.x (lo rm)) false
  · exact nzFlags_writes_result h fun s => s.x (lo rn) &&& s.x (lo rm)

end Sys2Proof.Machine
end

section
/-! Proofs of the statements of 43_shift_rotate.md: the shifts and the rotation, by an immediate and by a register. -/

namespace Sys2Proof.Machine

/-! ## Results with N, Z and C (R180 to R186) -/

theorem Flags.setNZC_eq (f : Flags) (r : Shifted) : f.setNZC r = ⟨r.result.getLsbD 31, r.result == 0#32, r.carry, f.v⟩ := by
  rw [Flags.setNZC, msb_eq_getLsbD]

/-- `putShifted_writes`, with the flags written out. -/
theorem putShifted_writes_result {s : State} (h : Runs 2 s) (d : LoReg) (r : State → Shifted) :
    WritesRegister s (lo d) (r s).result
      (outsideBlock s ⟨(r s).result.getLsbD 31, (r s).result == 0#32, (r s).carry, s.flags.v⟩)
      (sequential none (fun s => .next (s.putShifted d (r s))) s) := by
  rw [← Flags.setNZC_eq]
  exact putShifted_writes h d r

/-- The amount of a shift by a register is the value of its low byte, as a number (R181, R183, R185, R186). -/
theorem shiftByRegister_eq (shift : Word → Nat → Shifted) (x amount : Word) (c : Bool) :
    shiftByRegister shift x amount c =
      if amount.toNat % 256 = 0 then ⟨x, c⟩ else shift x (amount.toNat % 256) := by
  rw [shiftByRegister, BitVec.truncate_eq_setWidth, BitVec.toNat_setWidth]

/-- Settles O35: each shift writes one shifted value with N, Z and C; by a register, the amount is the register's low byte. -/
theorem shiftResults : Obligations.ShiftResults := by
  intro s rd rm imm5 h result n amount byAmount
  have hreg (shift : Word → Nat → Shifted) : byAmount shift = shiftByRegister shift (s.x (lo rd)) (s.x (lo rm)) s.flags.c :=
    (shiftByRegister_eq shift _ _ _).symm
  rw [hreg lslC, hreg lsrC, hreg asrC, hreg rorC]
  refine ⟨fun _ => ?_, ?_, ?_, ?_, ?_, ?_, ?_⟩
  · exact putShifted_writes_result h rd fun s => lslC (s.x (lo rm)) imm5.toNat
  · exact putShifted_writes_result h rd fun s => lsrC (s.x (lo rm)) (shiftAmount imm5)
  · exact putShifted_writes_result h rd fun s => asrC (s.x (lo rm)) (shiftAmount imm5)
  · exact putShifted_writes_result h rd fun s => shiftByRegister lslC (s.x (lo rd)) (s.x (lo rm)) s.flags.c
  · exact putShifted_writes_result h rd fun s => shiftByRegister lsrC (s.x (lo rd)) (s.x (lo rm)) s.flags.c
  · exact putShifted_writes_result h rd fun s => shiftByRegister asrC (s.x (lo rd)) (s.x (lo rm)) s.flags.c
  · exact putShifted_writes_result h rd fun s => shiftByRegister rorC (s.x (lo rd)) (s.x (lo rm)) s.flags.c

end Sys2Proof.Machine
end

section
/-! Proofs of the statements of 44_load.md: the single loads and LDM. -/

namespace Sys2Proof.Machine

/-! ## What a load leaves alone (R59) -/

theorem Traces.setX {s u : State} {evs : List DeviceEvent} (h : Traces s u evs) (r : Reg) (v : Word) :
    Traces s (u.setX r v) evs := by
  simpa [Traces] using h

theorem Traces.finished {s u : State} {evs : List DeviceEvent} (h : Traces s u evs) : Traces s (finished s u) evs := by
  simpa [Traces] using h

/-- Beside registers nothing has changed but the device trace and the draws, which grew by `evs`, and the advance of pc and ITSTATE. -/
structure LoadFrame (s t : State) (evs : List DeviceEvent) : Prop where
  flags : t.flags = s.flags
  mem : SameMem s t
  control : SameControl s t
  traces : Traces s t evs
  advances : Advances 2 s t

theorem Transfers.loadFrame {s u : State} {evs : List DeviceEvent} (h : Transfers s u) (hmem : u.mem = s.mem)
    (htraces : Traces s u evs) : LoadFrame s (finished s u) evs where
  flags := by rw [finished_flags, h.flags]
  mem a := by rw [finished_byteAt, State.byteAt, hmem, State.byteAt]
  control := finished_control h.control
  traces := htraces.finished
  advances := finished_advances h.itstate

theorem sameRegs_finished {s u : State} {except : List Reg} (h : ∀ q, q ∉ except → u.x q = s.x q) :
    SameRegs s (finished s u) except := fun q hq hne => by
  rw [finished_x s u hq, h q hne]

/-! ## Single loads (R200 to R209) -/

/-- An aligned load of mapped bytes writes the extended value of R52, and notes the access where it touches a device. -/
theorem loadTo_readable {w : Width} {ext : Word → Word} {rt : LoReg} {addr : Word} {s : State}
    (halign : addr.toNat % w.bytes = 0) (h : Readable s addr w.bytes) :
    loadTo w ext rt addr s = .next ((s.noteDevice (s.touchesDevice w addr) (.read addr w.bytes)).setX (lo rt)
      (ext (readValue s s.draws w addr))) := by
  rw [loadTo, memRead_readable halign h]

/-- The shape of the single loads; `addrOf` is the rule's address computation and `addr` its value as a statement writes it. -/
theorem load_loads {s : State} (h : Runs 2 s) {w : Width} {ext : Word → Word} {rt : LoReg} {addrOf : State → Word}
    {addr : Word} (ha : addrOf s = addr) :
    Loads s w addr rt ext (sequential none (fun s => loadTo w ext rt (addrOf s) s) s) := by
  subst ha
  intro halign hreadable
  rw [sequential_runs h, loadTo_readable halign hreadable]
  have hframe := (((Transfers.refl s).noteDevice _ _).setX (lo rt) (ext (readValue s s.draws w (addrOf s)))).loadFrame
    (by simp) ((State.noteDevice_traces s (s.touchesDevice w (addrOf s)) (.read (addrOf s) w.bytes)).setX _ _)
  refine ⟨_, rfl, by simp, hframe.flags, sameRegs_finished fun q hq => ?_, hframe.mem, hframe.control, hframe.traces,
    hframe.advances⟩
  rw [State.x_setX_other _ _ (List.ne_of_not_mem_cons hq), State.x_noteDevice]

/-- Settles O39: the effect of each of these instructions is one load, from the address its rule computes. -/
theorem loadResults : Obligations.LoadResults := by
  intro s rt rn rm imm5 imm8 h n m
  have h4 (a : Word) : a + zimm4 imm5 = a + BitVec.ofNat 32 (4 * imm5.toNat) := by rw [zimm4_eq (by decide)]
  have h2 (a : Word) : a + zimm2 imm5 = a + BitVec.ofNat 32 (2 * imm5.toNat) := by rw [zimm2_eq (by decide)]
  have h1 (a : Word) : a + zimm imm5 = a + BitVec.ofNat 32 imm5.toNat := by rw [zimm_eq]
  have h8 (a : Word) : a + zimm4 imm8 = a + BitVec.ofNat 32 (4 * imm8.toNat) := by rw [zimm4_eq (by decide)]
  simp only [exec]
  exact ⟨load_loads h (h4 n), load_loads h (h2 n), load_loads h (h1 n), load_loads h rfl, load_loads h rfl, load_loads h rfl,
    load_loads h rfl, load_loads h rfl, load_loads h (h8 _), load_loads h (h8 _)⟩

/-! ## LDM (R210, R211) -/

/-- The effect of LDM: the listed registers from the words upward from Rn, and Rn raised past them where it is not listed. -/
def State.loadMultiple (s : State) (rn : LoReg) (list : BitVec 8) : State :=
  let t := loadRegs (listed list) (s.x (lo rn)) s
  if inList list rn then t else t.setX (lo rn) (s.x (lo rn) + words (bitCount list))

/-- LDM of a list that is not empty, from a word-aligned base and mapped words, completes. -/
theorem exec_ldm {s : State} {rn : LoReg} {list : BitVec 8} (h : Runs 2 s) (hlist : list ≠ 0#8)
    (halign : (s.x (lo rn)).toNat % 4 = 0) (hreadable : ∀ j < bitCount list, Readable s (s.x (lo rn) + words j) 4) :
    exec (.ldm rn list) s = .next (finished s (s.loadMultiple rn list)) := by
  have hcheck : check (list == 0#8) .ldmEmpty = none := check_none.2 (by simpa using hlist)
  rw [exec, execLdm, hcheck, sequential_runs h, readChecks_pass halign hreadable]
  rfl

theorem loadMultiple_listed {rn : LoReg} {list : BitVec 8} (h : rn ∈ listed list) (s : State) :
    s.loadMultiple rn list = loadRegs (listed list) (s.x (lo rn)) s := if_pos (mem_listed.1 h)

theorem loadMultiple_not_listed {rn : LoReg} {list : BitVec 8} (h : rn ∉ listed list) (s : State) :
    s.loadMultiple rn list =
      (loadRegs (listed list) (s.x (lo rn)) s).setX (lo rn) (s.x (lo rn) + words (bitCount list)) :=
  if_neg fun hin => h (mem_listed.2 hin)

/-- The write-back reaches Rn alone, and that only where it is not listed. -/
theorem x_loadMultiple {rn : LoReg} {list : BitVec 8} {q : Reg} (h : rn ∈ listed list ∨ q ≠ lo rn) (s : State) :
    (s.loadMultiple rn list).x q = (loadRegs (listed list) (s.x (lo rn)) s).x q := by
  by_cases hrn : rn ∈ listed list
  · rw [loadMultiple_listed hrn]
  · rw [loadMultiple_not_listed hrn, State.x_setX_other _ _ (h.resolve_left hrn)]

theorem loadMultiple_transfers (s : State) (rn : LoReg) (list : BitVec 8) : Transfers s (s.loadMultiple rn list) := by
  have hload := loadRegs_transfers (listed list) (s.x (lo rn)) s
  by_cases hrn : rn ∈ listed list
  · rw [loadMultiple_listed hrn]
    exact hload
  · rw [loadMultiple_not_listed hrn]
    exact hload.setX _ _

theorem loadMultiple_mem (s : State) (rn : LoReg) (list : BitVec 8) : (s.loadMultiple rn list).mem = s.mem := by
  by_cases hrn : rn ∈ listed list
  · rw [loadMultiple_listed hrn, loadRegs_mem]
  · rw [loadMultiple_not_listed hrn, State.setX_mem, loadRegs_mem]

theorem loadMultiple_traces (s : State) (rn : LoReg) (list : BitVec 8) :
    Traces s (s.loadMultiple rn list)
      ((deviceWords s (s.x (lo rn)) (bitCount list)).map (fun j => .read (s.x (lo rn) + words j) 4)) := by
  obtain ⟨-, hload⟩ := loadRegs_spec (listed list) (s.x (lo rn)) s (nodup_listed list)
  by_cases hrn : rn ∈ listed list
  · rw [loadMultiple_listed hrn]
    exact hload
  · rw [loadMultiple_not_listed hrn]
    exact hload.setX _ _

/-- A listed Rn keeps the word loaded into it; an unlisted one is raised after the loads, which it is no target of. -/
theorem loadMultiple_holdsLoaded (s : State) (rn : LoReg) (list : BitVec 8) :
    HoldsLoaded s (s.x (lo rn)) (listed list) (finished s (s.loadMultiple rn list)) := by
  obtain ⟨hload, -⟩ := loadRegs_spec (listed list) (s.x (lo rn)) s (nodup_listed list)
  intro j hj
  have hkept : rn ∈ listed list ∨ lo (listed list)[j] ≠ lo rn :=
    or_iff_not_imp_left.2 fun hrn heq => hrn (lo_injective heq ▸ List.getElem_mem hj)
  rw [finished_x_lo, x_loadMultiple hkept, hload j hj]

/-- Settles O43: past its checks LDM ends in `State.loadMultiple`, advanced. -/
theorem loadMultipleResult : Obligations.LoadMultipleResult := by
  intro s rn list h hlist base count halign hreadable
  have hframe := (loadMultiple_transfers s rn list).loadFrame (loadMultiple_mem s rn list) (loadMultiple_traces s rn list)
  refine ⟨_, exec_ldm h hlist halign hreadable, loadMultiple_holdsLoaded s rn list, fun hrn => ?_,
    sameRegs_finished fun q hq => ?_, hframe.flags, hframe.mem, hframe.control, hframe.traces, hframe.advances⟩
  · rw [finished_x_lo, loadMultiple_not_listed hrn, State.x_setX_lo]
  · have hother : ∀ r ∈ listed list, q ≠ lo r := fun r hr heq =>
      List.not_mem_of_not_mem_cons hq (heq ▸ List.mem_map_of_mem hr)
    rw [x_loadMultiple (.inr (List.ne_of_not_mem_cons hq)), loadRegs_x_other _ _ _ hother]

end Sys2Proof.Machine
end

section
/-! Proofs of the statements of 45_store.md: the single stores and STM. -/

namespace Sys2Proof.Machine

/-! ## What a store leaves alone (R59) -/

/-- Beside registers and memory nothing has changed but the device trace and the draws, which grew by `evs`, and the advance of pc and
ITSTATE. -/
structure StoreFrame (s t : State) (evs : List DeviceEvent) : Prop where
  flags : t.flags = s.flags
  control : SameControl s t
  traces : Traces s t evs
  advances : Advances 2 s t

theorem Transfers.storeFrame {s u : State} {evs : List DeviceEvent} (h : Transfers s u) (htraces : Traces s u evs) :
    StoreFrame s (finished s u) evs where
  flags := by rw [finished_flags, h.flags]
  control := finished_control h.control
  traces := htraces.finished
  advances := finished_advances h.itstate

/-! ## Single stores (R220 to R226) -/

theorem writeNow_transfers (w : Width) (addr v : Word) (s : State) : Transfers s (writeNow w addr v s) :=
  ⟨writeNow_control s w addr v, by simp, by simp, by simp⟩

/-- An aligned store to bytes that admit it is one write. -/
theorem storeFrom_storable {w : Width} {v addr : Word} {s : State} (halign : addr.toNat % w.bytes = 0)
    (h : Storable s addr w.bytes) : storeFrom w v addr s = .next (writeNow w addr v s) :=
  storeFrom_next.2 ⟨writeCheck_none_iff.2 ⟨halign, h⟩, rfl⟩

/-- The shape of the single stores; `addrOf` is the rule's address computation and `addr` its value as a statement writes it. -/
theorem store_stores {s : State} (h : Runs 2 s) {w : Width} {v addrOf : State → Word} {addr : Word} (ha : addrOf s = addr) :
    Stores s w addr (v s) (sequential none (fun s => storeFrom w (v s) (addrOf s) s) s) := by
  subst ha
  intro halign hstorable
  rw [sequential_runs h, storeFrom_storable halign hstorable]
  have hframe := (writeNow_transfers w (addrOf s) (v s) s).storeFrame (writeNow_traces s w (addrOf s) (v s))
  refine ⟨_, rfl, fun i hi hkind => ?_, fun a hkind => ?_, fun a hout => ?_, hframe.flags,
    sameRegs_finished fun q _ => writeNow_x w (addrOf s) (v s) s q, hframe.control, hframe.traces, hframe.advances⟩
  · rw [finished_byteAt, writeNow_inside s w _ _ i hi hkind]
  · rw [finished_byteAt, writeNow_device s w _ _ a hkind]
  · rw [finished_byteAt, writeNow_outside s w _ _ a hout]

/-- Settles O40: the effect of each of these instructions is one store, to the address its rule computes. -/
theorem storeResults : Obligations.StoreResults := by
  intro s rt rn rm imm5 imm8 h n m v
  have h4 (a : Word) : a + zimm4 imm5 = a + BitVec.ofNat 32 (4 * imm5.toNat) := by rw [zimm4_eq (by decide)]
  have h2 (a : Word) : a + zimm2 imm5 = a + BitVec.ofNat 32 (2 * imm5.toNat) := by rw [zimm2_eq (by decide)]
  have h1 (a : Word) : a + zimm imm5 = a + BitVec.ofNat 32 imm5.toNat := by rw [zimm_eq]
  have h8 (a : Word) : a + zimm4 imm8 = a + BitVec.ofNat 32 (4 * imm8.toNat) := by rw [zimm4_eq (by decide)]
  simp only [exec]
  exact ⟨store_stores h (h4 n), store_stores h (h2 n), store_stores h (h1 n), store_stores h rfl, store_stores h rfl,
    store_stores h rfl, store_stores h (h8 _)⟩

/-! ## Multiple stores with a write-back (R60, R227, R240) -/

/-- The instruction completes having stored `vs` from `base` upward and then written `v` to register `d`, and advanced. -/
def StoresWords (s : State) (base : Word) (vs : List Word) (d : Reg) (v : Word) (o : Result) : Prop :=
  Gives o fun t => HoldsWords s base vs t ∧ t.x d = v ∧ SameRegs s t [d] ∧ t.flags = s.flags ∧ SameControl s t ∧
    Traces s t ((deviceWords s base vs.length).map (fun j => .write (base + words j) 4 (vs.getD j 0#32))) ∧ Advances 2 s t

theorem HoldsWords.congr {s t u : State} {base : Word} {vs : List Word} (h : HoldsWords s base vs t)
    (hmem : ∀ a, u.byteAt a = t.byteAt a) : HoldsWords s base vs u := by
  obtain ⟨hwords, hdevice, houtside⟩ := h
  exact ⟨fun j hj i hi hkind => (hmem _).trans (hwords j hj i hi hkind), fun a hkind => (hmem a).trans (hdevice a hkind),
    fun a hout => (hmem a).trans (houtside a hout)⟩

theorem storeWords_x (vs : List Word) (base : Word) (s : State) (q : Reg) : (storeWords vs base s).x q = s.x q := by
  obtain ⟨-, hregs, hpc, -⟩ := storeWords_fields vs base s
  exact State.x_congr hregs hpc q

/-- A store of words that all admit it, from a word-aligned base, completes. -/
theorem storeMultiple_storable {vs : List Word} {base : Word} {s : State} (halign : base.toNat % 4 = 0)
    (h : ∀ j < vs.length, Storable s (base + words j) 4) : storeMultiple vs base s = .next (storeWords vs base s) :=
  storeMultiple_next.2 ⟨writeChecks_pass halign h, rfl⟩

/-- The shape of the multiple stores; no word is stored twice, for the words fit in the address space. -/
theorem storeMultiple_stores {s : State} (h : Runs 2 s) {vs : State → List Word} {base v : State → Word} {d : Reg}
    (hd : d.val < 15) (hlen : 4 * (vs s).length ≤ 2 ^ 32) (halign : (base s).toNat % 4 = 0)
    (hstorable : ∀ j < (vs s).length, Storable s (base s + words j) 4) :
    StoresWords s (base s) (vs s) d (v s)
      (sequential none (fun s => andThen (storeMultiple (vs s) (base s) s) (fun t => .next (t.setX d (v s)))) s) := by
  obtain ⟨hholds, htraces⟩ := storeWords_spec (vs s) (base s) s hlen
  have hframe := ((storeWords_transfers (vs s) (base s) s).setX d (v s)).storeFrame (htraces.setX d (v s))
  rw [sequential_runs h, storeMultiple_storable halign hstorable]
  refine ⟨_, rfl, hholds.congr fun a => ?_, ?_, sameRegs_finished fun q hq => ?_, hframe.flags, hframe.control, hframe.traces,
    hframe.advances⟩
  · rw [finished_byteAt, State.byteAt, State.setX_mem, State.byteAt]
  · rw [finished_x _ _ hd, State.x_setX_same _ _ hd]
  · rw [State.x_setX_other _ _ (List.ne_of_not_mem_cons hq), storeWords_x]

/-! ## STM (R227) -/

/-- Settles O44: past its checks STM stores the values of the listed registers and raises Rn by their count. -/
theorem storeMultipleResult : Obligations.StoreMultipleResult := by
  intro s rn list h hlist hlowest base vs halign hstorable
  have hcount : bitCount list = vs.length := (length_listedValues s list).symm
  have hlen : 4 * vs.length ≤ 2 ^ 32 := by
    have hle := length_listed_le list
    rw [← hcount, bitCount]
    omega
  rw [exec, execStm, stmChecks_none hlist hlowest, hcount]
  exact storeMultiple_stores h (vs := fun s => s.listedValues list) (base := fun s => s.x (lo rn))
    (v := fun s => s.x (lo rn) + words vs.length) (lo_lt rn) hlen halign hstorable

end Sys2Proof.Machine
end

section
/-! Proofs of the statements of 46_push_pop.md: PUSH, POP with and without the PC, and POP after PUSH. -/

namespace Sys2Proof.Machine

/-! ## PUSH (R240) -/

theorem stackCount_le (extra : Bool) (list : BitVec 8) : stackCount extra list ≤ 9 := by
  have hle := length_listed_le list
  have hextra := extra.toNat_le
  rw [stackCount, bitCount]
  omega

theorem pushCheck_none {m : Bool} {list : BitVec 8} :
    check (!m && list == 0#8) .pushEmpty = none ↔ m = true ∨ list ≠ 0#8 := by
  rw [check_none]
  cases m <;> simp

/-- PUSH of a list that is not empty, to word-aligned words that admit it, stores and lowers SP. -/
theorem exec_push_stores {s : State} {m : Bool} {list : BitVec 8} (h : Runs 2 s) (hlist : m = true ∨ list ≠ 0#8)
    (halign : (pushBase m list s).toNat % 4 = 0)
    (hstorable : ∀ j < stackCount m list, Storable s (pushBase m list s + words j) 4) :
    StoresWords s (pushBase m list s) (pushValues m list s) SP (pushBase m list s) (exec (.push m list) s) := by
  have hlen : 4 * (pushValues m list s).length ≤ 2 ^ 32 := by
    have hle := stackCount_le m list
    rw [length_pushValues]
    omega
  rw [← length_pushValues m list s] at hstorable
  rw [exec, execPush, pushCheck_none.2 hlist]
  exact storeMultiple_stores h (vs := pushValues m list) (base := pushBase m list) (v := pushBase m list) (by decide) hlen halign
    hstorable

/-- Settles O45: the values of the statement are `pushValues`, and their number is `stackCount`. -/
theorem pushResult : Obligations.PushResult := by
  intro s m list h hlist vs base halign hstorable
  have hcount : vs.length = stackCount m list := length_pushValues m list s
  have hbase : base = pushBase m list s := congrArg (fun n => s.x SP - words n) hcount
  rw [hbase] at halign hstorable ⊢
  rw [hcount] at hstorable
  exact exec_push_stores h hlist halign hstorable

/-- Everything that a PUSH which executes and completes has checked. -/
theorem push_checked {s t : State} {m : Bool} {list : BitVec 8} (hpassed : s.passed = true)
    (hn : exec (.push m list) s = .next t) :
    Runs 2 s ∧ (m = true ∨ list ≠ 0#8) ∧ (pushBase m list s).toNat % 4 = 0 ∧
      ∀ j < stackCount m list, Storable s (pushBase m list s + words j) 4 := by
  rw [exec, execPush] at hn
  obtain ⟨hcheck, hpc, u, hu, -⟩ := sequential_next.1 hn
  rw [if_pos hpassed] at hu
  obtain ⟨v, hv, -⟩ := andThen_next.1 hu
  obtain ⟨hchecks, -⟩ := storeMultiple_next.1 hv
  rw [length_pushValues] at hchecks
  obtain ⟨halign, hwritable⟩ := writeChecks_none.1 hchecks
  exact ⟨⟨hpassed, hpc⟩, pushCheck_none.1 hcheck, halign, fun j hj => writable_iff.1 (hwritable j hj)⟩

/-! ## What is popped (R241 to R243) -/

/-- From `s` to `t` the listed registers were loaded upward from SP, SP was raised past the `count` words read, and nothing else has
changed but the pc and ITSTATE. -/
structure Pops (s : State) (list : BitVec 8) (count : Nat) (t : State) : Prop where
  loaded : HoldsLoaded s (s.x SP) (listed list) t
  sp : t.x SP = s.x SP + words count
  regs : SameRegs s t (SP :: (listed list).map lo)
  flags : t.flags = s.flags
  mem : SameMem s t
  control : SameControl s t
  traces : Traces s t ((deviceWords s (s.x SP) count).map (fun j => .read (s.x SP + words j) 4))

/-- What `Pops` says is not about the pc and ITSTATE. -/
theorem Pops.congr {s t u : State} {list : BitVec 8} {count : Nat} (h : Pops s list count t) (hregs : u.regs = t.regs)
    (hflags : u.flags = t.flags) (hmem : u.mem = t.mem) (hcontrol : SameControl s u) (hdevice : NoDevice t u) :
    Pops s list count u := by
  have hx {r : Reg} (hr : r.val < 15) : u.x r = t.x r := State.x_congr_of_lt hregs hr
  obtain ⟨htrace, hdraws⟩ := hdevice
  obtain ⟨htraced, hdrawn⟩ := h.traces
  exact ⟨fun j hj => (hx (lo_lt _)).trans (h.loaded j hj), (hx (by decide)).trans h.sp,
    fun q hq hne => (hx hq).trans (h.regs q hq hne), hflags.trans h.flags,
    fun a => (congrArg (Memory.read · a) hmem).trans (h.mem a), hcontrol, htrace.trans htraced, hdraws.trans hdrawn⟩

theorem Pops.finished {s t : State} {list : BitVec 8} {count : Nat} (h : Pops s list count t) :
    Pops s list count (finished s t) :=
  h.congr (by simp) (by simp) (by simp) (finished_control h.control) ⟨by simp, by simp⟩

theorem Pops.branchWritePC {s t : State} {list : BitVec 8} {count : Nat} (h : Pops s list count t) (v : Word) (it : BitVec 8) :
    Pops s list count ((t.branchWritePC v).advanceIT it) :=
  h.congr (by simp) (by simp) (by simp) ((h.control.branchWritePC v).advanceIT it) ⟨by simp, by simp⟩

/-- Raising SP is a pop in a state `u` whose registers are those after the loads: SP is no target of a load. -/
theorem pops_setX_SP {s u : State} {list : BitVec 8} {count : Nat} (h : Transfers s u) (hmem : u.mem = s.mem)
    (hx : ∀ q, u.x q = (loadRegs (listed list) (s.x SP) s).x q)
    (htraces : Traces s u ((deviceWords s (s.x SP) count).map (fun j => .read (s.x SP + words j) 4))) :
    Pops s list count (u.setX SP (s.x SP + words count)) where
  loaded j hj := by
    obtain ⟨hload, -⟩ := loadRegs_spec (listed list) (s.x SP) s (nodup_listed list)
    rw [State.x_setX_other _ _ (lo_ne_SP _), hx, hload j hj]
  sp := State.x_setX_same _ _ (by decide)
  regs q _ hq := by
    have hother : ∀ r ∈ listed list, q ≠ lo r := fun r hr heq =>
      List.not_mem_of_not_mem_cons hq (heq ▸ List.mem_map_of_mem hr)
    rw [State.x_setX_other _ _ (List.ne_of_not_mem_cons hq), hx, loadRegs_x_other _ _ _ hother]
  flags := by rw [State.setX_flags, h.flags]
  mem a := by rw [State.byteAt, State.setX_mem, hmem, State.byteAt]
  control := h.control.setX _ _
  traces := htraces.setX _ _

/-! ## POP without the PC (R241) -/

theorem popRegs_pops (s : State) (list : BitVec 8) : Pops s list (bitCount list) (popRegs false list s) := by
  obtain ⟨-, htraces⟩ := loadRegs_spec (listed list) (s.x SP) s (nodup_listed list)
  exact pops_setX_SP (loadRegs_transfers _ _ s) (loadRegs_mem _ _ s) (fun _ => rfl) htraces

/-- POP of a list that is not empty, from word-aligned words that are mapped, completes in every place of an IT block. -/
theorem exec_pop {s : State} {list : BitVec 8} (h : Runs 2 s) (hlist : list ≠ 0#8) (halign : (s.x SP).toNat % 4 = 0)
    (hreadable : ∀ j < bitCount list, Readable s (s.x SP + words j) 4) :
    exec (.pop false list) s = .next (finished s (popRegs false list s)) := by
  have hchecks : popChecks false list s = none := by simp [popChecks, check, hlist]
  have hpass : readChecks (stackCount false list) (s.x SP) s = none := readChecks_pass halign hreadable
  rw [exec, execPop, if_neg Bool.false_ne_true, hchecks, sequential_runs h, hpass]
  rfl

/-- Settles O46: past its checks POP ends in `popRegs`, advanced. -/
theorem popResult : Obligations.PopResult := by
  intro s list h hlist base count halign hreadable
  have hpops := (popRegs_pops s list).finished
  have hitstate : (popRegs false list s).itstate = s.itstate := ((loadRegs_transfers _ _ s).setX SP _).itstate
  exact ⟨_, exec_pop h hlist halign hreadable, hpops.loaded, hpops.sp, hpops.regs, hpops.flags, hpops.mem, hpops.control,
    hpops.traces, finished_advances hitstate⟩

/-! ## POP with the PC (R242, R243) -/

/-- The word that POP with the PC loads into the PC, in the words of R52. -/
def popTarget (s : State) (list : BitVec 8) : Word :=
  readValue s (s.draws + (deviceWords s (s.x SP) (bitCount list)).length) .word (s.x SP + words (bitCount list))

/-- The state in which POP with the PC writes the PC: the listed registers and SP are popped, and the word of the PC has been read. -/
def popRegsAndTarget (list : BitVec 8) (s : State) : State :=
  (readNow .word (s.x SP + words (bitCount list)) (loadRegs (listed list) (s.x SP) s)).2.setX SP
    (s.x SP + words (bitCount list + 1))

/-- The word of the PC is read after the loads, which have taken their draws. -/
theorem readNow_popTarget (s : State) (list : BitVec 8) :
    (readNow .word (s.x SP + words (bitCount list)) (loadRegs (listed list) (s.x SP) s)).1 = popTarget s list := by
  have hcontrol := (loadRegs_transfers (listed list) (s.x SP) s).control
  obtain ⟨-, -, hdraws⟩ := loadRegs_spec (listed list) (s.x SP) s (nodup_listed list)
  rw [readNow, fromBytes_sampleBytes, readValue_congr hcontrol.params hcontrol.endian (loadRegs_mem _ _ s), hdraws,
    List.length_map]
  rfl

theorem Traces.trans {s t u : State} {evs evs' : List DeviceEvent} (h : Traces s t evs) (h' : Traces t u evs') :
    Traces s u (evs ++ evs') := by
  obtain ⟨htrace, hdraws⟩ := h
  obtain ⟨htrace', hdraws'⟩ := h'
  exact ⟨by rw [htrace', htrace, List.append_assoc], by rw [hdraws', hdraws, List.length_append, Nat.add_assoc]⟩

theorem touchesDevice_congr {s t : State} (h : t.params = s.params) (w : Width) (addr : Word) :
    t.touchesDevice w addr = s.touchesDevice w addr := by
  rw [State.touchesDevice, h, State.touchesDevice]

/-- Reading one more word after a multiple load is traced as the load of one more word. -/
theorem loadRegs_readNow_traces (s : State) (base : Word) (list : BitVec 8) :
    Traces s (readNow .word (base + words (bitCount list)) (loadRegs (listed list) base s)).2
      ((deviceWords s base (bitCount list + 1)).map (fun j => .read (base + words j) 4)) := by
  obtain ⟨-, hloads⟩ := loadRegs_spec (listed list) base s (nodup_listed list)
  have hparams : (loadRegs (listed list) base s).params = s.params := (loadRegs_transfers _ _ s).control.params
  rw [readNow_state, touchesDevice_congr hparams, deviceWords_succ, List.map_append, apply_ite (List.map _)]
  exact hloads.trans (State.noteDevice_traces _ _ _)

theorem popRegsAndTarget_transfers (s : State) (list : BitVec 8) : Transfers s (popRegsAndTarget list s) :=
  ((loadRegs_transfers (listed list) (s.x SP) s).noteDevice _ _).setX SP _

theorem popRegsAndTarget_pops (s : State) (list : BitVec 8) :
    Pops s list (bitCount list + 1) (popRegsAndTarget list s) :=
  pops_setX_SP ((loadRegs_transfers _ _ s).noteDevice _ _) (by rw [readNow_state, State.noteDevice_mem, loadRegs_mem])
    (fun _ => State.x_noteDevice _ _ _ _) (loadRegs_readNow_traces s (s.x SP) list)

/-- POP with the PC, last in an IT block where it is in one, from word-aligned words that are mapped, writes the PC with the highest. -/
theorem exec_pop_PC {s : State} {list : BitVec 8} (hpassed : s.passed = true) (hlast : s.inIT = true → s.lastInIT = true)
    (halign : (s.x SP).toNat % 4 = 0) (hreadable : ∀ j < bitCount list + 1, Readable s (s.x SP + words j) 4) :
    exec (.pop true list) s =
      andThen ((popRegsAndTarget list s).loadWritePC (popTarget s list)) (fun t => .next (t.advanceIT s.itstate)) := by
  have hpass : readChecks (stackCount true list) (s.x SP) s = none := readChecks_pass halign hreadable
  rw [exec, execPop, if_pos rfl, popChecks_none (.inl rfl) hlast, branching_runs hpassed, hpass, ← readNow_popTarget]
  rfl

/-- `LoadWritePC` from V5T on with bit 0 clear leaves Thumb state, carrying the state as it stands (R26). -/
theorem loadWritePC_leaves {s : State} {v : Word} (h5 : s.params.arch.has5T = true) (hv : v.getLsbD 0 = false) :
    s.loadWritePC v = leaveThumb v s := by
  rw [State.loadWritePC, if_pos h5, bxWritePC_leaves hv]

/-- Settles O47: the PC is written in `popRegsAndTarget`, by `LoadWritePC` of the highest word. -/
theorem popReturns : Obligations.PopReturns := by
  intro s list hpassed hlast base count target exchanges halign hreadable popped
  have htransfers := popRegsAndTarget_transfers s list
  have hpopped {t : State} (h : Pops s list (bitCount list + 1) t) : popped t :=
    ⟨h.loaded, h.sp, h.regs, h.flags, h.mem, h.control, h.traces⟩
  have hpops := popRegsAndTarget_pops s list
  have harch : (popRegsAndTarget list s).params.arch = s.params.arch := congrArg Params.arch htransfers.control.params
  rw [exec_pop_PC hpassed hlast halign hreadable]
  refine ⟨fun hstays => ?_, fun ⟨h5, hbit⟩ => ?_⟩
  · have hbit : (popRegsAndTarget list s).params.arch.has5T = true → (popTarget s list).getLsbD 0 = true := by
      rw [harch]
      exact fun h5 => Bool.eq_true_of_not_eq_false fun hbit => hstays ⟨h5, hbit⟩
    rw [loadWritePC_next.2 ⟨hbit, rfl⟩]
    refine ⟨_, rfl, hpopped (hpops.branchWritePC _ _), ?_, ?_⟩
    · rw [State.advanceIT_pc]
      rfl
    · rw [State.advanceIT_itstate, State.branchWritePC_itstate, htransfers.itstate]
      rfl
  · rw [loadWritePC_leaves (v := popTarget s list) (harch ▸ h5) hbit]
    exact ⟨_, rfl, hpopped hpops, htransfers.pc, htransfers.itstate⟩

/-! ## POP after PUSH (R241) -/

/-- A word of `Normal` memory is read back as it was stored, whatever has been drawn. -/
theorem HoldsWords.readValue {s t : State} {base : Word} {vs : List Word} (h : HoldsWords s base vs t) (hcontrol : SameControl s t)
    {j : Nat} (hj : j < vs.length) (hnormal : NormalBytes s (base + words j) 4) (d : Nat) :
    readValue t d .word (base + words j) = vs[j] := by
  obtain ⟨hwords, -, -⟩ := h
  have hbytes : ∀ i < Width.word.bytes, byteRead t d (byteAddr (base + words j) i) = storedByte s .word vs[j] i := by
    intro i hi
    rw [byteRead_normal (by rw [hcontrol.params]; exact hnormal i hi), hwords j hj i hi (by simp [hnormal i hi])]
  rw [readValue_eq_joinBytes, joinBytes_congr hbytes, hcontrol.endian, joinBytes_storedByte]
  rfl

/-- POP gives each register the value that PUSH found in it: a listed one from memory, SP by adding what was taken off. -/
theorem sameRegs_of_push_pop {s t u : State} {list : BitVec 8} (hsp : t.x SP = s.x SP - words (bitCount list))
    (hpush : SameRegs s t [SP]) (hpop : Pops t list (bitCount list) u)
    (hread : ∀ (j : Nat) (h : j < (listed list).length) (d : Nat),
      readValue t d .word (t.x SP + words j) = s.x (lo (listed list)[j])) : SameRegs s u [] := by
  intro q hq _
  by_cases hqsp : q = SP
  · rw [hqsp, hpop.sp, hsp, BitVec.sub_add_cancel]
  by_cases hlisted : q ∈ (listed list).map lo
  · obtain ⟨r, hr, rfl⟩ := List.mem_map.1 hlisted
    obtain ⟨j, hj, rfl⟩ := List.getElem_of_mem hr
    rw [hpop.loaded j hj, hread j hj]
  · rw [hpop.regs q hq (List.not_mem_cons_of_ne_of_not_mem hqsp hlisted), hpush q hq (by simpa using hqsp)]

/-- Settles O49: the PUSH leaves SP at the lowest of the words it stored, and the POP reads them back from there. -/
theorem popInvertsPush : Obligations.PopInvertsPush := by
  intro s t list hpassed hn htpassed htpc hkind
  obtain ⟨hruns, hlist, halign, hstorable⟩ := push_checked hpassed hn
  obtain ⟨t', ht', hholds, hsp, hregs, hflags, hcontrol, -, -⟩ := exec_push_stores hruns hlist halign hstorable
  obtain rfl : t = t' := Host.Outcome.next.inj (hn.symm.trans ht')
  have hnormal : ∀ j < bitCount list, NormalBytes s (t.x SP + words j) 4 := by
    rw [hsp]
    exact hkind
  have hreadable : ∀ j < bitCount list, Readable t (t.x SP + words j) 4 := fun j hj i hi => by
    rw [hcontrol.params]
    exact (hnormal j hj).readable i hi
  rw [← hsp] at halign hholds
  have hpop := (popRegs_pops t list).finished
  refine ⟨_, exec_pop ⟨htpassed, htpc⟩ (hlist.resolve_left Bool.false_ne_true) halign hreadable,
    sameRegs_of_push_pop hsp hregs hpop fun j hj d => ?_, hpop.mem, hpop.flags.trans hflags⟩
  have hlen : j < (pushValues false list s).length := by
    rw [length_pushValues]
    exact hj
  rw [hholds.readValue hcontrol hlen (hnormal j hj)]
  simp [pushValues, State.listedValues]

end Sys2Proof.Machine
end

section
/-! Proofs of the statements of 47_if_then_branch.md: the conditions, IT and its block, and the branches. -/

namespace Sys2Proof.Machine

/-! ## Conditions (R252) -/

@[simp] theorem conditionHolds_EQ (f : Flags) : conditionHolds 0#4 f = f.z := rfl
@[simp] theorem conditionHolds_NE (f : Flags) : conditionHolds 1#4 f = (!f.z) := rfl
@[simp] theorem conditionHolds_CS (f : Flags) : conditionHolds 2#4 f = f.c := rfl
@[simp] theorem conditionHolds_CC (f : Flags) : conditionHolds 3#4 f = (!f.c) := rfl
@[simp] theorem conditionHolds_MI (f : Flags) : conditionHolds 4#4 f = f.n := rfl
@[simp] theorem conditionHolds_PL (f : Flags) : conditionHolds 5#4 f = (!f.n) := rfl
@[simp] theorem conditionHolds_VS (f : Flags) : conditionHolds 6#4 f = f.v := rfl
@[simp] theorem conditionHolds_VC (f : Flags) : conditionHolds 7#4 f = (!f.v) := rfl
@[simp] theorem conditionHolds_HI (f : Flags) : conditionHolds 8#4 f = (f.c && !f.z) := rfl
@[simp] theorem conditionHolds_LS (f : Flags) : conditionHolds 9#4 f = (!(f.c && !f.z)) := rfl
@[simp] theorem conditionHolds_GE (f : Flags) : conditionHolds 10#4 f = (f.n == f.v) := rfl
@[simp] theorem conditionHolds_LT (f : Flags) : conditionHolds 11#4 f = (!(f.n == f.v)) := rfl
@[simp] theorem conditionHolds_GT (f : Flags) : conditionHolds 12#4 f = (f.n == f.v && !f.z) := rfl
@[simp] theorem conditionHolds_LE (f : Flags) : conditionHolds 13#4 f = (!(f.n == f.v && !f.z)) := rfl
@[simp] theorem conditionHolds_AL (f : Flags) : conditionHolds 14#4 f = true := rfl

/-- The condition 1111 is always true, and not the opposite of 1110. -/
@[simp] theorem conditionHolds_15 (f : Flags) : conditionHolds 15#4 f = true := rfl

theorem Flags.ofSum_z_iff (r : Sum) : (Flags.ofSum r).z = true ↔ r.result = 0#32 := beq_iff_eq

/-- After a comparison Z says that the values are equal. -/
theorem compare_z_iff (x y : Word) : (Flags.ofSum (subWithCarry x y true)).z = true ↔ x = y := by
  rw [Flags.ofSum_z_iff, subWithCarry_result, if_pos rfl, BitVec.sub_zero]
  exact sub_eq_zero

/-- After a comparison C says that there was no borrow. -/
theorem compare_c_iff (x y : Word) : (Flags.ofSum (subWithCarry x y true)).c = true ↔ y.toNat ≤ x.toNat :=
  subWithCarry_carry_iff x y

/-- After a comparison V says that the difference of the signed values is out of range. -/
theorem compare_v_iff (x y : Word) :
    (Flags.ofSum (subWithCarry x y true)).v = true ↔ (x - y).toInt ≠ x.toInt - y.toInt := by
  have hresult : (addWithCarry x (~~~y) true).result = x - y := by
    simpa [subWithCarry] using subWithCarry_result x y true
  have hnot : (~~~y).toInt = -y.toInt - 1 := by
    rw [BitVec.toInt_not, BitVec.toInt_eq_toNat_bmod]
    have := y.isLt
    simp only [Int.bmod_def]
    omega
  have hv : (addWithCarry x (~~~y) true).overflow =
      decide ((addWithCarry x (~~~y) true).result.toInt ≠ x.toInt + (~~~y).toInt + 1) := rfl
  change (addWithCarry x (~~~y) true).overflow = true ↔ _
  rw [hv, hresult, hnot, decide_eq_true_iff]
  omega

/-- After a comparison N differs from V exactly where the signed value is less: the wrapped difference has the wrong sign exactly where it
is out of range. -/
theorem compare_n_eq_v_iff (x y : Word) :
    (Flags.ofSum (subWithCarry x y true)).n = (Flags.ofSum (subWithCarry x y true)).v ↔ y.toInt ≤ x.toInt := by
  have hn : (Flags.ofSum (subWithCarry x y true)).n = true ↔ (x - y).toInt < 0 := by
    change (subWithCarry x y true).result.msb = true ↔ _
    rw [subWithCarry_result, if_pos rfl, BitVec.sub_zero, BitVec.msb_eq_toInt, decide_eq_true_iff]
  have hx := BitVec.toInt_lt (x := x)
  have hx' := BitVec.le_toInt (x := x)
  have hy := BitVec.toInt_lt (x := y)
  have hy' := BitVec.le_toInt (x := y)
  have hsub : (x - y).toInt = (x.toInt - y.toInt).bmod (2 ^ 32) := BitVec.toInt_sub
  rw [Int.bmod_def] at hsub
  rw [Bool.eq_iff_iff, hn, compare_v_iff]
  omega

/-- Settles O22: after a comparison Z is equality, C is unsigned and N = V is signed greater-or-equal; the other readings follow. -/
theorem conditionTable : Obligations.ConditionTable := by
  refine ⟨fun f => by simp [and_comm, or_comm], fun x y => ?_⟩
  intro f
  have hz : f.z = true ↔ x = y := compare_z_iff x y
  have hc : f.c = true ↔ y.toNat ≤ x.toNat := compare_c_iff x y
  have hnv : f.n = f.v ↔ y.toInt ≤ x.toInt := compare_n_eq_v_iff x y
  have hnat : x = y ↔ x.toNat = y.toNat := BitVec.toNat_inj.symm
  have hint : x = y ↔ x.toInt = y.toInt := BitVec.toInt_inj.symm
  simp only [conditionHolds_EQ, conditionHolds_NE, conditionHolds_CS, conditionHolds_CC, conditionHolds_HI, conditionHolds_LS,
    conditionHolds_GE, conditionHolds_LT, conditionHolds_GT, conditionHolds_LE, Bool.and_eq_true, Bool.not_eq_true',
    ← Bool.not_eq_true, beq_iff_eq, hz, hc, hnv, ne_eq, true_and]
  refine ⟨Nat.not_le, ?_, ?_, Int.not_le, ?_, ?_⟩
  · rw [hnat]; omega
  · rw [hnat]; omega
  · rw [hint]; omega
  · rw [hint]; omega

/-! ## The IT block (R250, R251, R93) -/

/-- One advance of a block: bit 3 of the mask becomes bit 0 of the condition, and the mask moves up (R251). -/
theorem itAdvance_append : ∀ cond mask : BitVec 4, itAdvance (cond ++ mask) =
    if mask.toNat % 8 = 0 then 0#8 else (cond.extractLsb' 1 3 ++ mask.extractLsb' 3 1) ++ (mask <<< 1) := by decide

theorem itAdvance_zero : itAdvance 0#8 = 0#8 := by decide

theorem inBlock_append : ∀ cond mask : BitVec 4, inBlock (cond ++ mask) = (mask != 0#4) := by decide

theorem blockCond_append : ∀ cond mask : BitVec 4, blockCond (cond ++ mask) = cond := by decide

/-- The condition of instruction `k` of the block that IT begins with `firstcond` and `mask` (R93). -/
def itCond (firstcond mask : BitVec 4) (k : Nat) : BitVec 4 :=
  firstcond.extractLsb' 1 3 ++ (if k = 0 then firstcond.extractLsb' 0 1 else mask.extractLsb' (4 - k) 1)

/-- The mask moved up by `k` is empty where no bit of it lies below the `k` bits used. -/
theorem shiftLeft_eq_zero_iff (mask : BitVec 4) {k : Nat} (hk : k ≤ 4) : mask <<< k = 0#4 ↔ mask.toNat % 2 ^ (4 - k) = 0 := by
  rw [← BitVec.toNat_inj, BitVec.toNat_shiftLeft, Nat.shiftLeft_eq]
  interval_cases k <;> simp <;> omega

/-- The advance ends the block where the bit it uses is the last of the mask. -/
theorem shiftLeft_mod_eight (mask : BitVec 4) {k : Nat} (hk : k < 4) :
    (mask <<< k).toNat % 8 = 0 ↔ mask.toNat % 2 ^ (4 - (k + 1)) = 0 := by
  rw [BitVec.toNat_shiftLeft, Nat.shiftLeft_eq]
  interval_cases k <;> simp <;> omega

theorem itCond_zero (firstcond mask : BitVec 4) : itCond firstcond mask 0 = firstcond := by
  have hjoin : ∀ c : BitVec 4, c.extractLsb' 1 3 ++ c.extractLsb' 0 1 = c := by decide
  rw [itCond, if_pos rfl]
  exact hjoin firstcond

/-- The advance keeps bits 3 to 1 of the condition, and bit 0 comes from the mask, from the highest bit down. -/
theorem itCond_succ (firstcond mask : BitVec 4) {k : Nat} (hk : k < 4) :
    (itCond firstcond mask k).extractLsb' 1 3 ++ (mask <<< k).extractLsb' 3 1 = itCond firstcond mask (k + 1) := by
  have hhigh : ∀ (high : BitVec 3) (low : BitVec 1), (high ++ low).extractLsb' 1 3 = high := by decide
  have hbit : (mask <<< k).extractLsb' 3 1 = mask.extractLsb' (4 - (k + 1)) 1 := by
    revert mask
    interval_cases k <;> decide
  rw [itCond, hhigh, hbit]
  rfl

/-- ITSTATE after `k` instructions of the block that IT begins with `firstcond` and `mask`. -/
theorem iterate_itAdvance (firstcond : BitVec 4) {mask : BitVec 4} (hmask : mask ≠ 0#4) {k : Nat} (hk : k ≤ 4) :
    itAdvance^[k] (firstcond ++ mask) =
      if mask.toNat % 2 ^ (4 - k) = 0 then 0#8 else itCond firstcond mask k ++ (mask <<< k) := by
  induction k with
  | zero =>
    have hne : mask.toNat % 2 ^ 4 ≠ 0 := by
      rwa [ne_eq, ← shiftLeft_eq_zero_iff mask (Nat.zero_le 4), BitVec.shiftLeft_zero]
    rw [if_neg hne, itCond_zero, BitVec.shiftLeft_zero]
    rfl
  | succ k ih =>
    rw [Function.iterate_succ_apply', ih (by omega)]
    by_cases hend : mask.toNat % 2 ^ (4 - k) = 0
    · have hdvd : 2 ^ (4 - (k + 1)) ∣ mask.toNat :=
        (Nat.pow_dvd_pow 2 (by omega)).trans (Nat.dvd_of_mod_eq_zero hend)
      rw [if_pos hend, if_pos (Nat.mod_eq_zero_of_dvd hdvd), itAdvance_zero]
    · rw [if_neg hend, itAdvance_append, itCond_succ firstcond mask hk, ← BitVec.shiftLeft_add]
      simp only [shiftLeft_mod_eight mask hk]

/-- Settles O24: by `iterate_itAdvance`, what is left of the mask after `k` instructions is in bits 3 to 0, and the condition in bits 7
to 4. -/
theorem itBlockConditions : Obligations.ItBlockConditions := by
  intro firstcond mask k hmask hk it
  have hit : it = if mask.toNat % 2 ^ (4 - k) = 0 then 0#8 else itCond firstcond mask k ++ (mask <<< k) :=
    iterate_itAdvance firstcond hmask hk
  have hblock : inBlock it = true ↔ mask.toNat % 2 ^ (4 - k) ≠ 0 := by
    rw [hit]
    split
    · next hend => simp [hend, inBlock]
    · simp [inBlock_append, shiftLeft_eq_zero_iff mask hk]
  refine ⟨hblock, fun hin => ?_, fun hout => ?_⟩
  · rw [hit, if_neg (hblock.1 hin), blockCond_append]
    rfl
  · rw [hit, if_pos]
    by_contra hne
    rw [hblock.2 hne] at hout
    cases hout

/-! ## IT (R250) -/

theorem State.passed_of_not_inIT {s : State} (h : s.inIT = false) : s.passed = true := by simp [State.passed, h]

/-- The checks of IT pass outside a block, for a condition that is not 1111 and is AL without an Else only (U5, U25, U26). -/
theorem itChecks_none {s : State} {firstcond mask : BitVec 4} (hit : s.inIT = false) (hcond : firstcond ≠ 15#4)
    (hal : firstcond = 14#4 → mask = 1#4 ∨ mask = 2#4 ∨ mask = 4#4 ∨ mask = 8#4) : itChecks firstcond mask s = none := by
  have helse : (firstcond == 14#4 && mask.toNat != 1 && mask.toNat != 2 && mask.toNat != 4 && mask.toNat != 8) = false := by
    by_cases h14 : firstcond = 14#4
    · obtain rfl | rfl | rfl | rfl := hal h14 <;> simp
    · simp [h14]
  rw [itChecks, check_or_none hit, check_or_none (by simpa using hcond), check_none.2 helse]

/-- Settles O50: the checks of IT pass, and outside a block there is no block to advance. -/
theorem ifThenStarts : Obligations.IfThenStarts := by
  intro s firstcond mask hit hpc hcond hal
  rw [exec, execIt, itChecks_none hit hcond hal, sequential_runs ⟨State.passed_of_not_inIT hit, hpc⟩]
  refine ⟨_, rfl, ?_, finished_pc _ _, ?_, fun r hr _ => finished_x s _ hr, fun a => finished_byteAt s _ a, finished_control ?_, ?_⟩
  · rw [finished_itstate, hit]
    rfl
  · simp
  · constructor <;> rfl
  · exact ⟨by simp, by simp⟩

/-! ## The offsets of branches (R89, R90) -/

/-- A field with `k` zero bits below it, sign-extended, is an offset that counts units of `2 ^ k` bytes. -/
theorem signExtend_append_zero {n : Nat} (field : BitVec n) (k m : Nat) :
    (field ++ 0#k).signExtend m = BitVec.ofInt m (2 ^ k * field.toInt) := by
  rw [BitVec.signExtend, BitVec.toInt_append]
  split
  · next h =>
    obtain rfl : n = 0 := by simpa using h
    simp [BitVec.eq_nil field]
  · simp

theorem offBCond_eq (imm8 : BitVec 8) : offBCond imm8 = BitVec.ofInt 32 (2 * imm8.toInt) := signExtend_append_zero imm8 1 32

theorem offB_eq (imm11 : BitVec 11) : offB imm11 = BitVec.ofInt 32 (2 * imm11.toInt) := signExtend_append_zero imm11 1 32

theorem offBl_eq (offset : BitVec 24) : offBl offset = BitVec.ofInt 32 (2 * offset.toInt) := signExtend_append_zero offset 1 32

theorem offBlx_eq (offset : BitVec 23) : offBlx offset = BitVec.ofInt 32 (4 * offset.toInt) := signExtend_append_zero offset 2 32

theorem offCb_eq (imm6 : BitVec 6) : offCb imm6 = BitVec.ofInt 32 (2 * (imm6.toNat : Int)) := by
  have hunits : (imm6 ++ 0#1 : BitVec 7).toNat = 2 * imm6.toNat := by
    rw [BitVec.toNat_append, Nat.shiftLeft_eq]
    simp [Nat.mul_comm]
  rw [offCb, BitVec.zeroExtend_eq_setWidth, ← BitVec.ofNat_toNat, hunits, ← BitVec.ofInt_natCast]
  rfl

/-! ## Branches that may not be taken (R255, R256, R257) -/

/-- Where the effect of a 16-bit branch is to advance, the branch has no effect of its own. -/
theorem branching_of_seqAdvance {s : State} {act : State → Result} (h : Runs 2 s) (ha : act s = s.seqAdvance 2) :
    branching 2 none act s = sequential none (fun s => .next s) s := by
  obtain ⟨hpassed, hpc⟩ := h
  rw [branching_runs hpassed, ha, seqAdvance_next.2 ⟨hpc, rfl⟩, sequential_runs ⟨hpassed, hpc⟩]
  rfl

/-- The shape of a 16-bit conditional branch. -/
theorem branchIf_branches {s : State} (h : s.passed = true) (c : State → Prop) [DecidablePred c] (v : State → Word) :
    let o := branching 2 none (fun s => if c s then .next (s.branchWritePC (v s)) else s.seqAdvance 2) s
    (c s → BranchesTo s (v s &&& 0xFFFFFFFE#32) none o) ∧ (¬c s → s.pc.toNat + 2 < 2 ^ 32 → WritesFlags s s.flags o) := by
  refine ⟨fun hc => ?_, fun hc hpc => ?_⟩
  · exact branchesTo_branching h (if_pos hc) (Transfers.refl s) rfl ⟨rfl, rfl⟩ fun _ _ _ => rfl
  · rw [branching_of_seqAdvance ⟨h, hpc⟩ (if_neg hc)]
    exact nothing_writes ⟨h, hpc⟩

/-- Settles O51: outside a block the conditional branches are performed, and go to their target or advance; B is a branch. -/
theorem directBranches : Obligations.DirectBranches := by
  intro s rn cond imm6 imm8 imm11 advances goes
  simp only [goes]
  rw [← offBCond_eq, ← offB_eq, ← offCb_eq]
  refine ⟨fun hit => ?_, fun hpassed hlast => ?_⟩
  · have hpassed := State.passed_of_not_inIT hit
    have hbCond := branchIf_branches hpassed (fun s => conditionHolds cond s.flags = true) fun s => s.pc + 4#32 + offBCond imm8
    have hcbz := branchIf_branches hpassed (fun s => s.x (lo rn) = 0#32) fun s => s.pc + 4#32 + offCb imm6
    have hcbnz := branchIf_branches hpassed (fun s => s.x (lo rn) ≠ 0#32) fun s => s.pc + 4#32 + offCb imm6
    rw [exec, exec, exec, execBCond, execCbz, execCbnz, check_none.2 hit, check_none.2 hit, check_none.2 hit]
    obtain ⟨htaken, hnot⟩ := hbCond
    obtain ⟨hzTaken, hzNot⟩ := hcbz
    obtain ⟨hnzTaken, hnzNot⟩ := hcbnz
    exact ⟨htaken, fun h => hnot (by simp [h]), fun h => ⟨hzTaken h, hnzNot (not_not.2 h)⟩, fun h => ⟨hnzTaken h, hzNot h⟩⟩
  · rw [exec, execB, check_none.2 (State.midIT_eq_false hlast)]
    exact branchWritePC_branches hpassed 2 _

/-! ## BL, BX and BLX (R259 to R262) -/

theorem setX_LR_links (s : State) (v : Word) : Links s (s.setX LR v) (some v) :=
  ⟨State.x_setX_same s v (by decide), fun _ _ hr => State.x_setX_other s v (by simpa using hr)⟩

theorem State.setX_noDevice (s : State) (r : Reg) (v : Word) : NoDevice s (s.setX r v) := ⟨by simp, by simp⟩

/-- An instruction whose effect is to link and to leave Thumb state ends as `ExchangesTo` says. -/
theorem exchangesTo_branching {s r : State} {len : Nat} {act : State → Result} {v : Word} {link : Option Word}
    (h : s.passed = true) (ha : act s = leaveThumb v r) (hr : Transfers s r) (hmem : r.mem = s.mem) (hdevice : NoDevice s r)
    (hlink : Links s r link) : ExchangesTo s v link (branching len none act s) := by
  refine ⟨r, by rw [branching_runs h, ha, andThen_leaveThumb]; rfl, hlink, hr.pc, hr.itstate, hr.flags, fun a => ?_, hr.control,
    hdevice⟩
  rw [State.byteAt, hmem]
  rfl

/-- An instruction whose effect is to link and to write the PC by `BXWritePC` goes on in the state that bit 0 of the target says (R26). -/
theorem bxWritePC_exchanges {s r : State} {len : Nat} {act : State → Result} {v : Word} {link : Option Word}
    (h : s.passed = true) (ha : act s = r.bxWritePC v) (hr : Transfers s r) (hmem : r.mem = s.mem) (hdevice : NoDevice s r)
    (hlink : Links s r link) :
    if v.getLsbD 0 = true then BranchesTo s (v &&& 0xFFFFFFFE#32) link (branching len none act s)
    else ExchangesTo s v link (branching len none act s) := by
  split
  · next hbit => exact branchesTo_branching h (ha.trans (bxWritePC_next.2 ⟨hbit, rfl⟩)) hr hmem hdevice hlink
  · next hbit =>
    exact exchangesTo_branching h (ha.trans (bxWritePC_leaves (Bool.eq_false_of_not_eq_true hbit))) hr hmem hdevice hlink

theorem bxChecks_none {rm : Reg} {s : State} (hlast : s.inIT = true → s.lastInIT = true)
    (haligned : rm = PC → s.pc.getLsbD 1 = false) : bxChecks rm s = none := by
  rw [bxChecks, check_or_none (State.midIT_eq_false hlast), check_none]
  simpa using haligned

theorem blxChecks_none {rm : Reg} {s : State} (hlast : s.inIT = true → s.lastInIT = true) (hrm : rm ≠ PC) :
    blxChecks rm s = none := by
  rw [blxChecks, check_or_none (by simpa using hrm), check_none.2 (State.midIT_eq_false hlast)]

/-- BL, where it is performed (R259). -/
theorem exec_bl_branches {s : State} (hpassed : s.passed = true) (hlast : s.inIT = true → s.lastInIT = true) (offset : BitVec 24) :
    BranchesTo s ((s.pc + 4#32 + BitVec.ofInt 32 (2 * offset.toInt)) &&& 0xFFFFFFFE#32) (some ((s.pc + 4#32) ||| 1#32))
      (exec (.bl offset) s) := by
  rw [exec, execBl, check_none.2 (State.midIT_eq_false hlast), ← offBl_eq]
  exact branchesTo_branching hpassed rfl ((Transfers.refl s).setX LR _) (State.setX_mem s LR _) (State.setX_noDevice s LR _)
    (setX_LR_links s _)

/-- BX, where it is performed (R260). -/
theorem exec_bx_exchanges {s : State} {rm : Reg} (hpassed : s.passed = true) (hlast : s.inIT = true → s.lastInIT = true)
    (haligned : rm = PC → s.pc.getLsbD 1 = false) :
    if (s.x rm).getLsbD 0 = true then BranchesTo s (s.x rm &&& 0xFFFFFFFE#32) none (exec (.bx rm) s)
    else ExchangesTo s (s.x rm) none (exec (.bx rm) s) := by
  rw [exec, execBx, bxChecks_none hlast haligned]
  exact bxWritePC_exchanges hpassed rfl (Transfers.refl s) rfl ⟨rfl, rfl⟩ fun _ _ _ => rfl

/-- Settles O52: the four instructions link first, and then branch or write the PC by `BXWritePC`; BLX `<label>` always leaves. -/
theorem linkAndExchangeBranches : Obligations.LinkAndExchangeBranches := by
  intro s rm offset offsetX hpassed hlast target exchange
  have htarget : target = s.x rm := (s.x_eq_ite rm).symm
  refine ⟨exec_bl_branches hpassed hlast offset, fun haligned => ?_, fun hrm => ?_, ?_⟩
  · simp only [exchange, htarget]
    exact exec_bx_exchanges hpassed hlast haligned
  · simp only [exchange, htarget]
    rw [exec, execBlxReg, blxChecks_none hlast hrm]
    exact bxWritePC_exchanges hpassed rfl ((Transfers.refl s).setX LR _) (State.setX_mem s LR _) (State.setX_noDevice s LR _)
      (setX_LR_links s _)
  · rw [exec, execBlxLabel, check_none.2 (State.midIT_eq_false hlast), ← offBlx_eq]
    exact exchangesTo_branching hpassed rfl ((Transfers.refl s).setX LR _) (State.setX_mem s LR _) (State.setX_noDevice s LR _)
      (setX_LR_links s _)

/-- Setting and then clearing bit 0 of an even address gives it back. -/
theorem clear_set_bit0 {v : Word} (h : v.getLsbD 0 = false) : (v ||| 1#32) &&& 0xFFFFFFFE#32 = v := by
  have hmask : 0xFFFFFFFE#32 = ~~~1#32 := rfl
  refine BitVec.eq_of_getLsbD_eq fun i hi => ?_
  simp only [hmask, BitVec.getLsbD_and, BitVec.getLsbD_or, BitVec.getLsbD_not, BitVec.getLsbD_one, hi]
  by_cases h0 : i = 0
  · rw [h0, h]
    rfl
  · simp [h0]

/-- Settles O53: BL sets bit 0 of LR, so that BX stays in Thumb state, and BX clears it again. -/
theorem returnFromCall : Obligations.ReturnFromCall := by
  intro s t offset heven hit hn
  have hlast : s.inIT = true → s.lastInIT = true := by simp [hit]
  obtain ⟨t', ht', -, hitstate, ⟨hlr, hregs⟩, hflags, hmem, hcontrol, -⟩ :=
    exec_bl_branches (State.passed_of_not_inIT hit) hlast offset
  obtain rfl : t = t' := Host.Outcome.next.inj (hn.symm.trans ht')
  have htit : t.inIT = false := by
    rw [State.inIT, hitstate, hit]
    exact hit
  have hbx := exec_bx_exchanges (rm := LR) (State.passed_of_not_inIT htit) (by simp [htit]) (absurd · (by decide))
  rw [hlr, if_pos (by simp)] at hbx
  obtain ⟨u, hu, hpc, -, hlinks, huflags, humem, hucontrol, -⟩ := hbx
  refine ⟨u, hu, ?_, hucontrol.thumb.trans hcontrol.thumb, fun r hr hnot => ?_, huflags.trans hflags, fun a => ?_⟩
  · rw [hpc, clear_set_bit0]
    rw [BitVec.getLsbD_add (by decide), heven]
    simp
  · rw [hlinks r hr (by simp), hregs r hr hnot]
  · rw [humem a, hmem a]

/-! ## What must not stand in an IT block (R254) -/

theorem State.midIT_eq_true {s : State} (hit : s.inIT = true) (hlast : s.lastInIT = false) : s.midIT = true := by
  simp [State.midIT, hit, hlast]

/-- Settles O54: each of these instructions has a decode-time check that fails in a block, or before its last place; BKPT has none. -/
theorem itBlockRestrictions : Obligations.ItBlockRestrictions := by
  intro s rn rd rm hm c mask imm6 imm8 imm11 far farX a i f e hit no
  refine ⟨exec_of_decodeChecks rfl ?_, exec_of_decodeChecks rfl (check_some hit _), exec_of_decodeChecks rfl (check_some hit _),
    exec_of_decodeChecks rfl (check_or_some hit _), exec_of_decodeChecks rfl (check_or_some hit _),
    exec_of_decodeChecks rfl (check_some hit _), exec_of_decodeChecks rfl (check_some hit _),
    exec_of_decodeChecks rfl (check_some hit _), rfl, fun hlast => ?_⟩
  · rw [decodeChecks, itChecks, check_or_some hit, Option.some_or]
  · have hmid := State.midIT_eq_true hit hlast
    refine ⟨exec_of_decodeChecks rfl (check_some hmid _), exec_of_decodeChecks rfl (check_some hmid _),
      exec_of_decodeChecks rfl (check_some hmid _), exec_of_decodeChecks rfl (check_or_some hmid _), exec_of_decodeChecks rfl ?_,
      exec_of_decodeChecks rfl ?_, fun hPC => ⟨exec_of_decodeChecks rfl ?_, exec_of_decodeChecks rfl ?_⟩⟩
    · rw [decodeChecks, movChecks, check_or_none (by simp [PC]), check_some (by simp [hmid])]
    · rw [decodeChecks, popChecks, check_or_none (by simp), check_some (by simp [hmid])]
    · rw [decodeChecks, blxChecks, check_or_none (by simpa using hPC), check_some hmid]
    · rw [decodeChecks, addChecks, check_or_none (by simp [PC]), check_or_none (by simpa using hPC), check_some (by simp [hmid])]

end Sys2Proof.Machine
end

section
/-! Proofs of the statements of 48_extend_reverse.md: the extends and the byte reversals. -/

namespace Sys2Proof.Machine

/-! ## Bits of the extended values (R280 to R283) -/

/-- Above the field every bit is its sign. -/
theorem sext16_getLsbD (v : Word) {k : Nat} (hk : k < 32) : (sext16 v).getLsbD k = v.getLsbD (min k 15) := by
  rw [sext16, BitVec.getLsbD_signExtend]
  by_cases h : k < 16
  · have hmin : min k 15 = k := by omega
    simp [hk, h, hmin]
  · have hmin : min k 15 = 15 := by omega
    simp [hk, h, hmin, BitVec.msb_eq_getLsbD_last]

theorem sext8_getLsbD (v : Word) {k : Nat} (hk : k < 32) : (sext8 v).getLsbD k = v.getLsbD (min k 7) := by
  rw [sext8, BitVec.getLsbD_signExtend]
  by_cases h : k < 8
  · have hmin : min k 7 = k := by omega
    simp [hk, h, hmin]
  · have hmin : min k 7 = 7 := by omega
    simp [hk, h, hmin, BitVec.msb_eq_getLsbD_last]

theorem zext16_getLsbD (v : Word) {k : Nat} (hk : k < 32) : (zext16 v).getLsbD k = (decide (k < 16) && v.getLsbD k) := by
  simp [zext16, hk]

theorem zext8_getLsbD (v : Word) {k : Nat} (hk : k < 32) : (zext8 v).getLsbD k = (decide (k < 8) && v.getLsbD k) := by
  simp [zext8, hk]

/-! ## Bits of the reversed values (R284 to R286) -/

theorem byteOf_getLsbD (v : Word) (i k : Nat) : (byteOf v i).getLsbD (k % 8) = v.getLsbD (8 * i + k % 8) := by
  have hk : k % 8 < 8 := Nat.mod_lt k (by decide)
  simp [byteOf, hk]

/-- Bit `k` of two bytes put together is bit `k % 8` of byte `k / 8`. -/
theorem append_two_bytes_getLsbD (b : Nat → Byte) {k : Nat} (hk : k < 16) :
    (b 1 ++ b 0 : BitVec 16).getLsbD k = (b (k / 8)).getLsbD (k % 8) := by
  rw [BitVec.getLsbD_append]
  by_cases h0 : k < 8
  · rw [if_pos h0, Nat.div_eq_of_lt h0, Nat.mod_eq_of_lt h0]
  · have hdiv : k / 8 = 1 := by omega
    have hmod : k % 8 = k - 8 := by omega
    rw [if_neg h0, hdiv, hmod]

/-- Bit `k` of four bytes put together is bit `k % 8` of byte `k / 8`. -/
theorem append_four_bytes_getLsbD (b : Nat → Byte) {k : Nat} (hk : k < 32) :
    (b 3 ++ b 2 ++ b 1 ++ b 0 : BitVec 32).getLsbD k = (b (k / 8)).getLsbD (k % 8) := by
  rw [BitVec.getLsbD_append, BitVec.getLsbD_append]
  by_cases h0 : k < 8
  · rw [if_pos h0, Nat.div_eq_of_lt h0, Nat.mod_eq_of_lt h0]
  by_cases h1 : k < 16
  · have hdiv : k / 8 = 1 := by omega
    have hmod : k % 8 = k - 8 := by omega
    rw [if_neg h0, if_pos (by omega), hdiv, hmod]
  · have hdiv : k / 8 = (k - 8 - 8) / 8 + 2 := by omega
    have hmod : k % 8 = (k - 8 - 8) % 8 := by omega
    rw [if_neg h0, if_neg (by omega), hdiv, hmod]
    exact append_two_bytes_getLsbD (fun i => b (i + 2)) (by omega)

/-- Byte `i` of the result is byte `3 - i` of the value. -/
theorem reverseWord_getLsbD (v : Word) {k : Nat} (hk : k < 32) :
    (reverseWord v).getLsbD k = v.getLsbD (8 * (3 - k / 8) + k % 8) := by
  rw [← byteOf_getLsbD, reverseWord]
  simpa only [Nat.reduceSub] using append_four_bytes_getLsbD (fun i => byteOf v (3 - i)) hk

/-- Byte `i` of the result is the other byte of the halfword of byte `i`. -/
theorem reverseHalves_getLsbD (v : Word) {k : Nat} (hk : k < 32) :
    (reverseHalves v).getLsbD k = v.getLsbD (16 * (k / 16) + 8 * (1 - k % 16 / 8) + k % 8) := by
  have hbyte : 16 * (k / 16) + 8 * (1 - k % 16 / 8) = 8 * (2 * (k / 8 / 2) + (1 - k / 8 % 2)) := by omega
  rw [hbyte, ← byteOf_getLsbD, reverseHalves]
  simpa only [Nat.reduceDiv, Nat.reduceMod, Nat.reduceMul, Nat.reduceSub, Nat.reduceAdd] using
    append_four_bytes_getLsbD (fun i => byteOf v (2 * (i / 2) + (1 - i % 2))) hk

/-- The low halfword is reversed, and above it every bit is its sign, bit 7 of the value. -/
theorem reverseSigned_getLsbD (v : Word) {k : Nat} (hk : k < 32) :
    (reverseSigned v).getLsbD k = if k < 16 then v.getLsbD (8 * (1 - k / 8) + k % 8) else v.getLsbD 7 := by
  have hhalf {j : Nat} (hj : j < 16) :
      (byteOf v 0 ++ byteOf v 1 : BitVec 16).getLsbD j = v.getLsbD (8 * (1 - j / 8) + j % 8) := by
    rw [← byteOf_getLsbD]
    simpa only [Nat.reduceSub] using append_two_bytes_getLsbD (fun i => byteOf v (1 - i)) hj
  rw [reverseSigned, BitVec.getLsbD_signExtend, decide_eq_true hk, Bool.true_and]
  split
  · next h => exact hhalf h
  · rw [BitVec.msb_eq_getLsbD_last, hhalf (by omega)]

/-! ## The instructions -/

/-- Settles O38: each instruction writes one register and no flag. -/
theorem extendAndReverseResults : Obligations.ExtendAndReverseResults := by
  intro s rd rm h m result
  have hwrites (v : State → Word) :
      WritesRegister s (lo rd) (v s) s.flags (sequential none (fun s => .next (s.setX (lo rd) (v s))) s) :=
    setX_writes h (lo_lt rd) v
  simp only [exec]
  exact ⟨⟨_, fun _ => sext16_getLsbD m, hwrites _⟩, ⟨_, fun _ => sext8_getLsbD m, hwrites _⟩,
    ⟨_, fun _ => zext16_getLsbD m, hwrites _⟩, ⟨_, fun _ => zext8_getLsbD m, hwrites _⟩,
    ⟨_, fun _ => reverseWord_getLsbD m, hwrites _⟩, ⟨_, fun _ => reverseHalves_getLsbD m, hwrites _⟩,
    ⟨_, fun _ => reverseSigned_getLsbD m, hwrites _⟩⟩

end Sys2Proof.Machine
end

section
/-! Proofs of the statements of 49_processor_state_nop_hint.md: SVC, CPS, SETEND, BKPT, the hints and UDF. -/

namespace Sys2Proof.Machine

/-! ## Effects on the control state alone (R291 to R293, R296, R297) -/

/-- Registers, memory, flags, ITSTATE and the device accesses are as before. -/
structure SameData (s u : State) : Prop where
  regs : u.regs = s.regs
  mem : u.mem = s.mem
  flags : u.flags = s.flags
  itstate : u.itstate = s.itstate
  device : NoDevice s u

/-- What an instruction that completes after such an effect has left alone. -/
theorem SameData.finished {s u : State} (h : SameData s u) :
    SameRegs s (finished s u) [] ∧ SameMem s (finished s u) ∧ (finished s u).flags = s.flags ∧ NoDevice s (finished s u) ∧
      Advances 2 s (finished s u) := by
  obtain ⟨htrace, hdraws⟩ := h.device
  refine ⟨fun r hr _ => ?_, fun a => ?_, by simp [h.flags], ⟨by simp [htrace], by simp [hdraws]⟩, finished_advances h.itstate⟩
  · rw [finished_x s u hr]
    exact State.x_congr_of_lt h.regs hr
  · rw [finished_byteAt, State.byteAt, h.mem]
    rfl

theorem setMasks_sameData (s : State) (a i f v : Bool) : SameData s (s.setMasks a i f v) :=
  ⟨by simp, by simp, by simp, by simp, by simp, by simp⟩

theorem setEndian_sameData (s : State) (e : Endian) : SameData s { s with e := e } := ⟨rfl, rfl, rfl, rfl, rfl, rfl⟩

theorem setEvent_sameData (s : State) (b : Bool) : SameData s { s with ev := b } := ⟨rfl, rfl, rfl, rfl, rfl, rfl⟩

/-! ## CPSID, CPSIE and SETEND (R291 to R293) -/

theorem State.setMasks_maskA (s : State) (a i f v : Bool) :
    (s.setMasks a i f v).maskA = if s.params.priv && a then v else s.maskA := by
  unfold State.setMasks
  cases s.params.priv <;> rfl

theorem State.setMasks_maskI (s : State) (a i f v : Bool) :
    (s.setMasks a i f v).maskI = if s.params.priv && i then v else s.maskI := by
  unfold State.setMasks
  cases s.params.priv <;> rfl

theorem State.setMasks_maskF (s : State) (a i f v : Bool) :
    (s.setMasks a i f v).maskF = if s.params.priv && f then v else s.maskF := by
  unfold State.setMasks
  cases s.params.priv <;> rfl

/-- The checks of CPSID and CPSIE pass outside a block with a flag named (U5, U27). -/
theorem cpsChecks_none {a i f : Bool} {s : State} (hit : s.inIT = false) (h : a = true ∨ i = true ∨ f = true) :
    cpsChecks a i f s = none := by
  rw [cpsChecks, check_or_none hit, check_none]
  obtain rfl | rfl | rfl := h <;> simp

/-- Settles O57: outside a block the three instructions are performed, and their effect is on the masks or on E alone. -/
theorem processorStateChanges : Obligations.ProcessorStateChanges := by
  intro s a i f e hit hpc quiet masks changes
  have hruns : Runs 2 s := ⟨State.passed_of_not_inIT hit, hpc⟩
  have hquiet {u : State} (hdata : SameData s u) (hrun : SameRun s u) (hev : u.ev = s.ev) : quiet (finished s u) := by
    obtain ⟨hregs, hmem, hflags, hdevice, hadvances⟩ := hdata.finished
    exact ⟨hregs, hmem, hflags, hdevice, by simp [hrun.params], by simp [hrun.thumb], by simp [hev], by simp [hrun.fetched],
      by simp [hrun.stepIndex], by simp [hrun.pending], hadvances⟩
  have hmasks (value : Bool) : changes value (.next (finished s (s.setMasks a i f value))) := by
    refine ⟨_, rfl, hquiet (setMasks_sameData s a i f value) (Effected.masks a i f value).sameRun (by simp), by simp, ?_, ?_, ?_⟩
    · rw [finished_maskA, State.setMasks_maskA]
    · rw [finished_maskI, State.setMasks_maskI]
    · rw [finished_maskF, State.setMasks_maskF]
  refine ⟨fun hnamed => ⟨?_, ?_⟩, ?_⟩
  · rw [exec, execCpsid, cpsChecks_none hit hnamed, sequential_runs hruns]
    exact hmasks true
  · rw [exec, execCpsie, cpsChecks_none hit hnamed, sequential_runs hruns]
    exact hmasks false
  · rw [exec, execSetend, check_none.2 hit, sequential_runs hruns]
    exact ⟨_, rfl, hquiet (setEndian_sameData s e) (Effected.endian e).sameRun rfl, by simp, by simp, by simp, by simp⟩

/-! ## NOP and the hints (R295 to R300) -/

theorem hasV7_iff {arch : Arch} : arch.hasV7 = true ↔ arch = .v7 := beq_iff_eq

/-- The shape of an instruction whose effect turns out to be none. -/
theorem noEffect_writes {s : State} {act : State → Result} (h : Runs 2 s) (ha : act s = .next s) :
    WritesFlags s s.flags (sequential none act s) := writesFlags_sequential h ha (fun _ => rfl) (noEffect s)

theorem wakesWfi_iff (s : State) : s.wakesWfi = true ↔
    s.pending.irq = true ∨ s.pending.fiq = true ∨ s.pending.impreciseAbort = true ∨ s.pending.debugRequest = true := by
  simp [State.wakesWfi, or_assoc]

/-- Before V7 SEV, WFE and WFI have no effect (R296 to R298). -/
theorem hints_before_V7 {s : State} (h : Runs 2 s) (h7 : s.params.arch.hasV7 = false) :
    WritesFlags s s.flags (exec .sev s) ∧ WritesFlags s s.flags (exec .wfe s) ∧ WritesFlags s s.flags (exec .wfi s) := by
  simp only [exec]
  exact ⟨noEffect_writes h (by simp [h7]), noEffect_writes h (by simp [h7]), noEffect_writes h (by simp [h7])⟩

/-- Settles O58: on V7 SEV and WFE have an effect on EV alone, and WFE and WFI wait before any effect. -/
theorem hintResults : Obligations.HintResults := by
  intro s number h wakes onlyEvent
  have hevent (b : Bool) : onlyEvent b (.next (finished s { s with ev := b })) := by
    obtain ⟨hregs, hmem, hflags, hdevice, hadvances⟩ := (setEvent_sameData s b).finished
    exact ⟨_, rfl, by simp, hflags, hregs, hmem, by constructor <;> simp, hdevice, hadvances⟩
  have hwakes : s.wakesWfi = true ↔ wakes := wakesWfi_iff s
  refine ⟨nothing_writes h, nothing_writes h, nothing_writes h, fun hbefore => ?_, fun harch => ?_⟩
  · exact hints_before_V7 h (by simpa [← hasV7_iff] using hbefore)
  · have h7 := hasV7_iff.2 harch
    refine ⟨?_, fun hev => ?_, fun hev => ?_, fun hw => ?_, fun hw => ?_⟩
    · rw [exec, execSev, sequential_runs h, if_pos h7]
      exact hevent true
    · rw [exec, execWfe, sequential_runs h, if_pos h7, if_pos hev]
      exact hevent false
    · rw [exec, execWfe, sequential_runs h, if_pos h7, hev]
      rfl
    · rw [exec, execWfi]
      exact noEffect_writes h (by simp [hwakes.2 hw])
    · have hstays : s.wakesWfi = false := Bool.eq_false_iff.2 (mt hwakes.1 hw)
      rw [exec, execWfi, sequential_runs h, h7, hstays]
      rfl

/-! ## SVC, BKPT and UDF (R290, R294, R101) -/

/-- The halfword of UDF is `0xDE` and the immediate (R101). -/
theorem half_udf (imm8 : BitVec 8) : half (0xDE00 + imm8.toNat) = 0xDE#8 ++ imm8 := by
  have hlt := imm8.isLt
  apply BitVec.eq_of_toNat_eq
  rw [BitVec.toNat_append, ← Nat.shiftLeft_add_eq_or_of_lt hlt, half, BitVec.toNat_ofNat, Nat.mod_eq_of_lt (by omega)]
  rfl

/-- Settles O59: SVC is subject to the condition like any other instruction; BKPT and UDF are not. -/
theorem stoppingInstructions : Obligations.StoppingInstructions := by
  intro s imm8 p
  refine ⟨fun hpassed => ?_, fun hfailed hpc => ?_, rfl, ?_, rfl⟩
  · rw [exec, execSvc, branching_runs hpassed]
    rfl
  · exact (exec_next_of_not_passed rfl hfailed).2 ⟨rfl, hpc, rfl⟩
  · rw [exec, execUdf, half_udf]
    rfl

end Sys2Proof.Machine
end

section
/-! Proofs of the statements of 60_exceptions.md: the interrupts at the start of a step, and what the privilege has no part in. -/

namespace Sys2Proof.Machine

/-! ## Interrupts (R316) -/

/-- The start of a step, written out: `pending` is the oracle's answer, and on V7 an event sets EV. -/
theorem State.beginStep_eq (s : State) (p : EventSet) :
    s.beginStep p = { s with pending := p, ev := if s.params.arch = .v7 ∧ p.event = true then true else s.ev } := by
  by_cases h : s.params.arch = .v7 ∧ p.event = true <;> simp [State.beginStep, State.receiveEvent, Arch.hasV7, h]

theorem cycle_interrupted {s : State} {events : EventSet} {k : InterruptKind} (h : s.t = .thumb)
    (hi : (s.beginStep events).interruptTaken = some k) : cycle events s = .fault (.interrupt k) := by
  simp [cycle, h, hi, raise]

/-- Settles O9: a step is a `cycle`, which looks at the pending events in the order of R316 before it fetches. -/
theorem stepDeliversInterrupts : Obligations.StepDeliversInterrupts := by
  intro s hthumb starts
  have hcycle (pending : EventSet) : starts pending (cycle pending s) := by
    simp only [starts, ← State.beginStep_eq]
    split_ifs with hdebug habort hfiq hirq
    · exact cycle_interrupted hthumb (by simp [State.interruptTaken, hdebug])
    · exact cycle_interrupted hthumb (by simp [State.interruptTaken, hdebug, habort])
    · exact cycle_interrupted hthumb (by simp [State.interruptTaken, hdebug, habort, hfiq])
    · exact cycle_interrupted hthumb (by simp [State.interruptTaken, hdebug, habort, hfiq, hirq])
    · rw [cycle_thumb hthumb (by simp [State.interruptTaken, hdebug, habort, hfiq, hirq])]
  have hunder (irq : IrqOracle) : starts (irq s.stepIndex) (stepUnder irq neverResumes s) := by
    rw [stepUnder_neverResumes]
    exact hcycle _
  exact ⟨hunder s.params.irqOracle, hunder⟩

/-! ## What the privilege has no part in (R331) -/

/-- The state with another value of `PRIV`. -/
def State.withPriv (s : State) (b : Bool) : State := { s with params := { s.params with priv := b } }

/-- The result with another value of `PRIV` in the state it gives or carries. -/
def resultWithPriv (b : Bool) : Result → Result
  | .next t => .next (t.withPriv b)
  | .fault f => .fault f
  | .refused (.leftThumbState target t) => .refused (.leftThumbState target (t.withPriv b))
  | .refused r => .refused r

/-- What `act` does is the same whatever `PRIV` is. -/
def PrivBlind (act : State → Result) : Prop := ∀ (s : State) (b : Bool), act (s.withPriv b) = resultWithPriv b (act s)

/-! ### The updates of the state -/

theorem State.withPriv_inIT (s : State) (b : Bool) : (s.withPriv b).inIT = s.inIT := rfl

theorem State.withPriv_x (s : State) (b : Bool) (r : Reg) : (s.withPriv b).x r = s.x r := rfl

theorem State.withPriv_arch (s : State) (b : Bool) : (s.withPriv b).params.arch = s.params.arch := rfl

theorem State.withPriv_wraps (s : State) (b : Bool) (len : Nat) : (s.withPriv b).wraps len = s.wraps len := rfl

theorem State.withPriv_kindOf (s : State) (b : Bool) (a : Nat) : kindOf (s.withPriv b).params a = kindOf s.params a := rfl

theorem State.setX_withPriv (s : State) (b : Bool) (r : Reg) (v : Word) : (s.withPriv b).setX r v = (s.setX r v).withPriv b := by
  unfold State.setX
  split <;> rfl

theorem State.writeFlagsOutsideIT_withPriv (s : State) (b : Bool) (f : Flags) :
    (s.withPriv b).writeFlagsOutsideIT f = (s.writeFlagsOutsideIT f).withPriv b := by
  unfold State.writeFlagsOutsideIT
  rw [State.withPriv_inIT]
  cases s.inIT <;> rfl

theorem State.advanceIT_withPriv (s : State) (b : Bool) (it : BitVec 8) :
    (s.withPriv b).advanceIT it = (s.advanceIT it).withPriv b := by
  unfold State.advanceIT
  cases inBlock it <;> rfl

theorem State.noteDevice_withPriv (s : State) (b touches : Bool) (ev : DeviceEvent) :
    (s.withPriv b).noteDevice touches ev = (s.noteDevice touches ev).withPriv b := by
  cases touches <;> rfl

theorem State.useMulDraw_withPriv (s : State) (b : Bool) : (s.withPriv b).useMulDraw = s.useMulDraw.withPriv b := by
  unfold State.useMulDraw
  rw [State.withPriv_arch, State.withPriv_inIT]
  cases s.params.arch = .v4T && !s.inIT <;> rfl

theorem State.putSum_withPriv (s : State) (b : Bool) (d : LoReg) (r : Sum) :
    (s.withPriv b).putSum d r = (s.putSum d r).withPriv b := by
  rw [State.putSum, State.setX_withPriv, State.writeFlagsOutsideIT_withPriv, State.putSum]

theorem State.putNZ_withPriv (s : State) (b : Bool) (d : LoReg) (v : Word) :
    (s.withPriv b).putNZ d v = (s.putNZ d v).withPriv b := by
  rw [State.putNZ, State.setX_withPriv, State.writeFlagsOutsideIT_withPriv]
  rfl

theorem State.putShifted_withPriv (s : State) (b : Bool) (d : LoReg) (r : Shifted) :
    (s.withPriv b).putShifted d r = (s.putShifted d r).withPriv b := by
  rw [State.putShifted, State.setX_withPriv, State.writeFlagsOutsideIT_withPriv]
  rfl

theorem State.putProduct_withPriv (s : State) (b : Bool) (d : LoReg) (v : Word) :
    (s.withPriv b).putProduct d v = (s.putProduct d v).withPriv b := by
  rw [State.putProduct, State.setX_withPriv, State.writeFlagsOutsideIT_withPriv, State.useMulDraw_withPriv]
  rfl

theorem readNow_withPriv (w : Width) (addr : Word) (s : State) (b : Bool) :
    readNow w addr (s.withPriv b) = ((readNow w addr s).1, (readNow w addr s).2.withPriv b) :=
  Prod.ext rfl (State.noteDevice_withPriv s b _ _)

theorem storeBytes_withPriv (s : State) (b : Bool) (addr : Word) (i : Nat) (bs : List Byte) (m : Memory) :
    storeBytes (s.withPriv b).params addr i bs m = storeBytes s.params addr i bs m := by
  induction bs generalizing i m with
  | nil => rfl
  | cons v vs ih => rw [storeBytes, ih, State.withPriv_kindOf, storeBytes]

theorem writeNow_withPriv (w : Width) (addr v : Word) (s : State) (b : Bool) :
    writeNow w addr v (s.withPriv b) = (writeNow w addr v s).withPriv b := by
  unfold writeNow
  rw [storeBytes_withPriv]
  exact State.noteDevice_withPriv { s with mem := storeBytes s.params addr 0 (toBytes s.e w.bytes v) s.mem } b
    (s.touchesDevice w addr) (.write addr w.bytes v)

theorem readChecks_withPriv (count : Nat) (base : Word) (s : State) (b : Bool) :
    readChecks count base (s.withPriv b) = readChecks count base s := rfl

theorem loadRegs_withPriv (rs : List LoReg) (addr : Word) (s : State) (b : Bool) :
    loadRegs rs addr (s.withPriv b) = (loadRegs rs addr s).withPriv b := by
  induction rs generalizing addr s with
  | nil => rfl
  | cons r rs ih => simp only [loadRegs, readNow_withPriv, State.setX_withPriv, ih]

theorem storeWords_withPriv (vs : List Word) (addr : Word) (s : State) (b : Bool) :
    storeWords vs addr (s.withPriv b) = (storeWords vs addr s).withPriv b := by
  induction vs generalizing addr s with
  | nil => rfl
  | cons v vs ih => simp only [storeWords, writeNow_withPriv, ih]

/-! ### The shared operations -/

theorem PrivBlind.next {f : State → State} (h : ∀ s b, f (s.withPriv b) = (f s).withPriv b) : PrivBlind fun s => .next (f s) :=
  fun s b => congrArg Host.Outcome.next (h s b)

theorem PrivBlind.fault (f : Fault) : PrivBlind fun _ => .fault f := fun _ _ => rfl

theorem andThen_withPriv {o : Result} {k k' : State → Result} {b : Bool}
    (h : ∀ t, k' (t.withPriv b) = resultWithPriv b (k t)) :
    andThen (resultWithPriv b o) k' = resultWithPriv b (andThen o k) := by
  cases o with
  | next t => exact h t
  | fault f => rfl
  | refused r => cases r <;> rfl

theorem PrivBlind.seqAdvance (len : Nat) : PrivBlind (State.seqAdvance len) := by
  intro s b
  unfold State.seqAdvance
  rw [State.withPriv_wraps]
  cases s.wraps len <;> rfl

/-- A choice that does not look at `PRIV`. -/
theorem PrivBlind.ite {c : State → Prop} [DecidablePred c] {act act' : State → Result} (hc : ∀ s b, c (s.withPriv b) ↔ c s)
    (h : PrivBlind act) (h' : PrivBlind act') : PrivBlind fun s => if c s then act s else act' s := by
  intro s b
  by_cases hcs : c s
  · simp [hcs, hc s b, h s b]
  · simp [hcs, hc s b, h' s b]

/-- An instruction runs its effect, or what is done where the condition fails, and then advances. -/
theorem PrivBlind.performed {act skip : State → Result} {k : State → State → State} (h : PrivBlind act) (hskip : PrivBlind skip)
    (hk : ∀ (s t : State) (b : Bool), k (s.withPriv b) (t.withPriv b) = (k s t).withPriv b) :
    PrivBlind fun s => andThen (if s.passed then act s else skip s) (fun t => .next (k s t)) := by
  intro s b
  have hact := PrivBlind.ite (c := fun s => s.passed = true) (fun _ _ => Iff.rfl) h hskip s b
  dsimp only at hact ⊢
  rw [hact]
  exact andThen_withPriv fun t => congrArg Host.Outcome.next (hk s t b)

theorem PrivBlind.sequential {why : Option Unpredictable} {act : State → Result} (h : PrivBlind act) :
    PrivBlind (sequential why act) := by
  cases why with
  | some r => exact .fault _
  | none =>
    refine .ite (c := fun s => s.wraps 2 = true) (fun _ _ => Iff.rfl) (.fault _) (h.performed (.next fun _ _ => rfl) ?_)
    exact fun s t b => State.advanceIT_withPriv { t with pc := s.nextPc 2 } b s.itstate

theorem PrivBlind.branching {len : Nat} {why : Option Unpredictable} {act : State → Result} (h : PrivBlind act) :
    PrivBlind (branching len why act) := by
  cases why with
  | some r => exact .fault _
  | none => exact h.performed (.seqAdvance len) fun s t b => State.advanceIT_withPriv t b s.itstate

theorem loadTo_withPriv (w : Width) (ext : Word → Word) (rt : LoReg) (addr : Word) (s : State) (b : Bool) :
    loadTo w ext rt addr (s.withPriv b) = resultWithPriv b (loadTo w ext rt addr s) := by
  have hcheck : readCheck w addr (s.withPriv b) = readCheck w addr s := rfl
  unfold loadTo memRead
  rw [hcheck, readNow_withPriv]
  cases readCheck w addr s with
  | some f => rfl
  | none => exact congrArg Host.Outcome.next (State.setX_withPriv _ b _ _)

theorem storeFrom_withPriv (w : Width) (v addr : Word) (s : State) (b : Bool) :
    storeFrom w v addr (s.withPriv b) = resultWithPriv b (storeFrom w v addr s) := by
  have hcheck : writeCheck w addr (s.withPriv b) = writeCheck w addr s := rfl
  unfold storeFrom memWrite
  rw [hcheck, writeNow_withPriv]
  cases writeCheck w addr s <;> rfl

theorem storeMultiple_withPriv (vs : List Word) (base : Word) (s : State) (b : Bool) :
    storeMultiple vs base (s.withPriv b) = resultWithPriv b (storeMultiple vs base s) := by
  have hcheck : writeChecks vs.length base (s.withPriv b) = writeChecks vs.length base s := rfl
  unfold storeMultiple
  rw [hcheck, storeWords_withPriv]
  cases writeChecks vs.length base s <;> rfl

theorem bxWritePC_withPriv (v : Word) (s : State) (b : Bool) :
    (s.withPriv b).bxWritePC v = resultWithPriv b (s.bxWritePC v) := by
  unfold State.bxWritePC
  cases v.getLsbD 0 <;> rfl

theorem loadWritePC_withPriv (v : Word) (s : State) (b : Bool) :
    (s.withPriv b).loadWritePC v = resultWithPriv b (s.loadWritePC v) := by
  unfold State.loadWritePC
  rw [State.withPriv_arch, bxWritePC_withPriv]
  cases s.params.arch.has5T <;> rfl

theorem PrivBlind.loadTo (w : Width) (ext : Word → Word) (rt : LoReg) {addr : State → Word}
    (haddr : ∀ s b, addr (s.withPriv b) = addr s) : PrivBlind fun s => loadTo w ext rt (addr s) s := by
  intro s b
  simp only [haddr, loadTo_withPriv]

theorem PrivBlind.storeFrom (w : Width) {v addr : State → Word} (hv : ∀ s b, v (s.withPriv b) = v s)
    (haddr : ∀ s b, addr (s.withPriv b) = addr s) : PrivBlind fun s => storeFrom w (v s) (addr s) s := by
  intro s b
  simp only [hv, haddr, storeFrom_withPriv]

/-- STM and PUSH: a multiple store and the write-back of the base. -/
theorem PrivBlind.storeMultiple {vs : State → List Word} {base v : State → Word} (d : Reg)
    (hvs : ∀ s b, vs (s.withPriv b) = vs s) (hbase : ∀ s b, base (s.withPriv b) = base s)
    (hv : ∀ s b, v (s.withPriv b) = v s) :
    PrivBlind fun s => andThen (storeMultiple (vs s) (base s) s) (fun t => .next (t.setX d (v s))) := by
  intro s b
  simp only [hvs, hbase, hv, storeMultiple_withPriv]
  exact andThen_withPriv fun t => congrArg Host.Outcome.next (State.setX_withPriv t b d (v s))

/-! ### The instructions -/

/-- A direct branch is taken or not by a condition that does not look at `PRIV`. -/
theorem PrivBlind.branchIf {c : State → Prop} [DecidablePred c] (hc : ∀ s b, c (s.withPriv b) ↔ c s) {v : State → Word}
    (hv : ∀ s b, v (s.withPriv b) = v s) :
    PrivBlind fun s => if c s then .next (s.branchWritePC (v s)) else s.seqAdvance 2 :=
  .ite hc (.next fun s b => congrArg (State.branchWritePC (s.withPriv b)) (hv s b)) (.seqAdvance 2)

/-- MOV and ADD of any registers, from a value that does not depend on `PRIV`. -/
theorem PrivBlind.moveTo (d : Reg) (why : Option Unpredictable) {v : State → Word} (hv : ∀ s b, v (s.withPriv b) = v s) :
    PrivBlind fun s => if d = PC then Machine.branching 2 why (fun s => .next (s.branchWritePC (v s))) s
      else Machine.sequential why (fun s => .next (s.setX d (v s))) s := by
  refine .ite (fun _ _ => Iff.rfl) (.branching (.next fun s b => ?_)) (.sequential (.next fun s b => ?_))
  · exact congrArg (State.branchWritePC (s.withPriv b)) (hv s b)
  · rw [hv, State.setX_withPriv]

theorem execLdm_privBlind (rn : LoReg) (list : BitVec 8) : PrivBlind (execLdm rn list) := by
  intro s b
  refine PrivBlind.sequential (fun s b => ?_) s b
  simp only [State.withPriv_x, readChecks_withPriv, loadRegs_withPriv, State.setX_withPriv]
  cases readChecks (bitCount list) (s.x (lo rn)) s with
  | some f => rfl
  | none => cases inList list rn <;> rfl

theorem execPop_privBlind (p : Bool) (list : BitVec 8) : PrivBlind (execPop p list) := by
  intro s b
  cases p with
  | true =>
    rw [execPop, execPop, if_pos rfl, if_pos rfl]
    refine PrivBlind.branching (fun s b => ?_) s b
    simp only [State.withPriv_x, readChecks_withPriv, loadRegs_withPriv, readNow_withPriv, State.setX_withPriv,
      loadWritePC_withPriv]
    cases readChecks (stackCount true list) (s.x SP) s <;> rfl
  | false =>
    rw [execPop, execPop, if_neg Bool.false_ne_true, if_neg Bool.false_ne_true]
    refine PrivBlind.sequential (fun s b => ?_) s b
    simp only [popRegs, State.withPriv_x, readChecks_withPriv, loadRegs_withPriv, State.setX_withPriv]
    cases readChecks (stackCount false list) (s.x SP) s <;> rfl

/-- No instruction but CPSID and CPSIE looks at `PRIV` (R331). -/
theorem exec_privBlind {i : Instr} (hi : ∀ a m f, i ≠ .cpsid a m f ∧ i ≠ .cpsie a m f) : PrivBlind (exec i) := by
  intro s b
  cases i with
  | cpsid a m f => exact absurd rfl (hi a m f).1
  | cpsie a m f => exact absurd rfl (hi a m f).2
  | bkpt | udf => rfl
  | addHi d | movHi d => exact PrivBlind.moveTo d _ (fun _ _ => rfl) s b
  | ldm rn list => exact execLdm_privBlind rn list s b
  | pop p list => exact execPop_privBlind p list s b
  | addsReg | subsReg | addsImm3 | subsImm3 | addsImm8 | subsImm8 | adcs | sbcs | rsbs =>
    simp only [exec]
    exact PrivBlind.sequential (.next fun s b => State.putSum_withPriv s b _ _) s b
  | movsReg | movsImm | ands | eors | orrs | bics | mvns =>
    simp only [exec]
    exact PrivBlind.sequential (.next fun s b => State.putNZ_withPriv s b _ _) s b
  | lslsImm | lsrsImm | asrsImm | lslsReg | lsrsReg | asrsReg | rorsReg =>
    simp only [exec]
    exact PrivBlind.sequential (.next fun s b => State.putShifted_withPriv s b _ _) s b
  | muls =>
    simp only [exec]
    exact PrivBlind.sequential (.next fun s b => State.putProduct_withPriv s b _ _) s b
  | addSp | subSp | addRdSp | adr | sxth | sxtb | uxth | uxtb | rev | rev16 | revsh =>
    simp only [exec]
    exact PrivBlind.sequential (.next fun s b => State.setX_withPriv s b _ _) s b
  | cmpLo | cmpHi | cmpImm | cmn | tst | it | setend | nop | yield | hint =>
    simp only [exec]
    exact PrivBlind.sequential (.next fun _ _ => rfl) s b
  | ldrImm | ldrhImm | ldrbImm | ldrReg | ldrhReg | ldrshReg | ldrbReg | ldrsbReg | ldrLit | ldrSp =>
    simp only [exec]
    exact PrivBlind.sequential (.loadTo _ _ _ fun _ _ => rfl) s b
  | strImm | strhImm | strbImm | strReg | strhReg | strbReg | strSp =>
    simp only [exec]
    exact PrivBlind.sequential (.storeFrom _ (fun _ _ => rfl) fun _ _ => rfl) s b
  | stm | push =>
    simp only [exec]
    exact PrivBlind.sequential (.storeMultiple _ (fun _ _ => rfl) (fun _ _ => rfl) fun _ _ => rfl) s b
  | sev =>
    simp only [exec]
    refine PrivBlind.sequential (.next fun s b => ?_) s b
    rw [State.withPriv_arch]
    cases s.params.arch.hasV7 <;> rfl
  | wfe =>
    simp only [exec]
    refine PrivBlind.sequential (.ite (fun _ _ => Iff.rfl) (.ite (fun _ _ => Iff.rfl) (.next fun _ _ => rfl) (.fault _)) ?_) s b
    exact .next fun _ _ => rfl
  | wfi =>
    simp only [exec]
    exact PrivBlind.sequential (.ite (fun _ _ => Iff.rfl) (.fault _) (.next fun _ _ => rfl)) s b
  | bCond | cbz | cbnz =>
    simp only [exec]
    exact PrivBlind.branching (.branchIf (fun _ _ => Iff.rfl) fun _ _ => rfl) s b
  | b =>
    simp only [exec]
    exact PrivBlind.branching (.next fun _ _ => rfl) s b
  | bl =>
    simp only [exec]
    refine PrivBlind.branching (.next fun s b => ?_) s b
    rw [State.setX_withPriv]
    rfl
  | bx =>
    simp only [exec]
    exact PrivBlind.branching (fun s b => bxWritePC_withPriv _ s b) s b
  | blxReg =>
    simp only [exec]
    refine PrivBlind.branching (fun s b => ?_) s b
    rw [State.setX_withPriv]
    exact bxWritePC_withPriv _ _ b
  | blxLabel =>
    simp only [exec]
    refine PrivBlind.branching (fun s b => ?_) s b
    rw [State.setX_withPriv]
    rfl
  | svc =>
    simp only [exec]
    exact PrivBlind.branching (.fault _) s b

/-- Settles O16: each effect is built of operations that do not look at `PRIV`. -/
theorem privilegeOnlyAffectsCps : Obligations.PrivilegeOnlyAffectsCps := by
  intro i s b hi
  refine (exec_privBlind hi s b).trans ?_
  cases exec i s with
  | next t => rfl
  | fault f => rfl
  | refused r => cases r <;> rfl

end Sys2Proof.Machine
end

section
/-! Proofs of the statements of 70_reset_and_hazards.md: the launch state. -/

namespace Sys2Proof.Machine

/-- Settles O20: the launch state is written with these values, and `ENTRY` has bit 0 clear. -/
theorem launchStateValues : Obligations.LaunchStateValues := by
  intro p regs flags ev mem s
  exact ⟨rfl, rfl, Params.entry_even p, rfl, rfl, rfl, rfl, rfl, rfl, rfl, rfl, rfl, rfl⟩

end Sys2Proof.Machine
end
